-- ==== Sys2Proof/Word.lean ====
section
/-! DEFINITION. The word types of the NPE: a byte, a 32-bit register or row index, a 64-bit register or host address. -/

namespace Sys2Proof

/-- One 8-bit byte; byte values are 8-bit unsigned (R13). -/
abbrev Byte := BitVec 8

/-- A 32-bit register value or row index (R30, R82). -/
abbrev Word32 := BitVec 32

/-- A 64-bit register value or host byte address (R30, R60). -/
abbrev Word64 := BitVec 64

end Sys2Proof
end

