-- ==== Sys2Proof/Config.lean ====
section
/-! DEFINITION. The configuration of an NPE (R7 to R10), fixed for a run, with the spec's defaults; and the free values
(R11, R121, D22, D31): opaque constants that nothing can evaluate. -/

namespace Sys2Proof

/-- The chip geometry (R7): every field of a catalog entry but its ids and its name (R23). -/
structure Geometry where
  pageSize : Nat
  spareSize : Nat
  pagesPerBlock : Nat
  blocksPerLun : Nat
  luns : Nat
  colCycles : Nat
  rowCycles : Nat
  cellWidth : Nat
  readStart : Bool
  deriving DecidableEq, Repr

/-- The geometry whose every field is zero: what the GEOM registers show while no chip is identified (R36). -/
def Geometry.none : Geometry :=
  { pageSize := 0, spareSize := 0, pagesPerBlock := 0, blocksPerLun := 0, luns := 0,
    colCycles := 0, rowCycles := 0, cellWidth := 0, readStart := false }

/-- An entry of CATALOG (R7). No rule reads `name`. -/
structure ChipDesc where
  makerId : Byte
  deviceId : Byte
  geom : Geometry
  name : String
  deriving DecidableEq, Repr

/-- The ECC descriptor (R8): ECC_SIZE, ECC_STRIDE (the count ES of ECC bytes of one stride, C1), ECC_PROTECT, ECC_POS. -/
structure EccDesc where
  size : Nat
  stride : Nat
  protect : Nat
  pos : List Nat
  deriving DecidableEq, Repr

/-- The bus protocol parameters (R9). -/
structure BusParams where
  cmdReset : Byte
  cmdReadId : Byte
  idAddr : Byte
  cmdRead : Byte
  cmdReadStart : Byte
  cmdProgram : Byte
  cmdProgramEnd : Byte
  cmdErase : Byte
  cmdEraseConfirm : Byte
  cmdStatus : Byte
  readyMask : Byte
  failMask : Byte
  deriving DecidableEq, Repr

/-- The defaults of R9. PRESUMED (log 14): the spec takes the values from general knowledge (G1 to G11);
CMD_ERASE_CONFIRM is CMD_PROGRAM_END (D5). -/
def BusParams.default : BusParams :=
  { cmdReset := 0xFF, cmdReadId := 0x90, idAddr := 0x00, cmdRead := 0x00, cmdReadStart := 0x30,
    cmdProgram := 0x80, cmdProgramEnd := 0x10, cmdErase := 0x60, cmdEraseConfirm := 0x10,
    cmdStatus := 0x70, readyMask := 0x40, failMask := 0x01 }

/-- BLANK_BYTE, the erase value, fixed (R9). -/
def blankByte : Byte := 0xFF

/-- POLL_LIMIT (R10, R115): a bound on the not-ready answers of one wait loop, or none. -/
inductive PollLimit where
  | unbounded
  | bounded (m : Nat)
  deriving DecidableEq, Repr

/-- RESET_WAIT_MODE (R10, R120): the wait after the reset command of IDENTIFY. -/
inductive ResetWait where
  | rnb
  | status
  deriving DecidableEq, Repr

/-- ID_SELECT (R10, D13): whether IDENTIFY brackets its sequence with select primitives. -/
inductive IdSelect where
  | none
  | bracket
  deriving DecidableEq, Repr

/-- ERASE_ROW_MODE (R10, R200). -/
inductive EraseRow where
  | blockIndex
  | pageOfBlock
  deriving DecidableEq, Repr

/-- A run of admitted host addresses: `size` bytes from `base`. HOST_MEM (R10) is a list of them. -/
structure Region where
  base : Nat
  size : Nat
  deriving DecidableEq, Repr

/-- BUS_CAPS (R10, R145): which of the seven Bus Backend capabilities the backend has. -/
structure BusCaps where
  select : Bool
  command : Bool
  address : Bool
  read : Bool
  readSingle : Bool
  write : Bool
  waitReady : Bool
  deriving DecidableEq, Repr

/-- ECC_CAPS (R10, R145): which of the three ECC Backend capabilities the backend has. -/
structure EccCaps where
  startStride : Bool
  compute : Bool
  correct : Bool
  deriving DecidableEq, Repr

/-- The configuration (R39). ECC_FN and CORRECT_FN (R11) are the opaque functions below. -/
structure Config where
  /-- CATALOG (R7). -/
  catalog : List ChipDesc
  /-- ECC_DESC (R8). -/
  ecc : Option EccDesc
  /-- The bus protocol parameters (R9). -/
  bus : BusParams
  /-- POLL_LIMIT (R10). -/
  pollLimit : PollLimit
  /-- POLL_INTERVAL (R10): carried and never interpreted (D15). -/
  pollInterval : Nat
  /-- RESET_WAIT_MODE (R10). -/
  resetWait : ResetWait
  /-- ID_SELECT (R10). -/
  idSelect : IdSelect
  /-- ERASE_ROW_MODE (R10). -/
  eraseRow : EraseRow
  /-- HOST_MEM (R10, R60): the host addresses the platform admits. -/
  hostMem : List Region
  /-- BUS_CAPS (R10). -/
  busCaps : BusCaps
  /-- ECC_CAPS (R10). -/
  eccCaps : EccCaps
  /-- REG_BASE (R30, R66): where the platform maps the register block. -/
  regBase : Nat
  deriving DecidableEq, Repr

/-- The configuration of `State.reset`: the defaults of R9 and R10, and for the parameters with no default the values of
log 2 (DESIGN CHOICE): an empty catalog, no ECC, all of the 64-bit host space, every capability, REG_BASE 0. -/
def Config.default : Config :=
  { catalog := [], ecc := none, bus := BusParams.default, pollLimit := .unbounded, pollInterval := 0,
    resetWait := .rnb, idSelect := .none, eraseRow := .blockIndex,
    hostMem := [{ base := 0, size := 2 ^ 64 }],
    busCaps := { select := true, command := true, address := true, read := true, readSingle := true,
                 write := true, waitReady := true },
    eccCaps := { startStride := true, compute := true, correct := true },
    regBase := 0 }

/-- One answer of a Backend (R15, R16): a record from which each primitive reads the parts that are its own.
`ok` is ok or fail, `ready` the answer of BusWaitReady, `bytes` the bytes read, computed or corrected,
`code` the correction code. -/
structure Answer where
  ok : Bool
  ready : Bool
  bytes : List Byte
  code : Word32
  deriving DecidableEq, Repr, Inhabited

/-! The free values. Each has no body; the counter `draws` of the state, or the operands, select one. -/

/-- The answer of draw `n`, where `inputs` lists none (R121): any answer. DESIGN CHOICE (log 4). -/
opaque Config.freeAnswer (n : Nat) : Answer

/-- Byte `j` of an answer of draw `n` that gives too few bytes: any byte. DESIGN CHOICE (log 8). -/
opaque Config.padByte (n j : Nat) : Byte

/-- Byte `j` of the scratch contents of allocation `n` (R24, R25, R144): any byte, drawn once (D22, U12; log 7). -/
opaque Config.scratchByte (n j : Nat) : Byte

/-- The byte a raced host address gives or takes at draw `n` (R68, R263): any byte (D31, U16; log 13). -/
opaque Config.racedByte (n a : Nat) : Byte

/-- ECC_FN (R11), uninterpreted: the code of a stride's bytes where `inputs` lists no answer (log 18). -/
opaque Config.eccFn (d : List Byte) : List Byte

/-- CORRECT_FN (R11), uninterpreted: the code and bytes of a correction where `inputs` lists no answer (log 18). -/
opaque Config.correctFn (d c r : List Byte) : Word32 × List Byte

end Sys2Proof
end

