-- ==== Sys2Proof/Syntax.lean ====
section
/-! DEFINITION. The six operations of the NPE and the fields of the 128-bit descriptor that names one. -/

namespace Sys2Proof

/-- The operations of the opcode map (R83), one constructor per row, with the operands each one uses.
Fields an operation ignores (R85) are no operands of it. -/
inductive Instr where
  /-- OP 0x1, no operand (R140). -/
  | identify
  /-- OP 0x2, operand EN, the select level (R191). -/
  | select (en : Bool)
  /-- OP 0x3, operands ARG, the page index, and BUF, the page buffer's host address (R193). -/
  | pageRead (page : Word32) (buf : Word64)
  /-- OP 0x4, operands ARG, the page index, and BUF, the page buffer's host address (R196). -/
  | pageProgram (page : Word32) (buf : Word64)
  /-- OP 0x5, operand ARG, the block index (R199). -/
  | blockErase (block : Word32)
  /-- OP 0x6, no operand (R147). -/
  | detach
  deriving DecidableEq, Repr

/-- The fields of a descriptor (R80, R81): what `cur` holds of one after issue (R27, R33). -/
structure Fields where
  /-- OP, DESC0[3:0]. -/
  op : BitVec 4
  /-- EN, DESC0[4]. -/
  en : Bool
  /-- RSVD, DESC0[31:5]. -/
  rsvd : BitVec 27
  /-- ARG, DESC0[63:32]. -/
  arg : Word32
  /-- BUF, DESC1[63:0]. -/
  buf : Word64
  deriving DecidableEq, Repr

/-- Why a descriptor is not valid (R84). All three complete alike, with NotSupported (R86). -/
inductive Invalid where
  /-- OP is 0x0 or 0x7 to 0xF. -/
  | reservedOp
  /-- RSVD is not 0. -/
  | reservedBits
  /-- EN is 1 and OP is not SELECT. -/
  | enable
  /-- Fewer than the sixteen bytes of a descriptor were given. -/
  | tooShort
  deriving DecidableEq, Repr

/-- What a descriptor decodes to: one of the six operations, or invalid (R87). -/
inductive Decoded where
  | valid (i : Instr)
  | invalid (why : Invalid)
  deriving DecidableEq, Repr

end Sys2Proof
end

