-- ==== Sys2Proof/WellFormed.lean ====
section
/-! DEFINITION. Well-formedness: of a descriptor (R84) and of a configuration (R7, R10, R160). Every term of `Instr` is
well-formed, its operands having exactly the widths of R82. -/

namespace Sys2Proof

/-- OP is one of the six operations (R84). -/
def Fields.opOk (f : Fields) : Bool := 1 ≤ f.op.toNat && f.op.toNat ≤ 6

/-- RSVD is 0 (R84). -/
def Fields.rsvdOk (f : Fields) : Bool := f.rsvd == 0

/-- EN is 0 unless the operation is SELECT (R84). -/
def Fields.enOk (f : Fields) : Bool := !f.en || f.op == 2

/-- A descriptor is valid (R84). -/
def Fields.valid (f : Fields) : Bool := f.opOk && f.rsvdOk && f.enOk

/-- The constraints on a catalog entry's geometry (R7, D25). -/
def Geometry.wf (g : Geometry) : Bool :=
  decide (1 ≤ g.pageSize) && decide (1 ≤ g.spareSize) && decide (1 ≤ g.pagesPerBlock) &&
  decide (1 ≤ g.blocksPerLun) && decide (1 ≤ g.luns) && decide (g.colCycles ≤ 8) &&
  (decide (1 ≤ g.rowCycles) && decide (g.rowCycles ≤ 8)) && decide (g.cellWidth = 8)

/-- The seven conditions of R160 on the ECC descriptor against one catalog geometry, in the rule's order. -/
def EccDesc.wf (e : EccDesc) (g : Geometry) : Bool :=
  decide (1 ≤ e.protect) &&
  decide (e.protect ≤ g.pageSize) &&
  decide (g.pageSize % min e.protect g.pageSize = 0) &&
  decide (1 ≤ e.stride) &&
  decide (g.pageSize / min e.protect g.pageSize * e.stride ≤ e.size) &&
  decide (e.pos.length = e.size) &&
  e.pos.all fun p => decide (p < g.spareSize)

/-- The ECC option passes R160 against one catalog geometry; without the option there is nothing to check. -/
def Config.eccOk (c : Config) (g : Geometry) : Bool :=
  match c.ecc with
  | none => true
  | some e => e.wf g

/-- A bounded poll limit bounds by at least 1 (R10). -/
def PollLimit.wf : PollLimit → Bool
  | .unbounded => true
  | .bounded m => decide (1 ≤ m)

/-- The configuration is admitted (R7, R10, R160); any other has no run (R160, R227). -/
def Config.wf (c : Config) : Bool :=
  c.pollLimit.wf && c.catalog.all fun e => e.geom.wf && c.eccOk e.geom

end Sys2Proof
end

