-- ==== Sys2Proof/Decode.lean ====
section
/-! DEFINITION. The decoder of descriptors (R80 to R87), total and rejecting by name; then the encoder (R95). -/

namespace Sys2Proof

/-- The fields of the descriptor held in DESC0 and DESC1 (R80, R81, R82). -/
def fieldsOfWords (desc0 desc1 : Word64) : Fields :=
  { op := desc0.extractLsb' 0 4, en := desc0.getLsbD 4, rsvd := desc0.extractLsb' 5 27,
    arg := desc0.extractLsb' 32 32, buf := desc1 }

/-- The row of the opcode map that OP selects, with its operands (R83). -/
def opcodeMap (f : Fields) : Option Instr :=
  match f.op.toNat with
  | 1 => some .identify
  | 2 => some (.select f.en)
  | 3 => some (.pageRead f.arg f.buf)
  | 4 => some (.pageProgram f.arg f.buf)
  | 5 => some (.blockErase f.arg)
  | 6 => some .detach
  | _ => none

/-- Decode a descriptor's fields (R84, R87): total, and an invalid descriptor is rejected by name. -/
def decodeFields (f : Fields) : Decoded :=
  match opcodeMap f with
  | none => .invalid .reservedOp
  | some i => if f.rsvdOk then (if f.enOk then .valid i else .invalid .enable) else .invalid .reservedBits

/-- Decode the descriptor held in DESC0 and DESC1. -/
def decode (desc0 desc1 : Word64) : Decoded := decodeFields (fieldsOfWords desc0 desc1)

/-- The number whose little-endian bytes are `bs` (R62, the register byte view). -/
def numberOfBytes : List Byte → Nat
  | [] => 0
  | b :: bs => b.toNat + 256 * numberOfBytes bs

/-- The `n` little-endian bytes of a number (R62, the register byte view). -/
def bytesOfNumber : Nat → Nat → List Byte
  | 0, _ => []
  | n + 1, v => BitVec.ofNat 8 v :: bytesOfNumber n (v / 256)

/-- Decode the sixteen bytes of a descriptor, DESC0's eight first, each word little-endian (R62, R80). Fewer bytes are
rejected; bytes past the sixteenth are not read. -/
def decodeBytes (bs : List Byte) : Decoded :=
  if bs.length < 16 then .invalid .tooShort
  else decode (BitVec.ofNat 64 (numberOfBytes (bs.take 8))) (BitVec.ofNat 64 (numberOfBytes ((bs.drop 8).take 8)))

/-- The instruction of a decoding that is valid. -/
def Decoded.toOption : Decoded → Option Instr
  | .valid i => some i
  | .invalid _ => none

/-- The instruction the decoder reads from a descriptor whose low `nbits` bits are those of `w`, the bits above them 0
(bit 0 is DESC0[0], bit 64 is DESC1[0]). -/
def decodeTableWord (nbits w : Nat) : Option Instr :=
  (decodeBytes (bytesOfNumber 16 (w % 2 ^ nbits))).toOption

/-- The operation code of each operation (R83). -/
def Instr.opcode : Instr → Word64
  | .identify => 1
  | .select _ => 2
  | .pageRead _ _ => 3
  | .pageProgram _ _ => 4
  | .blockErase _ => 5
  | .detach => 6

/-- The EN operand, 0 where the operation has none (R80). -/
def Instr.enOperand : Instr → Bool
  | .select en => en
  | .identify | .pageRead _ _ | .pageProgram _ _ | .blockErase _ | .detach => false

/-- The ARG operand, 0 where the operation has none (R80, R95). -/
def Instr.argOperand : Instr → Word32
  | .pageRead page _ => page
  | .pageProgram page _ => page
  | .blockErase block => block
  | .identify | .select _ | .detach => 0

/-- The BUF operand, 0 where the operation has none (R81, R95). -/
def Instr.bufOperand : Instr → Word64
  | .pageRead _ buf => buf
  | .pageProgram _ buf => buf
  | .identify | .select _ | .blockErase _ | .detach => 0

/-- DESC0 of an operation: `(zext_64(arg) << 32) | (en << 4) | OP` (R95). -/
def encodeDesc0 (i : Instr) : Word64 :=
  (i.argOperand.setWidth 64 <<< 32) ||| ((BitVec.ofBool i.enOperand).setWidth 64 <<< 4) ||| i.opcode

/-- DESC1 of an operation (R95). -/
def encodeDesc1 (i : Instr) : Word64 := i.bufOperand

/-- The descriptor of an operation: DESC0 and DESC1 (R95). -/
def encode (i : Instr) : Word64 × Word64 := (encodeDesc0 i, encodeDesc1 i)

end Sys2Proof
end

