-- ==== Sys2Proof/Machine/State.lean ====
section
/-! DEFINITION. The state of the NPE as plain data: the spec's own state (10_state.md), the fixed configuration, and the
inputs that the Backends and the host have lined up. Then why a step can stop, and the state after reset (R250). -/

namespace Sys2Proof.Machine

/-- `phase` (R21). -/
inductive Phase where
  | idle
  | busy
  deriving DecidableEq, Repr

/-- The error causes (R220); `ok` is success. -/
inductive Err where
  | ok
  | busError
  | ioError
  | unsupportedDevice
  | uncorrectableEcc
  | notSupported
  | missingCapability
  | timeout
  | eccBackendError
  deriving DecidableEq, Repr

/-- One step of the sequencer: a primitive of R15 or R16, or an internal step between two primitives. -/
inductive Micro where
  /-- `do_select(b)` (R111). -/
  | select (b : Bool)
  /-- `do_cmd(c)` (R112). -/
  | cmd (c : Byte)
  /-- `BusAddr(a)` (R113, R140). -/
  | addr (a : Byte)
  /-- `polls <- 0`, the start of a wait loop (R114, R116). -/
  | zeroPolls
  /-- One `BusWaitReady` of `wait_rnb` (R116). -/
  | waitRnb
  /-- The `BusRead1` of `status_poll` and its test (R114); `check` adds `status_check` (R119). -/
  | statusRead (check : Bool)
  /-- `Delay(POLL_INTERVAL)` (R118). -/
  | delay
  /-- The first identification byte, m (R140). -/
  | readMaker
  /-- The second identification byte, d (R140). -/
  | readDevice
  /-- `catalog_match` and `load_geometry` (R141, R143, R144). -/
  | loadGeometry
  /-- `EccStart` of a stride (R163). -/
  | eccStart
  /-- `BusRead(L)` of stride k, landing in the page buffer at `buf` (R163). -/
  | strideRead (buf : Word64) (k : Nat)
  /-- `BusWrite` of stride k of the page buffer at `buf` (R163). -/
  | strideWrite (buf : Word64) (k : Nat)
  /-- `EccCompute` of stride k (R164). -/
  | eccCompute (k : Nat)
  /-- `BusRead(S)` into the OOB buffer (R166). -/
  | spareRead
  /-- The read-ECC extraction (R167). -/
  | extractEcc
  /-- The spare image is built in the OOB buffer (R168). -/
  | buildSpare
  /-- `BusWrite(oob)` (R168). -/
  | spareWrite
  /-- `EccCorrect` of stride k of the page buffer at `buf` (R169). -/
  | eccCorrect (buf : Word64) (k : Nat)
  /-- The releases of DETACH (R147). -/
  | release
  deriving DecidableEq, Repr

/-- The sequencer's position inside the operation's sequence (R21). -/
inductive Pos where
  /-- At the start: nothing of the operation has been done. -/
  | start
  /-- These steps are still to do, and then the completion step `complete(OK)`. -/
  | run (rest : List Micro)
  /-- An error was raised and its completion step is still to do (R222). -/
  | fail (e : Err) (info : BitVec 16)
  deriving DecidableEq, Repr

/-- Whether the operation is IDENTIFY, whose bus error is IoError (R110) and whose errors roll back (R146). -/
inductive OpKind where
  | identify
  | other
  deriving DecidableEq, Repr

/-- The events of a trace (R17): a primitive with its arguments and its answer. A failed primitive answers `false` or `none`. -/
inductive Event where
  | sel (b : Bool) (ok : Bool)
  | cmd (c : Byte) (ok : Bool)
  | addr (a : Byte) (ok : Bool)
  | read (n : Nat) (x : Option (List Byte))
  | read1 (x : Option Byte)
  | write (x : List Byte) (ok : Bool)
  | waitrdy (b : Bool)
  | delay
  | eccstart (ok : Bool)
  | ecccompute (x : Option (List Byte))
  | ecccorrect (k : Nat) (code : Word32)
  deriving DecidableEq, Repr

/-- What the host and the platform do to the NPE (R30 to R36, R68, R230, R250). -/
inductive HostEvent where
  /-- The host writes `v` to register `n` (R30, R33, R36). -/
  | writeReg (n : Nat) (v : Word64)
  /-- The host reads register `n` (R30, R36). -/
  | readReg (n : Nat)
  /-- The host reads byte `j` of register `n`, where the platform maps registers as bytes (R62). -/
  | readRegByte (n j : Nat)
  /-- The host writes a byte of host memory. -/
  | writeMem (a : Nat) (v : Byte)
  /-- The host reads a byte of host memory. -/
  | readMem (a : Nat)
  /-- The host reads ENGSTAT until BUSY is 0 (R96, R230). -/
  | wait
  /-- The platform resets the NPE (R250). -/
  | reset
  deriving DecidableEq, Repr

/-- What reaches the NPE from outside: an answer of a Backend, or an act of the host. -/
inductive Input where
  | answer (a : Answer)
  | host (e : HostEvent)
  deriving DecidableEq, Repr

/-- What exists only while the instance is identified: the geometry (R23) and the scratch buffers (R24, R25).
The two ECC buffers are empty where the ECC option is absent, that is, not allocated. -/
structure Device where
  geom : Geometry
  oob : List Byte
  calcEcc : List Byte
  readEcc : List Byte
  deriving DecidableEq, Repr

/-- Host memory: the listed bytes; an unlisted byte is `Memory.blank`. -/
abbrev Memory := List Host.Cell

/-- What an unlisted byte of host memory reads as. DESIGN CHOICE, unsafe: the spec gives no power-on contents (log 9). -/
def Memory.blank : Byte := 0

/-- The canonical form of a memory: addresses strictly rising, and no entry equal to an unlisted byte. -/
abbrev Memory.wf (m : Memory) : Prop :=
  m.Pairwise (fun a b => a.1 < b.1) ∧ ∀ c ∈ m, c.2 ≠ Memory.blank

/-- The state of the NPE and its surroundings. -/
structure State where
  /-- The configuration, fixed for a run: no step writes it (R39; log 1). -/
  cfg : Config
  /-- `phase` (R21). -/
  phase : Phase
  /-- The sequencer's position (R21). -/
  pos : Pos
  /-- The latched descriptor (R27). -/
  cur : Fields
  /-- The poll counter (R27, R115). -/
  polls : Nat
  /-- `result_status`, unset or the byte RESULT.STATUS will carry (R27). -/
  resultStatus : Option Byte
  /-- `identified`, `geom` and the scratch buffers: present exactly when identified (R22 to R25; log 16). -/
  dev : Option Device
  /-- `ce` (R26). -/
  ce : Bool
  /-- The bus cell width (R140, R142; log 15). -/
  cellWidth : Nat
  /-- The local m of IDENTIFY (R140; log 17). -/
  idMaker : Byte
  /-- The local d of IDENTIFY (R140; log 17). -/
  idDevice : Byte
  /-- Register 0 (R30). -/
  desc0 : Word64
  /-- Register 1 (R30). -/
  desc1 : Word64
  /-- Register 2 (R30, R31). -/
  result : Word32
  /-- Register 4 (R30, R35). -/
  idReg : Word32
  /-- Host memory (R60). -/
  mem : Memory
  /-- The ECC Backend's accumulator, hidden from the NPE (R29; log 18). -/
  eccAcc : List Byte
  /-- The model's: the inputs still to come, in the order in which they reach the NPE (log 4, log 5). -/
  inputs : List Input
  /-- The model's: how many free values have been drawn (log 6). -/
  draws : Nat
  /-- The model's: the addresses the host has written while the NPE owned them (R263; log 13). -/
  raced : List Nat
  /-- The model's: the trace of the operation in flight or last completed, oldest event first (R17; log 22). -/
  trace : List Event
  /-- The model's: what the host's last read answered (log 23). -/
  hostSeen : Word64
  deriving DecidableEq, Repr

/-- Why the machine stops. -/
inductive Fault where
  /-- Raised by the sequencer at a page-buffer access whose page buffer is not all admitted: it has no step there (R63).
  Safe: the spec calls the operation stuck. -/
  | bufferNotAdmitted
  /-- Raised by a host memory read or write at an address outside HOST_MEM, which does not exist (R60; log 20).
  Safe: the model stops where the spec gives no access. -/
  | hostAddressAbsent
  deriving DecidableEq, Repr

/-- Why a step has no meaning. -/
inductive Refusal where
  /-- An instruction with no meaning yet. No arm of `exec` answers so. Safe. -/
  | notModelled (mnemonic : String)
  /-- Raised by a host write of DESC0 or DESC1 while BUSY (R33, R262): the spec has the model refuse it. Safe. -/
  | descWriteWhileBusy
  /-- Raised by every step under a configuration that R7, R10 or R160 does not admit: it has no run. Safe. -/
  | configNotAdmitted
  deriving DecidableEq, Repr

/-- The state after reset under a configuration (R250): every item at its reset value. -/
def State.resetWith (c : Config) : State :=
  { cfg := c, phase := .idle, pos := .start, cur := { op := 0, en := false, rsvd := 0, arg := 0, buf := 0 },
    polls := 0, resultStatus := none, dev := none, ce := false, cellWidth := 8, idMaker := 0, idDevice := 0,
    desc0 := 0, desc1 := 0, result := 0, idReg := 0, mem := [], eccAcc := [], inputs := [], draws := 0,
    raced := [], trace := [], hostSeen := 0 }

/-- The state after reset under the default configuration (R250; log 2). -/
def State.reset : State := State.resetWith Config.default

end Sys2Proof.Machine
end

