-- ==== Sys2Proof/Machine/Ops.lean ====
section
/-! DEFINITION. The named operations over host memory, scratch buffers, inputs and registers, and, each once, raising an
error and completing an operation (R222, R223). -/

namespace Sys2Proof.Machine

/-! ### Host memory -/

/-- The byte at address `a`. -/
def memRead : Memory → Nat → Byte
  | [], _ => Memory.blank
  | c :: m, a => if c.1 = a then c.2 else memRead m a

/-- Memory with the byte at `a` not listed. -/
def memErase : Memory → Nat → Memory
  | [], _ => []
  | c :: m, a => if c.1 = a then memErase m a else c :: memErase m a

/-- Memory with the cell `(a, v)` put in its place; `a` is not listed. -/
def memInsert : Memory → Nat → Byte → Memory
  | [], a, v => [(a, v)]
  | c :: m, a, v => if a < c.1 then (a, v) :: c :: m else c :: memInsert m a v

/-- Memory with the byte `v` at `a`; writing what an unlisted byte reads as removes the entry. -/
def memWrite (m : Memory) (a : Nat) (v : Byte) : Memory :=
  if v = Memory.blank then memErase m a else memInsert (memErase m a) a v

/-- `MemRead(a, n)`: n bytes in ascending order (R14). -/
def memReadBytes (m : Memory) (a : Nat) : Nat → List Byte
  | 0 => []
  | n + 1 => memRead m a :: memReadBytes m (a + 1) n

/-- `MemWrite(a, n, v)`: the bytes in ascending order (R14, R65). -/
def memWriteBytes : Memory → Nat → List Byte → Memory
  | m, _, [] => m
  | m, a, b :: bs => memWriteBytes (memWrite m a b) (a + 1) bs

/-- HOST_MEM holds the address, and it is a 64-bit address (R60, R63). -/
def admits (c : Config) (a : Nat) : Bool :=
  decide (a < 2 ^ 64) && c.hostMem.any fun r => decide (r.base ≤ a) && decide (a < r.base + r.size)

/-- HOST_MEM holds the `n` addresses from `a` (R63). -/
def admitsRange (c : Config) (a n : Nat) : Bool :=
  (List.range n).all fun i => admits c (a + i)

/-! ### Scratch buffers -/

/-- A buffer with `x` written from index `i` on, in ascending order. -/
def putSlice : List Byte → Nat → List Byte → List Byte
  | buf, _, [] => buf
  | buf, i, b :: bs => putSlice (buf.set i b) (i + 1) bs

/-- The `n` bytes of a buffer from index `i` on. -/
def getSlice (buf : List Byte) (i n : Nat) : List Byte := (buf.drop i).take n

/-! ### Inputs and free values -/

/-- A host event that waits at the head of the inputs: it lands before the sequencer's next step. A completion wait
(R230) is none: the host only reads ENGSTAT until the operation ends. -/
def hostFirst : List Input → Bool
  | .host .wait :: _ => false
  | .host _ :: _ => true
  | _ => false

/-- The next answer the inputs list, and the inputs without it; a completion wait before it stays. -/
def takeAnswer : List Input → Option (Answer × List Input)
  | .answer a :: rest => some (a, rest)
  | .host .wait :: rest =>
    match takeAnswer rest with
    | some (a, rest') => some (a, .host .wait :: rest')
    | none => none
  | _ => none

/-- A host event is due: the sequencer performs no step before it. -/
def hostDue (s : State) : Bool := hostFirst s.inputs

/-- The answer of the next primitive: the one the inputs list, else the free one (R121; log 4). -/
def answerOf (free : Answer) (s : State) : Answer :=
  match takeAnswer s.inputs with
  | some (a, _) => a
  | none => free

/-- The state once an answer has been received: the inputs move on and the draw is counted. -/
def drawn (s : State) : State :=
  { s with
    inputs := match takeAnswer s.inputs with
      | some (_, rest) => rest
      | none => s.inputs
    draws := s.draws + 1 }

/-- The answer a bus primitive receives, a draw (R15, R121). -/
def busAnswer (s : State) : Answer := answerOf (Config.freeAnswer s.draws) s

/-- The first `n` bytes of an answer; a byte the answer does not give is a free one (log 8). -/
def fitBytes (free : Nat → Byte) : Nat → List Byte → List Byte
  | 0, _ => []
  | n + 1, [] => free n :: fitBytes free n []
  | n + 1, b :: bs => b :: fitBytes free n bs

/-- The `n` bytes that a Backend's answer gives (R15, R16). -/
def answerBytes (s : State) (n : Nat) (x : List Byte) : List Byte := fitBytes (Config.padByte s.draws) n x

/-- `n` scratch bytes of one allocation, drawn from index `j` on (R24, R25, R144). -/
def scratchBytes (draw : Nat) : Nat → Nat → List Byte
  | _, 0 => []
  | j, n + 1 => Config.scratchByte draw j :: scratchBytes draw (j + 1) n

/-- The trace with one more event (R17). -/
def logged (e : Event) (s : State) : State := { s with trace := s.trace ++ [e] }

/-! ### The page buffer -/

/-- The bytes that reach or leave the page buffer from `a` on: a byte the host has raced on is any value (R263; log 13). -/
def blend (raced : List Nat) (draw : Nat) : Nat → List Byte → List Byte
  | _, [] => []
  | a, b :: bs => (if raced.contains a then Config.racedByte draw a else b) :: blend raced draw (a + 1) bs

/-- The sequencer reads `n` page-buffer bytes at `a`. -/
def bufRead (s : State) (a n : Nat) : List Byte := blend s.raced s.draws a (memReadBytes s.mem a n)

/-- The sequencer writes page-buffer bytes at `a`. The draw is counted, so that what a raced byte holds and what a later
racing read of it answers are free values of their own (U16; log 13). -/
def bufWrite (s : State) (a : Nat) (x : List Byte) : State :=
  { s with mem := memWriteBytes s.mem a (blend s.raced s.draws a x), draws := s.draws + 1 }

/-! ### Identified, geometry and registers -/

/-- `identified` (R22). -/
def identified (s : State) : Bool := s.dev.isSome

/-- The geometry, all zero while not identified (R23, R36). -/
def geometry (s : State) : Geometry :=
  match s.dev with
  | some d => d.geom
  | none => Geometry.none

/-- The device with its buffers changed; nothing where there is none. -/
def onDevice (f : Device → Device) (s : State) : State := { s with dev := s.dev.map f }

/-- The field `v` at bits `lo` and above of a 32-bit register (R13, R30). -/
def fieldAt {w : Nat} (lo : Nat) (v : BitVec w) : Word32 := v.setWidth 32 <<< lo

/-- ENGSTAT (R32): BUSY[0], IDENTIFIED[1], CE[2], ECC_PRESENT[3], zero above. -/
def engstat (s : State) : Word32 :=
  fieldAt 0 (BitVec.ofBool (decide (s.phase = .busy))) ||| fieldAt 1 (BitVec.ofBool (identified s)) |||
    fieldAt 2 (BitVec.ofBool s.ce) ||| fieldAt 3 (BitVec.ofBool s.cfg.ecc.isSome)

/-- GEOM_ADDR (R30): COL_CYCLES[3:0], ROW_CYCLES[7:4], CELL_WIDTH[15:8], READ_START[16], zero above. -/
def geomAddr (g : Geometry) : Word32 :=
  fieldAt 0 (BitVec.ofNat 4 g.colCycles) ||| fieldAt 4 (BitVec.ofNat 4 g.rowCycles) |||
    fieldAt 8 (BitVec.ofNat 8 g.cellWidth) ||| fieldAt 16 (BitVec.ofBool g.readStart)

/-- RESULT (R31, R88): ERR[7:0], STATUS[15:8], DETAIL[31:16]. -/
def resultWord (err : Byte) (status : Byte) (detail : BitVec 16) : Word32 :=
  fieldAt 0 err ||| fieldAt 8 status ||| fieldAt 16 detail

/-- ID (R35): MAKER[7:0], DEVICE[15:8], zero above. -/
def idWord (maker device : Byte) : Word32 := fieldAt 0 maker ||| fieldAt 8 device

/-- A host read of register `n` (R30 to R36); a number above 10 reads 0. -/
def readReg (s : State) (n : Nat) : Word64 :=
  match n with
  | 0 => s.desc0
  | 1 => s.desc1
  | 2 => s.result.setWidth 64
  | 3 => (engstat s).setWidth 64
  | 4 => s.idReg.setWidth 64
  | 5 => (BitVec.ofNat 32 (geometry s).pageSize).setWidth 64
  | 6 => (BitVec.ofNat 32 (geometry s).spareSize).setWidth 64
  | 7 => (BitVec.ofNat 32 (geometry s).pagesPerBlock).setWidth 64
  | 8 => (BitVec.ofNat 32 (geometry s).blocksPerLun).setWidth 64
  | 9 => (BitVec.ofNat 32 (geometry s).luns).setWidth 64
  | 10 => (geomAddr (geometry s)).setWidth 64
  | _ => 0

/-- The byte address of register `n` in the platform's map (R30, R66). -/
def regAddress (c : Config) (n : Nat) : Nat := c.regBase + 8 * n

/-- Byte `j` of register `n`, byte 0 holding bits [7:0] (R62). -/
def regByte (s : State) (n j : Nat) : Byte := (readReg s n).extractLsb' (8 * j) 8

/-! ### Errors and completion -/

/-- The error codes (R220). -/
def errCode : Err → Byte
  | .ok => 0
  | .busError => 1
  | .ioError => 2
  | .unsupportedDevice => 3
  | .uncorrectableEcc => 4
  | .notSupported => 5
  | .missingCapability => 6
  | .timeout => 7
  | .eccBackendError => 8

/-- BERR, the error a failed bus primitive raises (R110). -/
def busErr : OpKind → Err
  | .identify => .ioError
  | .other => .busError

/-- Leaving the identified state: geometry undefined, buffers freed, ID cleared (R146, R147). -/
def forgetDevice (s : State) : State := { s with dev := none, idReg := 0 }

/-- The completion step: RESULT written once with all its fields, and `phase <- IDLE` (R31, R34, R222, R223). -/
def completion (e : Err) (info : BitVec 16) (s : State) : State :=
  { s with result := resultWord (errCode e) (s.resultStatus.getD 0) info, phase := .idle, pos := .start }

/-- `complete(OK)` (R223), after a host event that is due. -/
def completeOk (s : State) : State :=
  if hostDue s then { s with pos := .run [] } else completion .ok 0 s

/-- `raise E(info)` (R222): straight to the completion step, after a host event that is due. An error of IDENTIFY other
than NotSupported also rolls back (R146). -/
def raiseErr (k : OpKind) (e : Err) (info : BitVec 16) (s : State) : State :=
  if hostDue s then { s with pos := .fail e info }
  else if k = .identify ∧ e ≠ .notSupported then forgetDevice (completion e info s)
  else completion e info s

end Sys2Proof.Machine
end

