-- ==== Sys2Proof/Machine/Flags.lean ====
section
/-! DEFINITION. The flags the NPE reads, the two bits of the chip status byte (R28, R91), and the poll limit (R115). -/

namespace Sys2Proof.Machine

/-- READY is set in a status byte (R91). -/
def statusReady (c : Config) (s : Byte) : Bool := (s &&& c.bus.readyMask) != 0

/-- FAIL is set in a status byte (R91). -/
def statusFail (c : Config) (s : Byte) : Bool := (s &&& c.bus.failMask) != 0

/-- After `polls` not-ready answers the wait loop has reached its limit (R114, R115, R116). -/
def pollLimitReached (c : Config) (polls : Nat) : Bool :=
  match c.pollLimit with
  | .unbounded => false
  | .bounded m => decide (m ≤ polls)

end Sys2Proof.Machine
end

