-- ==== Sys2Proof/Machine/Operands.lean ====
section
/-! DEFINITION. What the operations compute from their operands: the bytes of the address phase (R90, R113), the erase row
(R200), the stride partition (R12, R162), and the places of a page's bytes and codes (R61, R94). -/

namespace Sys2Proof.Machine

/-- Row cycle `r` of a row index: `(zext_64(idx) >> (8*r)) & 0xFF` (R90). -/
def rowByte (idx : Word32) (r : Nat) : Byte := ((idx.setWidth 64) >>> (8 * r)).setWidth 8

/-- The bytes of the address phase (R90, R113): column cycles, each 0, when asked for, then row cycles, least
significant byte first. -/
def addressBytes (g : Geometry) (idx : Word32) (withCol : Bool) : List Byte :=
  (if withCol then List.replicate g.colCycles 0 else []) ++ (List.range g.rowCycles).map (rowByte idx)

/-- `erase_row(b)` (R200). -/
def eraseRow (c : Config) (g : Geometry) (block : Word32) : Word32 :=
  match c.eraseRow with
  | .blockIndex => block
  | .pageOfBlock => block * BitVec.ofNat 32 g.pagesPerBlock

/-- L, the stride length (R12, R162). -/
def strideLen (c : Config) (g : Geometry) : Nat :=
  match c.ecc with
  | some e => min e.protect g.pageSize
  | none => g.pageSize

/-- N, the stride count (R12, R162). -/
def strideCount (c : Config) (g : Geometry) : Nat :=
  match c.ecc with
  | some _ => g.pageSize / strideLen c g
  | none => 1

/-- ES, the ECC bytes of one stride (R12); 0 without the ECC option. -/
def eccStride (c : Config) : Nat :=
  match c.ecc with
  | some e => e.stride
  | none => 0

/-- ECC_POS (R8); empty without the ECC option. -/
def eccPositions (c : Config) : List Nat :=
  match c.ecc with
  | some e => e.pos
  | none => []

/-- ECC_SIZE (R8); 0 without the ECC option, where no ECC buffer exists (R25). -/
def eccSize (c : Config) : Nat :=
  match c.ecc with
  | some e => e.size
  | none => 0

/-- The host address of stride `k` of the page buffer at `buf`: `buf + k*L`, with no wrap-around (R63, R65). -/
def strideAddr (s : State) (buf : Word64) (k : Nat) : Nat := buf.toNat + k * strideLen s.cfg (geometry s)

/-- The whole page buffer at `buf` is admitted (R63). -/
def pageAdmitted (s : State) (buf : Word64) : Bool := admitsRange s.cfg buf.toNat (geometry s).pageSize

/-- The spare image under ECC: byte `ECC_POS[i]` replaced by code byte i, in ascending i (R93). -/
def placeCodes (oob : List Byte) : List Nat → List Byte → List Byte
  | p :: ps, e :: es => placeCodes (oob.set p e) ps es
  | _, _ => oob

/-- The spare image of a write (R93, R168). -/
def spareImage (c : Config) (g : Geometry) (codes : List Byte) : List Byte :=
  placeCodes (List.replicate g.spareSize blankByte) (eccPositions c) codes

/-- The read-ECC bytes of a spare area: `read_ecc[i] = oob[ECC_POS[i]]` (R94, R167). -/
def extractCodes (c : Config) (oob : List Byte) : List Byte := (eccPositions c).map fun p => oob.getD p blankByte

/-- The first catalog entry with the two ids (R141). -/
def catalogMatch (c : Config) (maker device : Byte) : Option ChipDesc :=
  c.catalog.find? fun e => e.makerId == maker && e.deviceId == device

/-- `capabilities_present()` (R145). -/
def capabilitiesPresent (c : Config) : Bool :=
  c.busCaps.select && c.busCaps.command && c.busCaps.address && c.busCaps.read && c.busCaps.readSingle &&
  c.busCaps.write && c.busCaps.waitReady &&
  match c.ecc with
  | none => true
  | some _ => c.eccCaps.startStride && c.eccCaps.compute && c.eccCaps.correct

end Sys2Proof.Machine
end

