-- ==== Sys2Proof/Machine/Primitives.lean ====
section
/-! DEFINITION. What each step of the sequencer does (R110 to R121, R140 to R147, R161 to R171): one definition per
primitive or internal step. -/

namespace Sys2Proof.Machine

/-- How a step of the sequencer ends. -/
inductive Flow where
  /-- The step is done and the next one follows. -/
  | done (s : State)
  /-- A not-ready answer: the wait loop goes on with these steps (R114, R116). -/
  | again (loop : List Micro) (s : State)
  /-- `raise e(info)` (R222). -/
  | raised (e : Err) (info : BitVec 16) (s : State)
  deriving DecidableEq, Repr

/-- A bus primitive that only answers ok or fail (R110, R111, R112, R113). -/
def busAck (k : OpKind) (ev : Bool → Event) (s : State) : Flow :=
  if (busAnswer s).ok then .done (logged (ev true) (drawn s)) else .raised (busErr k) 0 (logged (ev false) (drawn s))

/-- `do_select(b)` (R111): `ce` follows a successful select and a failed one leaves it. -/
def doSelect (k : OpKind) (b : Bool) (s : State) : Flow :=
  match busAck k (Event.sel b) s with
  | .done s' => .done { s' with ce := b }
  | f => f

/-- `do_cmd(c)` (R112). -/
def doCmd (k : OpKind) (c : Byte) (s : State) : Flow := busAck k (Event.cmd c) s

/-- `BusAddr(a)` (R113, R140). -/
def doAddr (k : OpKind) (a : Byte) (s : State) : Flow := busAck k (Event.addr a) s

/-- `polls <- 0` (R114, R116). -/
def zeroPolls (s : State) : Flow := .done { s with polls := 0 }

/-- A not-ready answer has been counted: `Timeout` at the limit, else the loop goes on (R114, R115, R116). -/
def notReady (loop : List Micro) (s : State) : Flow :=
  let s' := { s with polls := s.polls + 1 }
  if pollLimitReached s'.cfg s'.polls then .raised .timeout 0 s' else .again loop s'

/-- One `BusWaitReady` of `wait_rnb` (R116). -/
def doWaitRnb (s : State) : Flow :=
  let s' := logged (.waitrdy (busAnswer s).ready) (drawn s)
  if (busAnswer s).ready then .done s' else notReady [.waitRnb] s'

/-- The byte of a `BusRead1`, or its failure (R15). -/
def read1Byte (s : State) : Option Byte :=
  if (busAnswer s).ok then (answerBytes s 1 (busAnswer s).bytes).head? else none

/-- `status_check(b)` (R119). -/
def statusCheck (b : Byte) (s : State) : Flow :=
  let s' := { s with resultStatus := some b }
  if statusFail s.cfg b then .raised .ioError 0 s' else .done s'

/-- The `BusRead1` of `status_poll` and the test of its byte (R114); with `check`, `status_check` of a ready byte (R119). -/
def doStatusRead (k : OpKind) (check : Bool) (s : State) : Flow :=
  let s' := logged (.read1 (read1Byte s)) (drawn s)
  match read1Byte s with
  | none => .raised (busErr k) 0 s'
  | some b =>
    if statusReady s.cfg b then (if check then statusCheck b s' else .done s')
    else notReady [.delay, .cmd s.cfg.bus.cmdStatus, .statusRead check] s'

/-- `Delay(POLL_INTERVAL)` (R118): an event, and no change of state. -/
def doDelay (s : State) : Flow := .done (logged .delay s)

/-- `(a1, m) <- BusRead1()` of IDENTIFY (R140). -/
def doReadMaker (k : OpKind) (s : State) : Flow :=
  let s' := logged (.read1 (read1Byte s)) (drawn s)
  match read1Byte s with
  | none => .raised (busErr k) 0 s'
  | some b => .done { s' with idMaker := b }

/-- `(a2, d) <- BusRead1()` of IDENTIFY (R140). -/
def doReadDevice (k : OpKind) (s : State) : Flow :=
  let s' := logged (.read1 (read1Byte s)) (drawn s)
  match read1Byte s with
  | none => .raised (busErr k) 0 s'
  | some b => .done { s' with idDevice := b }

/-- The device of a matched entry, its scratch buffers freshly drawn (R143, R144). -/
def loadedDevice (c : Config) (draw : Nat) (e : ChipDesc) : Device :=
  { geom := e.geom
    oob := scratchBytes draw 0 e.geom.spareSize
    calcEcc := scratchBytes draw e.geom.spareSize (eccSize c)
    readEcc := scratchBytes draw (e.geom.spareSize + eccSize c) (eccSize c) }

/-- `catalog_match` and `load_geometry` (R140, R141, R143, R144). -/
def doLoadGeometry (s : State) : Flow :=
  match catalogMatch s.cfg s.idMaker s.idDevice with
  | none => .raised .unsupportedDevice 0 s
  | some e =>
    .done { s with dev := some (loadedDevice s.cfg s.draws e), idReg := idWord e.makerId e.deviceId, draws := s.draws + 1 }

/-- `EccStart` (R163): the backend's accumulator starts anew (R29). What it holds after a failed `EccStart` is unknown
(R225, U10): DESIGN CHOICE, it stays, and nothing reads it before the next successful `EccStart` (log 18). -/
def doEccStart (s : State) : Flow :=
  if (busAnswer s).ok then .done (logged (.eccstart true) { drawn s with eccAcc := [] })
  else .raised .eccBackendError 0 (logged (.eccstart false) (drawn s))

/-- The bytes of a stride pass the ECC Backend, present only under the ECC option (R5, R29). -/
def accumulate (x : List Byte) (s : State) : State :=
  if s.cfg.ecc.isSome then { s with eccAcc := s.eccAcc ++ x } else s

/-- `BusRead(L)` of stride `i`, landing in the page buffer in the same step (R161, R163, R65). A failed one leaves the
backend's accumulator as it was: DESIGN CHOICE (R225, U10; log 18). -/
def doStrideRead (k : OpKind) (buf : Word64) (i : Nat) (s : State) : Flow :=
  let len := strideLen s.cfg (geometry s)
  if (busAnswer s).ok then
    let x := answerBytes s len (busAnswer s).bytes
    .done (accumulate x (bufWrite (logged (.read len (some x)) (drawn s)) (strideAddr s buf i) x))
  else .raised (busErr k) 0 (logged (.read len none) (drawn s))

/-- `BusWrite` of stride `i`, its bytes read from the page buffer in the same step (R161, R163, R65). A failed one leaves
the backend's accumulator as it was: DESIGN CHOICE (R225, U10; log 18). -/
def doStrideWrite (k : OpKind) (buf : Word64) (i : Nat) (s : State) : Flow :=
  let x := bufRead s (strideAddr s buf i) (strideLen s.cfg (geometry s))
  if (busAnswer s).ok then .done (accumulate x (logged (.write x true) (drawn s)))
  else .raised (busErr k) 0 (logged (.write x false) (drawn s))

/-- The answer of `EccCompute`: listed, or ECC_FN of the accumulated bytes (R11, R16; log 18). -/
def computeAnswer (s : State) : Answer :=
  answerOf { Config.freeAnswer s.draws with bytes := Config.eccFn s.eccAcc } s

/-- `EccCompute` of stride `i` and the placement of its code (R161, R164). What the backend's accumulator holds afterwards,
and after a failed one (R225, U10), the spec leaves open: DESIGN CHOICE, it stays as it was, and nothing reads it before
the next successful `EccStart` (log 18). -/
def doEccCompute (i : Nat) (s : State) : Flow :=
  let es := eccStride s.cfg
  if (computeAnswer s).ok then
    let x := answerBytes s es (computeAnswer s).bytes
    .done (onDevice (fun d => { d with calcEcc := putSlice d.calcEcc (i * es) x }) (logged (.ecccompute (some x)) (drawn s)))
  else .raised .eccBackendError 0 (logged (.ecccompute none) (drawn s))

/-- `BusRead(S)` into the OOB buffer (R161, R166). -/
def doSpareRead (k : OpKind) (s : State) : Flow :=
  let len := (geometry s).spareSize
  if (busAnswer s).ok then
    let x := answerBytes s len (busAnswer s).bytes
    .done (onDevice (fun d => { d with oob := x }) (logged (.read len (some x)) (drawn s)))
  else .raised (busErr k) 0 (logged (.read len none) (drawn s))

/-- The read-ECC extraction, one internal step (R167). -/
def doExtractEcc (s : State) : Flow :=
  .done (onDevice (fun d => { d with readEcc := extractCodes s.cfg d.oob }) s)

/-- The spare image is built in the OOB buffer (R168). -/
def doBuildSpare (s : State) : Flow :=
  .done (onDevice (fun d => { d with oob := spareImage s.cfg d.geom d.calcEcc }) s)

/-- The bytes of the OOB buffer; none where there is no device. -/
def oobBytes (s : State) : List Byte :=
  match s.dev with
  | some d => d.oob
  | none => []

/-- `BusWrite(oob)` (R168). -/
def doSpareWrite (k : OpKind) (s : State) : Flow := busAck k (Event.write (oobBytes s)) s

/-- The code of stride `i` in the computed-ECC buffer (R94). -/
def calcCode (s : State) (i : Nat) : List Byte :=
  match s.dev with
  | some d => getSlice d.calcEcc (i * eccStride s.cfg) (eccStride s.cfg)
  | none => []

/-- The code of stride `i` in the read-ECC buffer (R94). -/
def readCode (s : State) (i : Nat) : List Byte :=
  match s.dev with
  | some d => getSlice d.readEcc (i * eccStride s.cfg) (eccStride s.cfg)
  | none => []

/-- The answer of `EccCorrect`: listed, or CORRECT_FN of its arguments (R11, R16; log 18). It has no failure. -/
def correctAnswer (s : State) (buf : Word64) (i : Nat) : Answer :=
  let r := Config.correctFn (bufRead s (strideAddr s buf i) (strideLen s.cfg (geometry s))) (calcCode s i) (readCode s i)
  answerOf { Config.freeAnswer s.draws with code := r.1, bytes := r.2 } s

/-- `EccCorrect` of stride `i` (R161, R169): code 0 writes the returned bytes back in the same step, any other code is
`UncorrectableEcc` and writes nothing (R170, R171). The backend's accumulator stays as it was: DESIGN CHOICE (log 18). -/
def doEccCorrect (buf : Word64) (i : Nat) (s : State) : Flow :=
  let a := correctAnswer s buf i
  let s' := logged (.ecccorrect i a.code) (drawn s)
  if a.code = 0 then
    .done (bufWrite s' (strideAddr s buf i) (answerBytes s (strideLen s.cfg (geometry s)) a.bytes))
  else .raised .uncorrectableEcc (a.code.setWidth 16) s'

/-- The releases of DETACH (R147). -/
def doRelease (s : State) : Flow := .done (forgetDevice s)

/-- One step of the sequencer inside an operation of kind `k`. -/
def perform (k : OpKind) (m : Micro) (s : State) : Flow :=
  match m with
  | .select b => doSelect k b s
  | .cmd c => doCmd k c s
  | .addr a => doAddr k a s
  | .zeroPolls => zeroPolls s
  | .waitRnb => doWaitRnb s
  | .statusRead check => doStatusRead k check s
  | .delay => doDelay s
  | .readMaker => doReadMaker k s
  | .readDevice => doReadDevice k s
  | .loadGeometry => doLoadGeometry s
  | .eccStart => doEccStart s
  | .strideRead buf i => doStrideRead k buf i s
  | .strideWrite buf i => doStrideWrite k buf i s
  | .eccCompute i => doEccCompute i s
  | .spareRead => doSpareRead k s
  | .extractEcc => doExtractEcc s
  | .buildSpare => doBuildSpare s
  | .spareWrite => doSpareWrite k s
  | .eccCorrect buf i => doEccCorrect buf i s
  | .release => doRelease s

end Sys2Proof.Machine
end

