-- ==== Sys2Proof/Machine/Sequencer.lean ====
section
/-! DEFINITION. The sequencer (R21, R68, R69): the steps of an operation one after the other, in the order of its sequence,
until the operation ends, a wait loop meets a not-ready answer, a host event is due, or a page-buffer access is not
admitted; and the step sequences the operations share (R113, R114, R116, R161). -/

namespace Sys2Proof.Machine

/-- The sequencer has no step here: a page-buffer access of a page buffer that is not all admitted (R63). -/
def blocked (s : State) (m : Micro) : Bool :=
  match m with
  | .strideRead buf _ => !pageAdmitted s buf
  | .strideWrite buf _ => !pageAdmitted s buf
  | .eccCorrect buf _ => !pageAdmitted s buf
  | _ => false

/-- Perform the steps in order, then the completion step (R68, R69, R223). The run stops before a step when a host event is
due or the step is blocked, and after a not-ready answer (log 3). -/
def runSteps (k : OpKind) : List Micro → State → State
  | [], s => completeOk s
  | m :: ms, s =>
    if hostDue s || blocked s m then { s with pos := .run (m :: ms) }
    else
      match perform k m s with
      | .done s' => runSteps k ms s'
      | .again loop s' => { s' with pos := .run (loop ++ ms) }
      | .raised e info s' => raiseErr k e info s'

/-- The first of the steps is a page-buffer access that is not admitted, and no host event is due: stuck (R63). -/
def stuckAt (ms : List Micro) (s : State) : Bool :=
  match ms with
  | [] => false
  | m :: _ => !hostDue s && blocked s m

/-- Run an operation of kind `k`: from its start with `begin`, or on from where its sequence stands (R21). -/
def runOperation (k : OpKind) (start : State → State) (s : State) : Host.Outcome State Fault Refusal :=
  match s.pos with
  | .start => .next (start s)
  | .run ms => if stuckAt ms s then .fault .bufferNotAdmitted else .next (runSteps k ms s)
  | .fail e info => .next (raiseErr k e info s)

/-- `address_phase(idx, with_col)` (R113). -/
def addressPhase (g : Geometry) (idx : Word32) (withCol : Bool) : List Micro := (addressBytes g idx withCol).map Micro.addr

/-- `status_poll()`, with `status_check` of its byte where `check` says so (R114, R119). -/
def statusPoll (c : Config) (check : Bool) : List Micro := [.zeroPolls, .cmd c.bus.cmdStatus, .statusRead check]

/-- `wait_rnb()` (R116). -/
def waitRnb : List Micro := [.zeroPolls, .waitRnb]

end Sys2Proof.Machine
end

