-- ==== Sys2Proof/Machine/PageTransfer.lean ====
section
/-! DEFINITION. The page transfer engine (R161): the steps of `transfer_page`. -/

namespace Sys2Proof.Machine

/-- The steps of stride `k` of a read (R163, R164); without ECC the transfer alone (R165). -/
def strideReadSteps (c : Config) (buf : Word64) (k : Nat) : List Micro :=
  match c.ecc with
  | some _ => [.eccStart, .strideRead buf k, .eccCompute k]
  | none => [.strideRead buf k]

/-- The steps of stride `k` of a write (R163, R164); without ECC the transfer alone (R165). -/
def strideWriteSteps (c : Config) (buf : Word64) (k : Nat) : List Micro :=
  match c.ecc with
  | some _ => [.eccStart, .strideWrite buf k, .eccCompute k]
  | none => [.strideWrite buf k]

/-- The read-ECC extraction and the correction pass (R167, R169); nothing without ECC (R165). -/
def correctionSteps (c : Config) (g : Geometry) (buf : Word64) : List Micro :=
  match c.ecc with
  | some _ => .extractEcc :: (List.range (strideCount c g)).map (Micro.eccCorrect buf)
  | none => []

/-- `transfer_page(true, buf)` (R161): the strides in order, the spare read, the extraction, the correction pass. -/
def transferRead (c : Config) (g : Geometry) (buf : Word64) : List Micro :=
  (List.range (strideCount c g)).flatMap (strideReadSteps c buf) ++ [.spareRead] ++ correctionSteps c g buf

/-- `transfer_page(false, buf)` (R161): the strides in order, the spare image, the spare write. -/
def transferWrite (c : Config) (g : Geometry) (buf : Word64) : List Micro :=
  (List.range (strideCount c g)).flatMap (strideWriteSteps c buf) ++ [.buildSpare, .spareWrite]

end Sys2Proof.Machine
end

