-- ==== Sys2Proof/Machine/BlockOps.lean ====
section
/-! DEFINITION. The meanings of SELECT (R191), PAGE_READ (R193), PAGE_PROGRAM (R196) and BLOCK_ERASE (R199). -/

namespace Sys2Proof.Machine

/-- SELECT (R191): allowed whether or not the instance is identified. -/
def execSelect (en : Bool) (s : State) : Host.Outcome State Fault Refusal :=
  runOperation .other (runSteps .other [.select en]) s

/-- A page or block operation from its start: NotSupported where the instance is not identified (R192), else its steps. -/
def startIdentified (steps : Geometry → List Micro) (s : State) : State :=
  match s.dev with
  | none => raiseErr .other .notSupported 0 s
  | some d => runSteps .other (steps d.geom) s

/-- The read-start command, where the chip's geometry asks for it (R193, R194). -/
def readStartSteps (c : Config) (g : Geometry) : List Micro := if g.readStart then [.cmd c.bus.cmdReadStart] else []

/-- The steps of PAGE_READ (R193). -/
def pageReadSteps (c : Config) (page : Word32) (buf : Word64) (g : Geometry) : List Micro :=
  [.select true, .cmd c.bus.cmdRead] ++ addressPhase g page true ++ readStartSteps c g ++ waitRnb ++ transferRead c g buf

/-- PAGE_READ (R193). -/
def execPageRead (page : Word32) (buf : Word64) (s : State) : Host.Outcome State Fault Refusal :=
  runOperation .other (startIdentified (pageReadSteps s.cfg page buf)) s

/-- The steps of PAGE_PROGRAM (R196). -/
def pageProgramSteps (c : Config) (page : Word32) (buf : Word64) (g : Geometry) : List Micro :=
  [.select true, .cmd c.bus.cmdProgram] ++ addressPhase g page true ++ transferWrite c g buf ++
    [.cmd c.bus.cmdProgramEnd] ++ statusPoll c true

/-- PAGE_PROGRAM (R196). -/
def execPageProgram (page : Word32) (buf : Word64) (s : State) : Host.Outcome State Fault Refusal :=
  runOperation .other (startIdentified (pageProgramSteps s.cfg page buf)) s

/-- The steps of BLOCK_ERASE (R199): no column cycle, and the row of R200. -/
def blockEraseSteps (c : Config) (block : Word32) (g : Geometry) : List Micro :=
  [.select true, .cmd c.bus.cmdErase] ++ addressPhase g (eraseRow c g block) false ++
    [.cmd c.bus.cmdEraseConfirm] ++ statusPoll c true

/-- BLOCK_ERASE (R199). -/
def execBlockErase (block : Word32) (s : State) : Host.Outcome State Fault Refusal :=
  runOperation .other (startIdentified (blockEraseSteps s.cfg block)) s

end Sys2Proof.Machine
end

