-- ==== Sys2Proof/Machine/Identification.lean ====
section
/-! DEFINITION. The meanings of IDENTIFY (R140 to R146, R148 to R150) and DETACH (R147). -/

namespace Sys2Proof.Machine

/-- The wait after the reset command (R120, R140): the FAIL bit of a status byte is not tested (R149). -/
def resetWaitSteps (c : Config) : List Micro :=
  match c.resetWait with
  | .rnb => waitRnb
  | .status => statusPoll c false

/-- The select primitive of a bracketed IDENTIFY; none by default (R140, D13). -/
def bracketSelect (c : Config) (b : Bool) : List Micro :=
  match c.idSelect with
  | .none => []
  | .bracket => [.select b]

/-- The steps of IDENTIFY (R140). -/
def identifySteps (c : Config) : List Micro :=
  bracketSelect c true ++ [.cmd c.bus.cmdReset] ++ resetWaitSteps c ++
    [.cmd c.bus.cmdReadId, .addr c.bus.idAddr, .readMaker, .readDevice] ++ bracketSelect c false ++ [.loadGeometry]

/-- IDENTIFY from its start: the two checks that come before any primitive (R145, R148, R224), then the cell width (R142)
and the sequence. -/
def startIdentify (s : State) : State :=
  if identified s then raiseErr .identify .notSupported 0 s
  else if capabilitiesPresent s.cfg then runSteps .identify (identifySteps s.cfg) { s with cellWidth := 8 }
  else raiseErr .identify .missingCapability 0 s

/-- IDENTIFY (R140). -/
def execIdentify (s : State) : Host.Outcome State Fault Refusal := runOperation .identify startIdentify s

/-- DETACH (R147): it never fails and performs no primitive. -/
def execDetach (s : State) : Host.Outcome State Fault Refusal := runOperation .other (runSteps .other [.release]) s

end Sys2Proof.Machine
end

