-- ==== Sys2Proof/Machine/Dispatch.lean ====
section
/-! DEFINITION. `exec`: one arm per operation of the opcode map (R83), each a direct call of its meaning. -/

namespace Sys2Proof.Machine

def exec (i : Instr) (s : State) : Host.Outcome State Fault Refusal :=
  match i with
  | .identify => Sys2Proof.Machine.execIdentify s
  | .select en => Sys2Proof.Machine.execSelect en s
  | .pageRead page buf => Sys2Proof.Machine.execPageRead page buf s
  | .pageProgram page buf => Sys2Proof.Machine.execPageProgram page buf s
  | .blockErase block => Sys2Proof.Machine.execBlockErase block s
  | .detach => Sys2Proof.Machine.execDetach s

end Sys2Proof.Machine
end

