-- ==== Sys2Proof/Machine/Host.lean ====
section
/-! DEFINITION. The host's side of the machine: issuing a descriptor (R33), register reads and writes (R30 to R36), host
memory and races on the page buffer (R68, R263), the completion wait (R230), and the reset event (R250). -/

namespace Sys2Proof.Machine

/-- The host writes DESC0 while IDLE: the operation is issued, in one step (R33). The trace and the raced addresses are
the new operation's (log 13, log 22). -/
def issue (v : Word64) (s : State) : State :=
  { s with desc0 := v, cur := fieldsOfWords v s.desc1, resultStatus := none, phase := .busy, pos := .start
           raced := [], trace := [] }

/-- A host write to a register (R30, R33, R36): DESC0 issues, DESC1 stores, both only while IDLE (R262); every other
register ignores it. -/
def writeReg (n : Nat) (v : Word64) (s : State) : Host.Outcome State Fault Refusal :=
  match n with
  | 0 => if s.phase = .idle then .next (issue v s) else .refused .descWriteWhileBusy
  | 1 => if s.phase = .idle then .next { s with desc1 := v } else .refused .descWriteWhileBusy
  | _ => .next s

/-- The operation in flight is a page transfer: a valid PAGE_READ or PAGE_PROGRAM (R61). -/
def transferring (s : State) : Bool :=
  match s.phase, decodeFields s.cur with
  | .busy, .valid (.pageRead _ _) => true
  | .busy, .valid (.pageProgram _ _) => true
  | _, _ => false

/-- The host byte at `a` belongs to the NPE: it lies in the page buffer of the operation in flight (R263). -/
def owned (s : State) (a : Nat) : Bool :=
  transferring s && decide (s.cur.buf.toNat ≤ a) && decide (a < s.cur.buf.toNat + (geometry s).pageSize)

/-- A host write of memory. A byte the NPE owns becomes any value, then and at each later access of the operation (R68, R263). -/
def hostWriteMem (a : Nat) (v : Byte) (s : State) : Host.Outcome State Fault Refusal :=
  if admits s.cfg a then
    if owned s a then
      .next { s with mem := memWrite s.mem a (Config.racedByte s.draws a), raced := a :: s.raced, draws := s.draws + 1 }
    else .next { s with mem := memWrite s.mem a v }
  else .fault .hostAddressAbsent

/-- A host read of memory: the byte, or any value for a byte the NPE owns (R68, R263). -/
def hostReadMem (a : Nat) (s : State) : Host.Outcome State Fault Refusal :=
  if admits s.cfg a then
    if owned s a then
      .next { s with hostSeen := (Config.racedByte s.draws a).setWidth 64, draws := s.draws + 1 }
    else .next { s with hostSeen := (memRead s.mem a).setWidth 64 }
  else .fault .hostAddressAbsent

/-- The reset event (R250): every item of the NPE's state at its reset value, an operation in flight abandoned. What is not
the NPE's stays: the configuration, host memory, the ECC Backend, the inputs and what has been observed (log 21). -/
def resetNpe (s : State) : State :=
  { State.resetWith s.cfg with
    mem := s.mem, eccAcc := s.eccAcc, inputs := s.inputs, draws := s.draws, trace := s.trace, hostSeen := s.hostSeen }

/-- One act of the host or the platform. A completion wait ends when the host reads BUSY = 0 (R230); while BUSY the
machine lets the sequencer move first, so the wait meets an IDLE NPE. -/
def hostStep (e : HostEvent) (s : State) : Host.Outcome State Fault Refusal :=
  match e with
  | .writeReg n v => writeReg n v s
  | .readReg n => .next { s with hostSeen := readReg s n }
  | .readRegByte n j => .next { s with hostSeen := (regByte s n j).setWidth 64 }
  | .writeMem a v => hostWriteMem a v s
  | .readMem a => hostReadMem a s
  | .wait => .next { s with hostSeen := (engstat s).setWidth 64 }
  | .reset => .next (resetNpe s)

end Sys2Proof.Machine
end

