-- ==== Sys2Proof/Machine/Advance.lean ====
section
/-! DEFINITION. One step of the whole machine, and the placing of a descriptor as the next operation. -/

namespace Sys2Proof.Machine

/-- The operation in flight moves: the decoded operation's meaning, or, for an invalid descriptor, NotSupported at once
with no other effect (R84). -/
def runCurrent (s : State) : Host.Outcome State Fault Refusal :=
  match decodeFields s.cur with
  | .valid i => exec i s
  | .invalid _ => .next (raiseErr .other .notSupported 0 s)

/-- One step. A configuration that is not admitted has no run (R160, R227). A host event that is due lands; else, while
BUSY, the operation in flight moves; else a completion wait of the host ends; else the NPE stays IDLE (R237, R251). -/
def advance (s : State) : Host.Outcome State Fault Refusal :=
  if s.cfg.wf then
    match s.inputs, s.phase with
    | .host .wait :: _, .busy => runCurrent s
    | .host e :: rest, _ => hostStep e { s with inputs := rest }
    | _, .busy => runCurrent s
    | _, .idle => .next s
  else .refused .configNotAdmitted

/-- The inputs without the host events that would land first. -/
def dropDueHost : List Input → List Input
  | .host .wait :: rest => .host .wait :: rest
  | .host _ :: rest => dropDueHost rest
  | inputs => inputs

/-- The state in which the descriptor of DESC0 and DESC1 has just been issued (R33), and no host event comes before its
first step. -/
def placeDescriptor (desc0 desc1 : Word64) (s : State) : State :=
  issue desc0 { s with desc1 := desc1, inputs := dropDueHost s.inputs }

/-- `placeDescriptor` of a descriptor given as a number: bit 0 is DESC0[0], bit 64 is DESC1[0]; the bits from `nbits` on
are 0. -/
def placeWord (s : State) (nbits w : Nat) : State :=
  placeDescriptor (BitVec.ofNat 64 (w % 2 ^ nbits)) (BitVec.ofNat 64 (w % 2 ^ nbits / 2 ^ 64)) s

end Sys2Proof.Machine
end

