-- ==== Sys2Proof/Machine/Assembler.lean ====
section
/-! DEFINITION. The assembler text of host operations (R95, R96): a line of text to the host events it stands for. -/

namespace Sys2Proof.Machine

/-- What a line of text stands for: an operation, or the pseudo-instruction WAIT (R96). -/
inductive AsmLine where
  | op (i : Instr)
  | wait
  deriving DecidableEq, Repr

/-- A character that separates the parts of a line and is no part itself. -/
def isBlankChar (c : Char) : Bool := c == ' ' || c == '\t'

/-- A character that is a part of a line by itself: the comma and the brackets of an address (R95). -/
def isMarkChar (c : Char) : Bool := c == ',' || c == '[' || c == ']'

/-- A pending part, if it holds anything. -/
def closePart (part : List Char) : List (List Char) := if part.isEmpty then [] else [part]

/-- The parts of a line; `;` starts a comment (R95). -/
def splitParts : List Char → List Char → List (List Char)
  | part, [] => closePart part
  | part, c :: cs =>
    if c == ';' then closePart part
    else if isBlankChar c then closePart part ++ splitParts [] cs
    else if isMarkChar c then closePart part ++ [c] :: splitParts [] cs
    else splitParts (part ++ [c]) cs

/-- The digits of R95's decimal numbers, each at the place of its value. -/
def decimalDigits : List Char := "0123456789".toList

/-- The digits of R95's hexadecimal numbers from ten on, in the two cases they are written in. -/
def hexLetters : List (List Char) := ["abcdef".toList, "ABCDEF".toList]

/-- The place of a character in a list of digits. -/
def placeOf (c : Char) (digits : List Char) : Option Nat := digits.findIdx? (· == c)

/-- The value of a decimal digit. -/
def decimalDigit (c : Char) : Option Nat := placeOf c decimalDigits

/-- The value of a hexadecimal digit: a decimal one, or a letter of either case. -/
def hexDigit (c : Char) : Option Nat := hexLetters.findSome? fun letters => placeOf c (decimalDigits ++ letters)

/-- A digit after the number read so far. -/
def appendDigit (base : Nat) (digit : Char → Option Nat) (number : Option Nat) (c : Char) : Option Nat :=
  number.bind fun n => (digit c).map fun d => base * n + d

/-- The number that digits write, most significant first; `none` where a character is no digit. -/
def numberIn (base : Nat) (digit : Char → Option Nat) (ds : List Char) : Option Nat :=
  ds.foldl (appendDigit base digit) (some 0)

/-- A number, decimal or `0x`-prefixed hexadecimal (R95); neither form is without digits. -/
def numberOf : List Char → Option Nat
  | [] => none
  | ['0', 'x'] => none
  | '0' :: 'x' :: ds => numberIn 16 hexDigit ds
  | ds => numberIn 10 decimalDigit ds

/-- An operand below `2 ^ w` (R95). -/
def operandOf (w : Nat) (part : List Char) : Option (BitVec w) :=
  match numberOf part with
  | some n => if n < 2 ^ w then some (BitVec.ofNat w n) else none
  | none => none

/-- `SELECT <en>`, en being 0 or 1 (R95). -/
def asmSelect (en : List Char) : Option AsmLine :=
  match operandOf 1 en with
  | some e => some (.op (.select (e == 1)))
  | none => none

/-- `BLOCK_ERASE <block>` (R95). -/
def asmErase (block : List Char) : Option AsmLine :=
  match operandOf 32 block with
  | some b => some (.op (.blockErase b))
  | none => none

/-- `PAGE_READ <page>, [<buf>]` and `PAGE_PROGRAM <page>, [<buf>]` (R95). -/
def asmPage (mnemonic page buf : List Char) : Option AsmLine :=
  match operandOf 32 page, operandOf 64 buf with
  | some p, some b =>
    if mnemonic = "PAGE_READ".toList then some (.op (.pageRead p b))
    else if mnemonic = "PAGE_PROGRAM".toList then some (.op (.pageProgram p b))
    else none
  | _, _ => none

/-- A line with no operand (R95, R96). -/
def asmPlain (mnemonic : List Char) : Option AsmLine :=
  if mnemonic = "IDENTIFY".toList then some (.op .identify)
  else if mnemonic = "DETACH".toList then some (.op .detach)
  else if mnemonic = "DESELECT".toList then some (.op (.select false))
  else if mnemonic = "WAIT".toList then some .wait
  else none

/-- The parts of a line to what it stands for; `none` where the line has none of the forms of R95 and R96. -/
def parseParts : List (List Char) → Option AsmLine
  | [m] => asmPlain m
  | [m, x] => if m = "SELECT".toList then asmSelect x else if m = "BLOCK_ERASE".toList then asmErase x else none
  | [m, page, [','], ['['], buf, [']']] => asmPage m page buf
  | _ => none

/-- A line of text to what it stands for (R95, R96). -/
def parseLine (line : String) : Option AsmLine := parseParts (splitParts [] line.toList)

/-- What the host does for a line: DESC1 first and then DESC0 (R33, R95), or the completion wait (R96). -/
def assemble : AsmLine → List HostEvent
  | .op i => [.writeReg 1 (encodeDesc1 i), .writeReg 0 (encodeDesc0 i)]
  | .wait => [.wait]

end Sys2Proof.Machine
end

