-- ==== Sys2Proof/Machine/HostDuties.lean ====
section
/-! DEFINITION. The host's arithmetic and its multi-page sequence (R12, R265, R266): the host's duties as functions of what
it knows. The NPE performs none of this (R202); no step of the machine calls it (log 26). -/

namespace Sys2Proof.Machine

/-- BLOCK_BYTES (R12). -/
def blockBytes (g : Geometry) : Nat := g.pageSize * g.pagesPerBlock

/-- MEDIA_BYTES (R12), spare bytes not counted. -/
def mediaBytes (g : Geometry) : Nat := g.luns * g.blocksPerLun * g.pagesPerBlock * g.pageSize

/-- The page index of a byte offset (R266). -/
def pageIndex (g : Geometry) (offset : Nat) : Nat := offset / g.pageSize

/-- The block index of a byte offset (R266). -/
def blockIndex (g : Geometry) (offset : Nat) : Nat := offset / blockBytes g

/-- An erase request the host may turn into operations; it rejects any other and issues none (R266). -/
def eraseAligned (g : Geometry) (offset count : Nat) : Bool :=
  offset % blockBytes g == 0 && count % blockBytes g == 0

/-- What a multi-page or multi-block request does (R265). -/
inductive RequestKind where
  | read
  | program
  | erase
  deriving DecidableEq, Repr

/-- Where the host's sequence stands (R265). -/
inductive RequestStage where
  | selecting
  | moving
  | releasing
  | finished
  deriving DecidableEq, Repr

/-- A request in progress (R265): the next index, the buffer of the next page, the items asked for and completed, and the
first error, 0 where there is none. -/
structure Request where
  kind : RequestKind
  stage : RequestStage
  index : Nat
  buf : Nat
  count : Nat
  completed : Nat
  error : Byte
  deriving DecidableEq, Repr

/-- The first operation of a request is SELECT 1 (R265). -/
def requestStart (kind : RequestKind) (index buf count : Nat) : Request × Instr :=
  ({ kind := kind, stage := .selecting, index := index, buf := buf, count := count, completed := 0, error := 0 },
   .select true)

/-- The operation of the request's next page or block (R265). DESIGN CHOICE (log 32): an index of 2^32 or above gives ARG
its low 32 bits, and a buffer address of 2^64 or above gives BUF its low 64 bits. -/
def requestItem (q : Request) : Instr :=
  match q.kind with
  | .read => .pageRead (BitVec.ofNat 32 q.index) (BitVec.ofNat 64 q.buf)
  | .program => .pageProgram (BitVec.ofNat 32 q.index) (BitVec.ofNat 64 q.buf)
  | .erase => .blockErase (BitVec.ofNat 32 q.index)

/-- The next item of a request, or SELECT 0 when every item is done (R265). -/
def requestNext (q : Request) : Request × Option Instr :=
  if q.completed < q.count then ({ q with stage := .moving }, some (requestItem q))
  else ({ q with stage := .releasing }, some (.select false))

/-- The request moves on at a completion with error code `err` (R265): at the first error it stops and releases select,
once; a completed item moves the index and the buffer on. DESIGN CHOICE (log 31): the code of the closing SELECT 0, which
the host gets back (R267), does not become the request's error. -/
def requestAdvance (g : Geometry) (q : Request) (err : Byte) : Request × Option Instr :=
  match q.stage with
  | .selecting =>
    if err = 0 then requestNext q else ({ q with stage := .releasing, error := err }, some (.select false))
  | .moving =>
    if err = 0 then
      requestNext { q with completed := q.completed + 1, index := q.index + 1, buf := q.buf + g.pageSize }
    else ({ q with stage := .releasing, error := err }, some (.select false))
  | .releasing => ({ q with stage := .finished }, none)
  | .finished => (q, none)

/-- The residual byte count of a request (R265). -/
def residual (g : Geometry) (q : Request) : Nat :=
  match q.kind with
  | .read => (q.count - q.completed) * g.pageSize
  | .program => (q.count - q.completed) * g.pageSize
  | .erase => (q.count - q.completed) * blockBytes g

end Sys2Proof.Machine
end

