-- ==== Sys2Proof/Safety.lean ====
section
/-! DEFINITION. What counts as a legal state, in the terms claims use: the invariants of the NPE, and the answers claims
suppose. -/

namespace Sys2Proof

open Sys2Proof.Machine

/-- The kind of an operation (R110, R146). -/
def kindOf : Instr → OpKind
  | .identify => .identify
  | .select _ | .pageRead _ _ | .pageProgram _ _ | .blockErase _ | .detach => .other

/-- The sequence of an operation in a state (R140, R147, R191, R193, R196, R199); none for a page or block operation of an
unidentified instance (R192). -/
def stepsOf (i : Instr) (s : State) : Option (List Micro) :=
  match i with
  | .identify => some (identifySteps s.cfg)
  | .select en => some [.select en]
  | .pageRead page buf => s.dev.map fun d => pageReadSteps s.cfg page buf d.geom
  | .pageProgram page buf => s.dev.map fun d => pageProgramSteps s.cfg page buf d.geom
  | .blockErase block => s.dev.map fun d => blockEraseSteps s.cfg block d.geom
  | .detach => some [.release]

/-- Every step an operation can still have to do: those of its sequence, and the delay of a status poll (R21, R114). -/
def ownSteps (i : Instr) (s : State) : List Micro := (stepsOf i s).getD [] ++ [.delay]

/-- The position stands inside the operation's own sequence (R21). -/
def AtOwnSteps (i : Instr) (s : State) : Prop := ∀ ms, s.pos = .run ms → ∀ m ∈ ms, m ∈ ownSteps i s

/-- The invariant of the position: while BUSY it stands inside the sequence of the operation in flight (R21). -/
def SequenceInv (s : State) : Prop :=
  s.phase = .busy → ∀ i, decodeFields s.cur = .valid i → AtOwnSteps i s

/-- The state an issue leaves, as far as the operation reads it (R33). -/
structure JustIssued (s : State) : Prop where
  phase : s.phase = .busy
  pos : s.pos = .start
  resultStatus : s.resultStatus = none
  raced : s.raced = []

/-- The steps that are bus primitives with a failure answer (R15, R110). -/
def isBusPrimitive : Micro → Bool
  | .select _ | .cmd _ | .addr _ | .statusRead _ | .readMaker | .readDevice | .strideRead _ _ | .strideWrite _ _
  | .spareRead | .spareWrite => true
  | .zeroPolls | .waitRnb | .delay | .loadGeometry | .eccStart | .eccCompute _ | .extractEcc | .buildSpare
  | .eccCorrect _ _ | .release => false

/-- The steps that are ECC primitives with a failure answer (R16, R110). -/
def isEccPrimitive : Micro → Bool
  | .eccStart | .eccCompute _ => true
  | .select _ | .cmd _ | .addr _ | .statusRead _ | .readMaker | .readDevice | .strideRead _ _ | .strideWrite _ _
  | .spareRead | .spareWrite | .zeroPolls | .waitRnb | .delay | .loadGeometry | .extractEcc | .buildSpare
  | .eccCorrect _ _ | .release => false

/-- The event that a step's failed primitive leaves in the trace (R17, R110), with the arguments it was issued with; none
for a step that has no failure answer. -/
def failedEvents (s : State) : Micro → List Event
  | .select b => [.sel b false]
  | .cmd c => [.cmd c false]
  | .addr a => [.addr a false]
  | .statusRead _ | .readMaker | .readDevice => [.read1 none]
  | .strideRead _ _ => [.read (strideLen s.cfg (geometry s)) none]
  | .strideWrite buf k => [.write (bufRead s (strideAddr s buf k) (strideLen s.cfg (geometry s))) false]
  | .spareRead => [.read (geometry s).spareSize none]
  | .spareWrite => [.write (oobBytes s) false]
  | .eccStart => [.eccstart false]
  | .eccCompute _ => [.ecccompute none]
  | .zeroPolls | .waitRnb | .delay | .loadGeometry | .extractEcc | .buildSpare | .eccCorrect _ _ | .release => []

/-- The state with another latched ARG and BUF. -/
def withArgBuf (arg : Word32) (buf : Word64) (s : State) : State := { s with cur := { s.cur with arg := arg, buf := buf } }

/-- The fields that only issue, IDENTIFY, DETACH, reset and the host write. -/
structure RegistersKept (s t : State) : Prop where
  cfg : t.cfg = s.cfg
  cur : t.cur = s.cur
  desc0 : t.desc0 = s.desc0
  desc1 : t.desc1 = s.desc1
  idReg : t.idReg = s.idReg
  cellWidth : t.cellWidth = s.cellWidth
  idMaker : t.idMaker = s.idMaker
  idDevice : t.idDevice = s.idDevice
  raced : t.raced = s.raced
  hostSeen : t.hostSeen = s.hostSeen

/-- The identified device is a catalog entry's: its geometry, and the ids in the ID register (R22, R23, R35, R143). -/
def DeviceFromCatalog (s : State) : Prop :=
  ∀ d, s.dev = some d → ∃ e ∈ s.cfg.catalog, d.geom = e.geom ∧ s.idReg = idWord e.makerId e.deviceId

/-- The scratch buffers have the sizes of R24 and R25. -/
def BuffersSized (s : State) : Prop :=
  ∀ d, s.dev = some d →
    d.oob.length = d.geom.spareSize ∧ d.calcEcc.length = eccSize s.cfg ∧ d.readEcc.length = eccSize s.cfg

/-- The invariant of the machine's data: memory is canonical; an unidentified instance has ID 0 (R35, R146, R147); an
identified one has a catalog entry's geometry and ids and buffers of the right sizes; and while BUSY the latched
descriptor is the one DESC0 and DESC1 still hold (R27, R33). -/
structure MachineInv (s : State) : Prop where
  memory : Memory.wf s.mem
  unidentifiedId : s.dev = none → s.idReg = 0
  device : DeviceFromCatalog s
  buffers : BuffersSized s
  latched : s.phase = .busy → s.cur = fieldsOfWords s.desc0 s.desc1

/-- RESULT.ERR (R31). -/
def resultErr (w : Word32) : Byte := w.extractLsb' 0 8
/-- RESULT.STATUS (R31). -/
def resultStatusOf (w : Word32) : Byte := w.extractLsb' 8 8
/-- RESULT.DETAIL (R31). -/
def resultDetail (w : Word32) : BitVec 16 := w.extractLsb' 16 16

/-- A RESULT the NPE may report: a listed code (R88, R220), DETAIL only with UncorrectableEcc, STATUS only with OK or
IoError (R31, R221). -/
def ResultLegal (w : Word32) : Prop :=
  (resultErr w).toNat ≤ 8 ∧
  (resultDetail w ≠ 0 → resultErr w = errCode .uncorrectableEcc) ∧
  (resultStatusOf w ≠ 0 → resultErr w = errCode .ok ∨ resultErr w = errCode .ioError)

/-- No step follows the status check of a sequence (R119, R196, R199). -/
def statusLast : List Micro → Prop
  | [] => True
  | m :: ms => (m = .statusRead true → ms = []) ∧ statusLast ms

/-- What the position says of the status byte recorded so far, and of an error on its way to RESULT (R27, R119, R222). -/
def PosLegal (s : State) : Prop :=
  match s.pos with
  | .start => s.resultStatus = none
  | .run ms => statusLast ms ∧ (s.resultStatus ≠ none → ms = [])
  | .fail e info => (info ≠ 0 → e = .uncorrectableEcc) ∧ (s.resultStatus ≠ none → e = .ioError)

/-- The invariant of RESULT: it is legal, and the operation in flight will leave it so (R31, R88, R221); an invalid
descriptor in flight has recorded no status byte (R84). -/
structure ResultInv (s : State) : Prop where
  result : ResultLegal s.result
  position : s.phase = .busy → PosLegal s
  invalid : s.phase = .busy → (∀ i, decodeFields s.cur ≠ .valid i) → s.resultStatus = none

/-- The inputs hold these answers next, and no host event lands right after them. -/
def Answered (s : State) (answers : List Answer) (rest : List Input) : Prop :=
  s.inputs = answers.map Input.answer ++ rest ∧ hostFirst rest = false

/-- The events of an address phase whose cycles all succeed (R17, R113). -/
def addressEvents (g : Geometry) (idx : Word32) (withCol : Bool) : List Event :=
  (addressBytes g idx withCol).map fun a => .addr a true

/-- An answer that a primitive succeeded, a ready line and a correction code of 0, with these bytes. -/
def goodAnswer (x : List Byte) : Answer := { ok := true, ready := true, bytes := x, code := 0 }

/-- The law of R11 on a correction function: matching codes correct nothing and change nothing. A claim that uses it names it. -/
def CorrectLaw (correct : List Byte → List Byte → List Byte → Word32 × List Byte) : Prop :=
  ∀ d c, correct d c c = (0, d)

end Sys2Proof
end

