-- ==== Sys2Proof/Certificates/Slice0/Obligations.lean ====
section
/-! DEFINITION. The statements about the NPE, each from the numbered rules of the spec. -/

open Sys2Proof Sys2Proof.Machine

/-! ### Reset -/

/-- R250: the reset event puts every item at its reset value, abandons the operation in flight and performs no primitive. -/
def Obligations.ResetEventRestoresEveryItem : Prop :=
  ∀ (s : State) (rest : List Input), s.cfg.wf = true → s.inputs = .host .reset :: rest →
    ∃ t, step s = .next t ∧ t.phase = .idle ∧ t.pos = .start ∧ t.dev = none ∧ t.ce = false ∧
      t.cur = { op := 0, en := false, rsvd := 0, arg := 0, buf := 0 } ∧ t.polls = 0 ∧ t.resultStatus = none ∧
      t.desc0 = 0 ∧ t.desc1 = 0 ∧ t.result = 0 ∧ t.idReg = 0 ∧ (∀ n, 5 ≤ n → n ≤ 10 → readReg t n = 0) ∧
      engstat t = (if s.cfg.ecc.isSome then 8 else 0) ∧ t.trace = s.trace

/-- R250: under every configuration the state after reset is idle and unidentified, ENGSTAT reads `ECC_PRESENT << 3`
and every other register reads 0. -/
def Obligations.ResetStateReadsZero : Prop :=
  ∀ c : Config, (State.resetWith c).phase = .idle ∧ identified (State.resetWith c) = false ∧
    (State.resetWith c).ce = false ∧
    (∀ n, n ≠ 3 → readReg (State.resetWith c) n = 0) ∧
    readReg (State.resetWith c) 3 = (if c.ecc.isSome then 8 else 0)

/-! ### Registers, issue and completion -/

/-- R33: a DESC0 write while IDLE issues, a DESC1 write while IDLE stores, and either while BUSY is refused; both read back
the last value written, since no step but such a write and the reset event changes them. -/
def Obligations.DescriptorWritesIssueOrStore : Prop :=
  (∀ (s : State) (v : Word64) (rest : List Input), s.cfg.wf = true →
    (s.inputs = .host (.writeReg 0 v) :: rest → s.phase = .idle →
      ∃ t, step s = .next t ∧ t.desc0 = v ∧ readReg t 0 = v ∧ t.desc1 = s.desc1 ∧
        t.cur.op = v.extractLsb' 0 4 ∧ t.cur.en = v.getLsbD 4 ∧ t.cur.rsvd = v.extractLsb' 5 27 ∧
        t.cur.arg = v.extractLsb' 32 32 ∧ t.cur.buf = s.desc1 ∧
        t.resultStatus = none ∧ t.phase = .busy ∧ t.pos = .start ∧ t.result = s.result) ∧
    (s.inputs = .host (.writeReg 1 v) :: rest → s.phase = .idle →
      ∃ t, step s = .next t ∧ t = { s with inputs := rest, desc1 := v } ∧ readReg t 1 = v) ∧
    (s.inputs = .host (.writeReg 0 v) :: rest → s.phase = .busy → step s = .refused .descWriteWhileBusy) ∧
    (s.inputs = .host (.writeReg 1 v) :: rest → s.phase = .busy → step s = .refused .descWriteWhileBusy)) ∧
  ∀ s t : State, step s = .next t →
    (t.desc0 ≠ s.desc0 → ∃ e rest, s.inputs = .host e :: rest ∧ ((∃ v, e = .writeReg 0 v) ∨ e = .reset)) ∧
    (t.desc1 ≠ s.desc1 → ∃ e rest, s.inputs = .host e :: rest ∧ ((∃ v, e = .writeReg 1 v) ∨ e = .reset)) ∧
    readReg s 0 = s.desc0 ∧ readReg s 1 = s.desc1

/-- R32: ENGSTAT shows the internal state at every read, and a write to it is ignored. -/
def Obligations.EngstatShowsInternalState : Prop :=
  ∀ s : State,
    readReg s 3 = (engstat s).setWidth 64 ∧
    (engstat s).getLsbD 0 = decide (s.phase = .busy) ∧ (engstat s).getLsbD 1 = identified s ∧
    (engstat s).getLsbD 2 = s.ce ∧ (engstat s).getLsbD 3 = s.cfg.ecc.isSome ∧
    (∀ i, 4 ≤ i → (engstat s).getLsbD i = false) ∧
    ∀ (v : Word64) (rest : List Input), s.cfg.wf = true → s.inputs = .host (.writeReg 3 v) :: rest →
      step s = .next { s with inputs := rest }

/-- R36, R31, R35: the geometry registers read the identified chip's geometry and 0 while unidentified; RESULT and ID read
what they hold; read-only registers ignore writes; a number above 10 reads 0 and ignores writes. A size of 32 bits or
fewer is read as it is. -/
def Obligations.GeometryRegistersReadGeometry : Prop :=
  ∀ s : State,
    readReg s 2 = s.result.setWidth 64 ∧ readReg s 4 = s.idReg.setWidth 64 ∧
    (∀ d, s.dev = some d → d.geom.wf = true →
      (d.geom.pageSize < 2 ^ 32 → (readReg s 5).toNat = d.geom.pageSize) ∧
      (d.geom.spareSize < 2 ^ 32 → (readReg s 6).toNat = d.geom.spareSize) ∧
      (d.geom.pagesPerBlock < 2 ^ 32 → (readReg s 7).toNat = d.geom.pagesPerBlock) ∧
      (d.geom.blocksPerLun < 2 ^ 32 → (readReg s 8).toNat = d.geom.blocksPerLun) ∧
      (d.geom.luns < 2 ^ 32 → (readReg s 9).toNat = d.geom.luns) ∧
      ((readReg s 10).extractLsb' 0 4).toNat = d.geom.colCycles ∧
      ((readReg s 10).extractLsb' 4 4).toNat = d.geom.rowCycles ∧
      ((readReg s 10).extractLsb' 8 8).toNat = d.geom.cellWidth ∧
      (readReg s 10).getLsbD 16 = d.geom.readStart ∧
      ∀ i, 17 ≤ i → (readReg s 10).getLsbD i = false) ∧
    (s.dev = none → ∀ n, 5 ≤ n → n ≤ 10 → readReg s n = 0) ∧
    (∀ n, 10 < n → readReg s n = 0) ∧
    ∀ (n : Nat) (v : Word64) (rest : List Input), s.cfg.wf = true → 2 ≤ n →
      s.inputs = .host (.writeReg n v) :: rest → step s = .next { s with inputs := rest }

/-- R31, R34 and R250: RESULT changes only in the reset event and in a completion, a step from BUSY to IDLE. -/
def Obligations.ResultChangesOnlyAtCompletion : Prop :=
  ∀ s t : State, step s = .next t → t.result ≠ s.result →
    (∃ rest, s.inputs = .host .reset :: rest) ∨ (s.phase = .busy ∧ t.phase = .idle)

/-- R220: the error codes are those of the table, all different. -/
def Obligations.ErrorCodesAreListed : Prop :=
  errCode .ok = 0 ∧ errCode .busError = 1 ∧ errCode .ioError = 2 ∧ errCode .unsupportedDevice = 3 ∧
  errCode .uncorrectableEcc = 4 ∧ errCode .notSupported = 5 ∧ errCode .missingCapability = 6 ∧
  errCode .timeout = 7 ∧ errCode .eccBackendError = 8

/-- R222: a raised error goes straight to the completion step, which writes RESULT and sets IDLE, rolls an IDENTIFY back, and
restores nothing else. -/
def Obligations.RaisedErrorCompletes : Prop :=
  ∀ (i : Instr) (s : State) (e : Err) (info : BitVec 16), s.pos = .fail e info → hostDue s = false →
    ∃ t, exec i s = .next t ∧
      t = { s with
        phase := .idle, pos := .start, result := t.result
        dev := if i = .identify ∧ e ≠ .notSupported then none else s.dev
        idReg := if i = .identify ∧ e ≠ .notSupported then 0 else s.idReg } ∧
      resultErr t.result = errCode e ∧ resultStatusOf t.result = s.resultStatus.getD 0 ∧ resultDetail t.result = info

/-- R223: the completion step of a successful operation. -/
def Obligations.SuccessfulOperationCompletes : Prop :=
  ∀ (i : Instr) (s : State), s.pos = .run [] → hostDue s = false →
    ∃ t, exec i s = .next t ∧ t = { s with phase := .idle, pos := .start, result := t.result } ∧
      resultErr t.result = 0 ∧ resultStatusOf t.result = s.resultStatus.getD 0 ∧ resultDetail t.result = 0

/-- R229, R237 and R251: an idle NPE with no host event stays exactly as it is. -/
def Obligations.IdleNpeStays : Prop :=
  ∀ s : State, s.cfg.wf = true → s.phase = .idle → (∀ e rest, s.inputs ≠ .host e :: rest) → step s = .next s

/-- The constraints of R7 on the geometry of a catalog entry, written out. -/
def Sys2Proof.GeometryFits (g : Geometry) : Prop :=
  1 ≤ g.pageSize ∧ 1 ≤ g.spareSize ∧ 1 ≤ g.pagesPerBlock ∧ 1 ≤ g.blocksPerLun ∧ 1 ≤ g.luns ∧ g.colCycles ≤ 8 ∧
  1 ≤ g.rowCycles ∧ g.rowCycles ≤ 8 ∧ g.cellWidth = 8

/-- The seven conditions of R160 on an ECC descriptor against one geometry, written out. -/
def Sys2Proof.EccFits (x : EccDesc) (g : Geometry) : Prop :=
  1 ≤ x.protect ∧ x.protect ≤ g.pageSize ∧ g.pageSize % min x.protect g.pageSize = 0 ∧ 1 ≤ x.stride ∧
  g.pageSize / min x.protect g.pageSize * x.stride ≤ x.size ∧ x.pos.length = x.size ∧ ∀ p ∈ x.pos, p < g.spareSize

/-- R160: a configuration whose ECC descriptor fails any of the seven conditions for any catalog entry has no run. -/
def Obligations.UnfitEccDescriptorIsRefused : Prop :=
  ∀ (s : State) (x : EccDesc) (e : ChipDesc), s.cfg.ecc = some x → e ∈ s.cfg.catalog → ¬ EccFits x e.geom →
    step s = .refused .configNotAdmitted

/-- R7 and R227: a configuration with a catalog entry outside the constraints has no run; and a configuration with neither
an unfit entry, nor an unfit ECC descriptor, nor an empty poll bound (the model's reading of R10, log 11) is not refused
for its configuration. -/
def Obligations.UnfitCatalogIsRefused : Prop :=
  (∀ (s : State) (e : ChipDesc), e ∈ s.cfg.catalog → ¬ GeometryFits e.geom → step s = .refused .configNotAdmitted) ∧
  ∀ s : State, s.cfg.pollLimit ≠ .bounded 0 → (∀ e ∈ s.cfg.catalog, GeometryFits e.geom) →
    (∀ x, s.cfg.ecc = some x → ∀ e ∈ s.cfg.catalog, EccFits x e.geom) → step s ≠ .refused .configNotAdmitted

/-! ### Decoding -/

/-- While BUSY with a valid descriptor and no host event due, a step is `exec` of the decoded operation. -/
def Obligations.StepRunsDecodedInstruction : Prop :=
  ∀ (s : State) (i : Instr), s.cfg.wf = true → s.phase = .busy → hostDue s = false →
    decodeFields s.cur = .valid i → step s = exec i s

/-- R84: a descriptor that is not valid completes at once with NotSupported and changes nothing but RESULT and `phase`. -/
def Obligations.InvalidDescriptorCompletesNotSupported : Prop :=
  (∀ f : Fields, (∃ i, decodeFields f = .valid i) ↔
    ((1 ≤ f.op.toNat ∧ f.op.toNat ≤ 6) ∧ f.rsvd = 0 ∧ (f.op ≠ 2 → f.en = false))) ∧
  ∀ s : State, s.cfg.wf = true → JustIssued s → hostDue s = false → (∀ i, decodeFields s.cur ≠ .valid i) →
    ∃ t, step s = .next t ∧ t = { s with phase := .idle, result := t.result } ∧
      resultErr t.result = errCode .notSupported ∧ resultStatusOf t.result = 0 ∧ resultDetail t.result = 0

/-- R80 to R83, R95: encoding an operation and decoding the descriptor gives the operation back, every operand at every value. -/
def Obligations.DecodeOfEncodeIsIdentity : Prop :=
  ∀ i : Instr, decode (encode i).1 (encode i).2 = .valid i

/-- The other direction: a valid descriptor agrees with the encoding of what it decodes to in all that is decoded. -/
def Obligations.EncodeOfDecodeKeepsDecodedBits : Prop :=
  ∀ (d0 d1 : Word64) (i : Instr), decode d0 d1 = .valid i →
    (encodeDesc0 i).extractLsb' 0 32 = d0.extractLsb' 0 32 ∧
    (∀ page buf, i = .pageRead page buf ∨ i = .pageProgram page buf → page = d0.extractLsb' 32 32 ∧ buf = d1) ∧
    (∀ block, i = .blockErase block → block = d0.extractLsb' 32 32)

/-- R85: ARG is ignored by IDENTIFY, SELECT and DETACH, and BUF by every operation but the page transfers: decoding does not
look at them, the decoded operation gives the same next state whatever the latched fields hold, and only a page transfer
takes host bytes from the host. -/
def Obligations.IgnoredFieldsDoNotMatter : Prop :=
  (∀ (i : Instr) (s t : State) (arg : Word32) (buf : Word64), exec i s = .next t →
    exec i (withArgBuf arg buf s) = .next (withArgBuf arg buf t)) ∧
  (∀ (s : State) (a : Nat), (∀ page buf, decodeFields s.cur ≠ .valid (.pageRead page buf)) →
    (∀ page buf, decodeFields s.cur ≠ .valid (.pageProgram page buf)) → owned s a = false) ∧
  ∀ (f : Fields) (arg : Word32) (buf : Word64),
    (decodeFields f = .valid .identify → decodeFields { f with arg := arg, buf := buf } = .valid .identify) ∧
    (∀ en, decodeFields f = .valid (.select en) → decodeFields { f with arg := arg, buf := buf } = .valid (.select en)) ∧
    (decodeFields f = .valid .detach → decodeFields { f with arg := arg, buf := buf } = .valid .detach) ∧
    (∀ block, decodeFields f = .valid (.blockErase block) → decodeFields { f with buf := buf } = .valid (.blockErase block))

/-- The descriptor words of 95_test_vectors.md decode to the operations they stand for. -/
def Obligations.VectorWordsDecode : Prop :=
  decode 0x0000000000000001 0 = .valid .identify ∧
  decode 0x0000000000000012 0 = .valid (.select true) ∧
  decode 0x0000000000000002 0 = .valid (.select false) ∧
  decode 0x0000000500000003 0x2000 = .valid (.pageRead 5 0x2000) ∧
  decode 0x0000000500000004 0x1000 = .valid (.pageProgram 5 0x1000) ∧
  decode 0x0000000300000005 0 = .valid (.blockErase 3) ∧
  decode 0xFFFFFFFF00000006 0 = .valid .detach ∧
  decode 0x0000000000000021 0 = .invalid .reservedBits ∧
  decode 0x0000000500000014 0 = .invalid .enable ∧
  decode 0x000000000000000F 0 = .invalid .reservedOp

/-- R33, R95: the host events a line assembles to issue, from an idle NPE, a descriptor that decodes to the line's operation. -/
def Obligations.AssembledLineIssuesItsOperation : Prop :=
  ∀ (i : Instr) (s : State) (rest : List Input), s.cfg.wf = true → s.phase = .idle →
    s.inputs = (assemble (.op i)).map Input.host ++ rest →
    ∃ t, Host.Core.run core 2 s = .next t ∧ t.phase = .busy ∧ t.pos = .start ∧ decodeFields t.cur = .valid i ∧
      t.inputs = rest

/-! ### Primitives and waits -/

/-- R110: a failed bus primitive raises IoError inside IDENTIFY and BusError elsewhere, a failed ECC primitive raises
EccBackendError; the failed primitive is the last event, no further primitive is performed and nothing is retried. -/
def Obligations.FailedPrimitiveEndsTheOperation : Prop :=
  ∀ (i : Instr) (s : State) (m : Micro) (ms : List Micro) (a : Answer) (rest : List Input),
    s.pos = .run (m :: ms) → blocked s m = false → s.inputs = .answer a :: rest → hostFirst rest = false →
    a.ok = false →
    (isBusPrimitive m = true → ∃ t, exec i s = .next t ∧ t.phase = .idle ∧
      resultErr t.result = (if i = .identify then errCode .ioError else errCode .busError) ∧
      resultDetail t.result = 0 ∧ t.inputs = rest ∧ t.mem = s.mem ∧ t.ce = s.ce ∧ t.trace = s.trace ++ failedEvents s m) ∧
    (isEccPrimitive m = true → ∃ t, exec i s = .next t ∧ t.phase = .idle ∧
      resultErr t.result = errCode .eccBackendError ∧
      resultDetail t.result = 0 ∧ t.inputs = rest ∧ t.mem = s.mem ∧ t.ce = s.ce ∧ t.trace = s.trace ++ failedEvents s m)

/-- R90: the bytes of the address phase: zero column cycles first, then the row index least significant byte first, one
byte a row cycle; row cycles from the fourth on are 0, and index bits no row cycle carries are not sent. -/
def Obligations.AddressPhaseBytes : Prop :=
  ∀ (g : Geometry) (idx : Word32) (withCol : Bool),
    (addressBytes g idx withCol).length = (if withCol then g.colCycles else 0) + g.rowCycles ∧
    (∀ c, withCol = true → c < g.colCycles → (addressBytes g idx withCol)[c]? = some 0) ∧
    (∀ r, r < g.rowCycles → (addressBytes g idx withCol)[(if withCol then g.colCycles else 0) + r]? =
      some (BitVec.ofNat 8 (idx.toNat / 256 ^ r))) ∧
    (∀ r, 4 ≤ r → r < g.rowCycles → (addressBytes g idx withCol)[(if withCol then g.colCycles else 0) + r]? = some 0) ∧
    ∀ idx' : Word32, idx.toNat % 256 ^ g.rowCycles = idx'.toNat % 256 ^ g.rowCycles →
      addressBytes g idx withCol = addressBytes g idx' withCol

/-- R114 and R116: below the poll limit a not-ready answer leaves the operation BUSY in its wait loop, one answer counted:
the status poll goes on with a delay and the status command, the ready-wait with the next `BusWaitReady`. -/
def Obligations.NotReadyAnswerKeepsWaiting : Prop :=
  ∀ (i : Instr) (s : State) (ms : List Micro) (a : Answer) (rest : List Input),
    s.inputs = .answer a :: rest → pollLimitReached s.cfg (s.polls + 1) = false →
    (∀ (check : Bool) (b : Byte), s.pos = .run (.statusRead check :: ms) → a.ok = true → a.bytes.head? = some b →
      statusReady s.cfg b = false →
      exec i s = .next { s with
        pos := .run (.delay :: .cmd s.cfg.bus.cmdStatus :: .statusRead check :: ms), polls := s.polls + 1
        inputs := rest, draws := s.draws + 1, trace := s.trace ++ [.read1 (some b)] }) ∧
    (s.pos = .run (.waitRnb :: ms) → a.ready = false →
      exec i s = .next { s with
        polls := s.polls + 1, inputs := rest, draws := s.draws + 1, trace := s.trace ++ [.waitrdy false] })

/-- R115: with `bounded(m)` the m-th not-ready answer of a wait loop raises Timeout before any further event. -/
def Obligations.PollLimitRaisesTimeout : Prop :=
  ∀ (i : Instr) (s : State) (n : Nat) (ms : List Micro) (a : Answer) (rest : List Input),
    s.cfg.pollLimit = .bounded n → n ≤ s.polls + 1 → s.inputs = .answer a :: rest → hostFirst rest = false →
    (∀ (check : Bool) (b : Byte), s.pos = .run (.statusRead check :: ms) → a.ok = true → a.bytes.head? = some b →
      statusReady s.cfg b = false →
      ∃ t, exec i s = .next t ∧ t.phase = .idle ∧ resultErr t.result = errCode .timeout ∧ t.inputs = rest ∧
        t.trace = s.trace ++ [.read1 (some b)]) ∧
    (s.pos = .run (.waitRnb :: ms) → a.ready = false →
      ∃ t, exec i s = .next t ∧ t.phase = .idle ∧ resultErr t.result = errCode .timeout ∧ t.inputs = rest ∧
        t.trace = s.trace ++ [.waitrdy false])

/-- R117: under the unbounded limit, n not-ready answers leave the operation BUSY at the same wait after n steps, for every n. -/
def Obligations.UnboundedWaitHangs : Prop :=
  ∀ (i : Instr) (s : State) (ms : List Micro) (rest : List Input),
    s.cfg.wf = true → s.cfg.pollLimit = .unbounded → s.phase = .busy → decodeFields s.cur = .valid i →
    (∀ answers : List Answer, s.pos = .run (.waitRnb :: ms) → (∀ a ∈ answers, a.ready = false) →
      s.inputs = answers.map Input.answer ++ rest →
      ∃ t, Host.Core.run core answers.length s = .next t ∧ t.phase = .busy ∧ t.pos = s.pos ∧ t.result = s.result ∧
        t.inputs = rest) ∧
    (∀ (check : Bool) (answers : List (Answer × Answer)),
      s.pos = .run (.delay :: .cmd s.cfg.bus.cmdStatus :: .statusRead check :: ms) →
      (∀ p ∈ answers, p.1.ok = true ∧ p.2.ok = true ∧ ∃ b, p.2.bytes.head? = some b ∧ statusReady s.cfg b = false) →
      s.inputs = answers.flatMap (fun p => [Input.answer p.1, Input.answer p.2]) ++ rest →
      ∃ t, Host.Core.run core answers.length s = .next t ∧ t.phase = .busy ∧ t.pos = s.pos ∧ t.result = s.result ∧
        t.inputs = rest)

/-- R119: the ready byte of PAGE_PROGRAM and BLOCK_ERASE is RESULT.STATUS, and its FAIL bit is IoError. -/
def Obligations.StatusCheckDecidesTheResult : Prop :=
  ∀ (i : Instr) (s : State) (a : Answer) (b : Byte) (rest : List Input),
    s.pos = .run [.statusRead true] → Answered s [a] rest → a.ok = true → a.bytes.head? = some b →
    statusReady s.cfg b = true → i ≠ .identify →
    exec i s = .next { s with
      phase := .idle, pos := .start, resultStatus := some b
      result := resultWord (if statusFail s.cfg b then errCode .ioError else errCode .ok) b 0
      inputs := rest, draws := s.draws + 1, trace := s.trace ++ [.read1 (some b)] }

/-- R63: a page buffer with an address outside HOST_MEM or past 2^64 - 1 leaves the sequencer no step at the stride-0
access: the operation is stuck there. -/
def Obligations.UnadmittedPageBufferIsStuck : Prop :=
  (∀ (s : State) (buf : Word64), pageAdmitted s buf = true ↔
    ∀ i < (geometry s).pageSize, buf.toNat + i < 2 ^ 64 ∧
      ∃ r ∈ s.cfg.hostMem, r.base ≤ buf.toNat + i ∧ buf.toNat + i < r.base + r.size) ∧
  ∀ (i : Instr) (s : State) (buf : Word64) (ms : List Micro),
    pageAdmitted s buf = false → hostDue s = false →
    s.pos = .run (.strideRead buf 0 :: ms) ∨ s.pos = .run (.strideWrite buf 0 :: ms) →
    exec i s = .fault .bufferNotAdmitted

/-- R63: a PAGE_PROGRAM whose page buffer is not admitted runs up to the stride-0 access and stops there, BUSY, RESULT and
host memory as they were, no bus primitive after. -/
def Obligations.ProgramStopsBeforeUnadmittedBuffer : Prop :=
  ∀ (s : State) (page : Word32) (buf : Word64) (d : Device) (acks : List Answer) (rest : List Input),
    JustIssued s → s.dev = some d → pageAdmitted s buf = false → 1 ≤ strideCount s.cfg d.geom →
    Answered s acks rest → (∀ a ∈ acks, a.ok = true) →
    acks.length = 2 + d.geom.colCycles + d.geom.rowCycles + (if s.cfg.ecc.isSome then 1 else 0) →
    ∃ t ms, exec (.pageProgram page buf) s = .next t ∧ t.phase = .busy ∧ t.pos = .run (.strideWrite buf 0 :: ms) ∧
      t.result = s.result ∧ t.mem = s.mem ∧ t.inputs = rest ∧
      t.trace = s.trace ++ [.sel true true, .cmd s.cfg.bus.cmdProgram true] ++ addressEvents d.geom page true ++
        (if s.cfg.ecc.isSome then [.eccstart true] else [])

/-! ### IDENTIFY and DETACH -/

/-- R140, R141, R143, R149: IDENTIFY with good answers loads the first matching entry, under every RESET_WAIT_MODE and
ID_SELECT; the FAIL bit of the status byte `ready` plays no part. -/
def Obligations.IdentifyLoadsMatchedChip : Prop :=
  ∀ (s : State) (ready maker device : Byte) (e : ChipDesc) (rest : List Input),
    JustIssued s → s.dev = none → capabilitiesPresent s.cfg = true → statusReady s.cfg ready = true →
    catalogMatch s.cfg maker device = some e →
    Answered s (List.replicate ((if s.cfg.idSelect = .bracket then 1 else 0) + 1 +
        (if s.cfg.resetWait = .status then 2 else 1) + 2) (goodAnswer [ready]) ++
      [goodAnswer [maker], goodAnswer [device]] ++
      List.replicate (if s.cfg.idSelect = .bracket then 1 else 0) (goodAnswer [])) rest →
    ∃ t, exec .identify s = .next t ∧ t.phase = .idle ∧ t.result = 0 ∧ identified t = true ∧ geometry t = e.geom ∧
      t.idReg = idWord maker device ∧ t.idReg.extractLsb' 0 8 = maker ∧ t.idReg.extractLsb' 8 8 = device ∧
      t.idReg.extractLsb' 16 16 = 0 ∧ BuffersSized t ∧ t.cellWidth = 8 ∧ t.inputs = rest ∧ t.mem = s.mem ∧
      t.ce = (if s.cfg.idSelect = .bracket then false else s.ce) ∧
      (s.cfg.idSelect = .none → s.cfg.resetWait = .rnb →
        t.trace = s.trace ++ [.cmd s.cfg.bus.cmdReset true, .waitrdy true, .cmd s.cfg.bus.cmdReadId true,
          .addr s.cfg.bus.idAddr true, .read1 (some maker), .read1 (some device)])

/-- R141: no matching entry is UnsupportedDevice, and the instance stays unidentified with ID 0 (R146). -/
def Obligations.IdentifyWithoutMatchFails : Prop :=
  ∀ (s : State) (maker device : Byte) (rest : List Input),
    JustIssued s → s.dev = none → capabilitiesPresent s.cfg = true → s.cfg.idSelect = .none → s.cfg.resetWait = .rnb →
    (∀ e ∈ s.cfg.catalog, ¬ (e.makerId = maker ∧ e.deviceId = device)) →
    Answered s (List.replicate 4 (goodAnswer []) ++ [goodAnswer [maker], goodAnswer [device]]) rest →
    ∃ t, exec .identify s = .next t ∧ t.phase = .idle ∧
      t.result = resultWord (errCode .unsupportedDevice) 0 0 ∧ t.dev = none ∧ t.idReg = 0 ∧ t.ce = s.ce

/-- R148 and R145: IDENTIFY of an identified instance is NotSupported and rolls nothing back; without every bus capability,
and under ECC every ECC capability, it is MissingCapability, before any primitive. -/
def Obligations.IdentifyIsTurnedAway : Prop :=
  (∀ c : Config, capabilitiesPresent c = true ↔
    (c.busCaps.select ∧ c.busCaps.command ∧ c.busCaps.address ∧ c.busCaps.read ∧ c.busCaps.readSingle ∧
      c.busCaps.write ∧ c.busCaps.waitReady) ∧
    (c.ecc ≠ none → c.eccCaps.startStride ∧ c.eccCaps.compute ∧ c.eccCaps.correct)) ∧
  ∀ s : State, JustIssued s → hostDue s = false →
    (identified s = true → exec .identify s = .next { s with
      phase := .idle, result := resultWord (errCode .notSupported) 0 0 }) ∧
    (identified s = false → capabilitiesPresent s.cfg = false → exec .identify s = .next { s with
      phase := .idle, result := resultWord (errCode .missingCapability) 0 0, dev := none, idReg := 0 })

/-- R141: the scan takes the first entry with the two ids, and answers none exactly where no entry has them. -/
def Obligations.CatalogScanTakesFirstMatch : Prop :=
  ∀ (c : Config) (maker device : Byte),
    (∀ e, catalogMatch c maker device = some e ↔
      ∃ before after, c.catalog = before ++ e :: after ∧ e.makerId = maker ∧ e.deviceId = device ∧
        ∀ e' ∈ before, ¬ (e'.makerId = maker ∧ e'.deviceId = device)) ∧
    (catalogMatch c maker device = none ↔ ∀ e ∈ c.catalog, ¬ (e.makerId = maker ∧ e.deviceId = device))

/-- R147: DETACH, whatever ARG and BUF hold, always completes with ERR 0 from any state, performs no primitive and leaves
`ce`. -/
def Obligations.DetachCompletes : Prop :=
  (∀ (arg : Word32) (buf : Word64),
    decodeFields { op := 6, en := false, rsvd := 0, arg := arg, buf := buf } = .valid .detach) ∧
  ∀ s : State, JustIssued s → hostDue s = false →
    exec .detach s = .next { s with phase := .idle, result := 0, dev := none, idReg := 0 }

/-! ### SELECT and the block-level operations -/

/-- R191: SELECT performs its primitive whether or not the instance is identified; `ce` follows a success and is kept by a
failure, which is BusError. -/
def Obligations.SelectCompletes : Prop :=
  (∀ (en : Bool) (arg : Word32) (buf : Word64),
    decodeFields { op := 2, en := en, rsvd := 0, arg := arg, buf := buf } = .valid (.select en)) ∧
  ∀ (s : State) (en : Bool) (a : Answer) (rest : List Input), JustIssued s → Answered s [a] rest →
    (a.ok = true → exec (.select en) s = .next { s with
      phase := .idle, ce := en, result := 0, inputs := rest, draws := s.draws + 1
      trace := s.trace ++ [.sel en true] }) ∧
    (a.ok = false → exec (.select en) s = .next { s with
      phase := .idle, result := resultWord (errCode .busError) 0 0, inputs := rest, draws := s.draws + 1
      trace := s.trace ++ [.sel en false] })

/-- R192: a page or block operation of an unidentified instance completes at once with NotSupported, with no primitive and
no host-memory access. -/
def Obligations.UnidentifiedOperationIsNotSupported : Prop :=
  ∀ (s : State) (page : Word32) (buf : Word64), JustIssued s → hostDue s = false → identified s = false →
    ∀ i, i = .pageRead page buf ∨ i = .pageProgram page buf ∨ i = .blockErase page →
      exec i s = .next { s with phase := .idle, result := resultWord (errCode .notSupported) 0 0 }

/-- R199, R200, R119: BLOCK_ERASE with good answers and a ready status byte `b`: its trace, its result, and nothing else;
and the row it sends, the block index or the index of the block's first page modulo 2^32. -/
def Obligations.BlockEraseCompletes : Prop :=
  (∀ (c : Config) (g : Geometry) (block : Word32),
    (c.eraseRow = .blockIndex → eraseRow c g block = block) ∧
    (c.eraseRow = .pageOfBlock → (eraseRow c g block).toNat = block.toNat * g.pagesPerBlock % 2 ^ 32)) ∧
  ∀ (s : State) (block : Word32) (d : Device) (acks : List Answer) (a : Answer) (b : Byte) (rest : List Input),
    JustIssued s → s.dev = some d → Answered s (acks ++ [a]) rest → (∀ x ∈ acks, x.ok = true) →
    acks.length = 4 + d.geom.rowCycles → a.ok = true → a.bytes.head? = some b → statusReady s.cfg b = true →
    exec (.blockErase block) s = .next { s with
      phase := .idle, ce := true, polls := 0, resultStatus := some b
      result := resultWord (if statusFail s.cfg b then errCode .ioError else errCode .ok) b 0
      inputs := rest, draws := s.draws + (5 + d.geom.rowCycles)
      trace := s.trace ++ [.sel true true, .cmd s.cfg.bus.cmdErase true] ++
        addressEvents d.geom (eraseRow s.cfg d.geom block) false ++
        [.cmd s.cfg.bus.cmdEraseConfirm true, .cmd s.cfg.bus.cmdStatus true, .read1 (some b)] }

/-- R196, R165, R168: PAGE_PROGRAM without ECC sends the page's bytes and a blank spare area. -/
def Obligations.PageProgramCompletesWithoutEcc : Prop :=
  ∀ (s : State) (page : Word32) (buf : Word64) (d : Device) (acks : List Answer) (a : Answer) (b : Byte)
    (rest : List Input),
    JustIssued s → s.dev = some d → s.cfg.ecc = none → pageAdmitted s buf = true → Answered s (acks ++ [a]) rest →
    (∀ x ∈ acks, x.ok = true) → acks.length = 6 + d.geom.colCycles + d.geom.rowCycles → a.ok = true →
    a.bytes.head? = some b → statusReady s.cfg b = true →
    exec (.pageProgram page buf) s = .next { s with
      phase := .idle, ce := true, polls := 0, resultStatus := some b
      result := resultWord (if statusFail s.cfg b then errCode .ioError else errCode .ok) b 0
      dev := some { d with oob := List.replicate d.geom.spareSize 0xFF }
      inputs := rest, draws := s.draws + (7 + d.geom.colCycles + d.geom.rowCycles)
      trace := s.trace ++ [.sel true true, .cmd s.cfg.bus.cmdProgram true] ++ addressEvents d.geom page true ++
        [.write (memReadBytes s.mem buf.toNat d.geom.pageSize) true,
         .write (List.replicate d.geom.spareSize 0xFF) true,
         .cmd s.cfg.bus.cmdProgramEnd true, .cmd s.cfg.bus.cmdStatus true, .read1 (some b)] }

/-- R196, R163, R164, R168: PAGE_PROGRAM under ECC sends the strides in order, each with its computed code, then the spare
image that carries the codes. -/
def Obligations.PageProgramCompletesWithEcc : Prop :=
  ∀ (s : State) (page : Word32) (buf : Word64) (d : Device) (x : EccDesc) (codes : List (List Byte)) (b : Byte)
    (rest : List Input),
    JustIssued s → s.dev = some d → s.cfg.ecc = some x → pageAdmitted s buf = true →
    codes.length = strideCount s.cfg d.geom → (∀ c ∈ codes, c.length = x.stride) → statusReady s.cfg b = true →
    Answered s (List.replicate (2 + d.geom.colCycles + d.geom.rowCycles) (goodAnswer []) ++
      codes.flatMap (fun c => [goodAnswer [], goodAnswer [], goodAnswer c]) ++
      [goodAnswer [], goodAnswer [], goodAnswer [], goodAnswer [b]]) rest →
    ∃ t, exec (.pageProgram page buf) s = .next t ∧ t.phase = .idle ∧ t.ce = true ∧ t.resultStatus = some b ∧
      t.result = resultWord (if statusFail s.cfg b then errCode .ioError else errCode .ok) b 0 ∧
      t.mem = s.mem ∧ t.inputs = rest ∧
      t.dev = some { d with
        calcEcc := putSlice d.calcEcc 0 codes.flatten
        oob := spareImage s.cfg d.geom (putSlice d.calcEcc 0 codes.flatten) } ∧
      t.trace = s.trace ++ [.sel true true, .cmd s.cfg.bus.cmdProgram true] ++ addressEvents d.geom page true ++
        codes.zipIdx.flatMap (fun c => [.eccstart true,
          .write (memReadBytes s.mem (buf.toNat + c.2 * strideLen s.cfg d.geom) (strideLen s.cfg d.geom)) true,
          .ecccompute (some c.1)]) ++
        [.write (spareImage s.cfg d.geom (putSlice d.calcEcc 0 codes.flatten)) true,
         .cmd s.cfg.bus.cmdProgramEnd true, .cmd s.cfg.bus.cmdStatus true, .read1 (some b)]

/-- R193, R165, R166: PAGE_READ without ECC lands the page's bytes in the page buffer and the spare bytes in the OOB buffer;
no status byte is read. -/
def Obligations.PageReadCompletesWithoutEcc : Prop :=
  ∀ (s : State) (page : Word32) (buf : Word64) (d : Device) (acks : List Answer) (w data spare : Answer)
    (rest : List Input),
    JustIssued s → s.dev = some d → s.cfg.ecc = none → pageAdmitted s buf = true →
    Answered s (acks ++ [w, data, spare]) rest → (∀ x ∈ acks, x.ok = true) →
    acks.length = 2 + d.geom.colCycles + d.geom.rowCycles + (if d.geom.readStart then 1 else 0) →
    w.ready = true → data.ok = true → data.bytes.length = d.geom.pageSize → spare.ok = true →
    spare.bytes.length = d.geom.spareSize →
    exec (.pageRead page buf) s = .next { s with
      phase := .idle, ce := true, polls := 0, result := 0
      mem := memWriteBytes s.mem buf.toNat data.bytes
      dev := some { d with oob := spare.bytes }
      inputs := rest
      draws := s.draws + (6 + d.geom.colCycles + d.geom.rowCycles + (if d.geom.readStart then 1 else 0))
      trace := s.trace ++ [.sel true true, .cmd s.cfg.bus.cmdRead true] ++ addressEvents d.geom page true ++
        (if d.geom.readStart then [.cmd s.cfg.bus.cmdReadStart true] else []) ++
        [.waitrdy true, .read d.geom.pageSize (some data.bytes), .read d.geom.spareSize (some spare.bytes)] }

/-- The answers of a PAGE_READ under ECC up to its correction pass: its commands and cycles, the ready line, each stride's
start, data and code, and the spare bytes. -/
def Sys2Proof.readAnswers (g : Geometry) (strides : List (List Byte × List Byte)) (spare : List Byte) : List Answer :=
  List.replicate (3 + g.colCycles + g.rowCycles + (if g.readStart then 1 else 0)) (goodAnswer []) ++
    strides.flatMap (fun x => [goodAnswer [], goodAnswer x.1, goodAnswer x.2]) ++ [goodAnswer spare]

/-- The strides fit a configuration: N of them, each with L data bytes and ES code bytes. -/
def Sys2Proof.StridesFit (c : Config) (g : Geometry) (strides : List (List Byte × List Byte)) : Prop :=
  strides.length = strideCount c g ∧ ∀ x ∈ strides, x.1.length = strideLen c g ∧ x.2.length = eccStride c

/-- R193, R163, R166, R167, R169: PAGE_READ under ECC whose corrections all answer 0 leaves the corrected strides in the page
buffer, the spare bytes in `oob`, the codes in the two ECC buffers, and completes with ERR 0. R12, R162: under an admitted
configuration the strides cover the page exactly once: each page byte lies in one stride, and each stride in the page. -/
def Obligations.PageReadCompletesWithEcc : Prop :=
  (∀ (c : Config) (e : ChipDesc), c.wf = true → e ∈ c.catalog →
    strideCount c e.geom * strideLen c e.geom = e.geom.pageSize ∧
    (c.ecc = none → strideLen c e.geom = e.geom.pageSize ∧ strideCount c e.geom = 1) ∧
    (∀ x, c.ecc = some x → strideLen c e.geom = x.protect) ∧
    ∀ i < e.geom.pageSize, ∃! k, k < strideCount c e.geom ∧ k * strideLen c e.geom ≤ i ∧ i < (k + 1) * strideLen c e.geom) ∧
  ∀ (s : State) (page : Word32) (buf : Word64) (d : Device) (x : EccDesc) (strides : List (List Byte × List Byte))
    (spare : List Byte) (fixed : List (List Byte)) (rest : List Input),
    JustIssued s → s.dev = some d → s.cfg.ecc = some x → pageAdmitted s buf = true → StridesFit s.cfg d.geom strides →
    spare.length = d.geom.spareSize → fixed.length = strides.length →
    (∀ f ∈ fixed, f.length = strideLen s.cfg d.geom) →
    Answered s (readAnswers d.geom strides spare ++ fixed.map goodAnswer) rest →
    ∃ t, exec (.pageRead page buf) s = .next t ∧ t.phase = .idle ∧ t.ce = true ∧ t.result = 0 ∧ t.inputs = rest ∧
      t.mem = memWriteBytes (memWriteBytes s.mem buf.toNat (strides.map (·.1)).flatten) buf.toNat fixed.flatten ∧
      t.dev = some { d with
        oob := spare, calcEcc := putSlice d.calcEcc 0 (strides.map (·.2)).flatten
        readEcc := x.pos.map fun p => spare.getD p 0xFF } ∧
      t.trace = s.trace ++ [.sel true true, .cmd s.cfg.bus.cmdRead true] ++ addressEvents d.geom page true ++
        (if d.geom.readStart then [.cmd s.cfg.bus.cmdReadStart true] else []) ++ [.waitrdy true] ++
        strides.flatMap (fun y => [.eccstart true, .read (strideLen s.cfg d.geom) (some y.1), .ecccompute (some y.2)]) ++
        [.read d.geom.spareSize (some spare)] ++ (List.range strides.length).map (fun k => .ecccorrect k 0)

/-- R170 and R171: the first non-zero correction code ends the page transfer with UncorrectableEcc and its low 16 bits;
the earlier corrections stay, and the failing stride and the later ones are left as read. -/
def Obligations.NonZeroCodeFailsFast : Prop :=
  ∀ (s : State) (page : Word32) (buf : Word64) (d : Device) (x : EccDesc) (strides : List (List Byte × List Byte))
    (spare : List Byte) (fixed : List (List Byte)) (bad : Answer) (rest : List Input),
    JustIssued s → s.dev = some d → s.cfg.ecc = some x → pageAdmitted s buf = true → StridesFit s.cfg d.geom strides →
    spare.length = d.geom.spareSize → fixed.length < strides.length →
    (∀ f ∈ fixed, f.length = strideLen s.cfg d.geom) → bad.code ≠ 0 →
    Answered s (readAnswers d.geom strides spare ++ fixed.map goodAnswer ++ [bad]) rest →
    ∃ t, exec (.pageRead page buf) s = .next t ∧ t.phase = .idle ∧ t.inputs = rest ∧
      t.result = resultWord (errCode .uncorrectableEcc) 0 (bad.code.setWidth 16) ∧
      t.mem = memWriteBytes (memWriteBytes s.mem buf.toNat (strides.map (·.1)).flatten) buf.toNat fixed.flatten

/-- R11: a backend whose correction function obeys the law corrects nothing where each read code equals the computed one:
the page buffer then holds the bytes read from the chip, and the read completes with ERR 0. -/
def Obligations.LawfulCorrectionKeepsReadData : Prop :=
  ∀ (correct : List Byte → List Byte → List Byte → Word32 × List Byte) (s : State) (page : Word32) (buf : Word64)
    (d : Device) (x : EccDesc) (strides : List (List Byte × List Byte)) (spare : List Byte) (rest : List Input),
    CorrectLaw correct → JustIssued s → s.dev = some d → s.cfg.ecc = some x → pageAdmitted s buf = true →
    StridesFit s.cfg d.geom strides → spare.length = d.geom.spareSize →
    (∀ k y, strides[k]? = some y → getSlice (x.pos.map fun p => spare.getD p 0xFF) (k * x.stride) x.stride = y.2) →
    Answered s (readAnswers d.geom strides spare ++ strides.zipIdx.map (fun y =>
      { ok := true, ready := true
        code := (correct y.1.1 y.1.2 (getSlice (x.pos.map fun p => spare.getD p 0xFF) (y.2 * x.stride) x.stride)).1
        bytes := (correct y.1.1 y.1.2 (getSlice (x.pos.map fun p => spare.getD p 0xFF) (y.2 * x.stride) x.stride)).2 })) rest →
    ∃ t, exec (.pageRead page buf) s = .next t ∧ t.phase = .idle ∧ t.result = 0 ∧
      memReadBytes t.mem buf.toNat ((strides.map (·.1)).flatten).length = (strides.map (·.1)).flatten

/-- R93: the spare image: byte j is code byte i for the last index i that names offset j, and 0xFF where none does. -/
def Obligations.SpareImageLayout : Prop :=
  ∀ (c : Config) (g : Geometry) (codes : List Byte),
    (spareImage c g codes).length = g.spareSize ∧
    (c.ecc = none → spareImage c g codes = List.replicate g.spareSize 0xFF) ∧
    ∀ x, c.ecc = some x → x.pos.length = codes.length → ∀ j : Nat, j < g.spareSize →
      (∀ (i : Nat) (b : Byte), x.pos[i]? = some j → codes[i]? = some b → (∀ i' : Nat, i < i' → x.pos[i']? ≠ some j) →
        (spareImage c g codes)[j]? = some b) ∧
      (j ∉ x.pos → (spareImage c g codes)[j]? = some 0xFF)

/-- R94: for distinct offsets inside the spare area, the read-ECC extraction gives back the codes the spare image carries. -/
def Obligations.ExtractionUndoesPlacement : Prop :=
  ∀ (c : Config) (g : Geometry) (x : EccDesc) (codes : List Byte), c.ecc = some x → x.pos.Nodup →
    (∀ p ∈ x.pos, p < g.spareSize) → codes.length = x.pos.length → extractCodes c (spareImage c g codes) = codes

/-! ### Frames -/

/-- SELECT changes no register but its `ce`, no buffer and no byte of memory. -/
def Obligations.SelectFrame : Prop :=
  ∀ (en : Bool) (s t : State), AtOwnSteps (.select en) s → exec (.select en) s = .next t →
    RegistersKept s t ∧ t.dev = s.dev ∧ t.polls = s.polls ∧ t.resultStatus = s.resultStatus ∧ t.eccAcc = s.eccAcc ∧
    ∀ a, memRead t.mem a = memRead s.mem a

/-- BLOCK_ERASE changes `ce`, the poll counter, the status byte and RESULT, and no buffer and no byte of memory (R201). -/
def Obligations.BlockEraseFrame : Prop :=
  ∀ (block : Word32) (s t : State), AtOwnSteps (.blockErase block) s → exec (.blockErase block) s = .next t →
    RegistersKept s t ∧ t.dev = s.dev ∧ t.eccAcc = s.eccAcc ∧ ∀ a, memRead t.mem a = memRead s.mem a

/-- PAGE_PROGRAM reads host memory only: no byte of it changes, nor the geometry or the read-ECC buffer (R171, R196). -/
def Obligations.PageProgramFrame : Prop :=
  ∀ (page : Word32) (buf : Word64) (s t : State), AtOwnSteps (.pageProgram page buf) s →
    exec (.pageProgram page buf) s = .next t →
    RegistersKept s t ∧ identified t = identified s ∧ geometry t = geometry s ∧
    t.dev.map (·.readEcc) = s.dev.map (·.readEcc) ∧ ∀ a, memRead t.mem a = memRead s.mem a

/-- PAGE_READ changes no byte of memory outside its page buffer, nor the geometry or the status byte (R61, R194). -/
def Obligations.PageReadFrame : Prop :=
  ∀ (page : Word32) (buf : Word64) (s t : State), AtOwnSteps (.pageRead page buf) s →
    exec (.pageRead page buf) s = .next t →
    RegistersKept s t ∧ identified t = identified s ∧ geometry t = geometry s ∧ t.resultStatus = s.resultStatus ∧
    ∀ a, (a < buf.toNat ∨ buf.toNat + (geometry s).pageSize ≤ a) → memRead t.mem a = memRead s.mem a

/-- IDENTIFY touches no byte of memory, no descriptor register and no status byte; `ce` only where ID_SELECT brackets. -/
def Obligations.IdentifyFrame : Prop :=
  ∀ s t : State, AtOwnSteps .identify s → exec .identify s = .next t →
    t.cfg = s.cfg ∧ t.cur = s.cur ∧ t.desc0 = s.desc0 ∧ t.desc1 = s.desc1 ∧ t.raced = s.raced ∧
    t.hostSeen = s.hostSeen ∧ t.resultStatus = s.resultStatus ∧ t.eccAcc = s.eccAcc ∧
    (s.cfg.idSelect = .none → t.ce = s.ce) ∧ ∀ a, memRead t.mem a = memRead s.mem a

/-- DETACH touches no byte of memory, no descriptor register, neither `ce` nor the wait state, and performs no primitive. -/
def Obligations.DetachFrame : Prop :=
  ∀ s t : State, AtOwnSteps .detach s → exec .detach s = .next t →
    t.cfg = s.cfg ∧ t.cur = s.cur ∧ t.desc0 = s.desc0 ∧ t.desc1 = s.desc1 ∧ t.raced = s.raced ∧
    t.hostSeen = s.hostSeen ∧ t.resultStatus = s.resultStatus ∧ t.ce = s.ce ∧ t.polls = s.polls ∧
    t.cellWidth = s.cellWidth ∧ t.idMaker = s.idMaker ∧ t.idDevice = s.idDevice ∧ t.eccAcc = s.eccAcc ∧
    t.inputs = s.inputs ∧ ∀ a, memRead t.mem a = memRead s.mem a

/-! ### The whole machine -/

/-- R39: no step writes the configuration. -/
def Obligations.NoStepWritesConfiguration : Prop :=
  ∀ s t : State, step s = .next t → t.cfg = s.cfg

/-- R22 and R23: only IDENTIFY, DETACH and reset change the geometry or whether the instance is identified. -/
def Obligations.OnlyLifecycleChangesGeometry : Prop :=
  ∀ s t : State, SequenceInv s → step s = .next t → identified t ≠ identified s ∨ geometry t ≠ geometry s →
    (∃ rest, s.inputs = .host .reset :: rest) ∨
    (s.phase = .busy ∧ (decodeFields s.cur = .valid .identify ∨ decodeFields s.cur = .valid .detach))

/-- R61: host memory changes only by PAGE_READ and by the host's own writes. -/
def Obligations.OnlyPageReadWritesHostMemory : Prop :=
  ∀ s t : State, SequenceInv s → step s = .next t → t.mem ≠ s.mem →
    (∃ a v rest, s.inputs = .host (.writeMem a v) :: rest) ∨
    (s.phase = .busy ∧ ∃ page buf, decodeFields s.cur = .valid (.pageRead page buf))

/-- R263: a host write of a byte the NPE owns leaves any value there and marks it for the rest of the operation; every
other byte stays. The free value of log 13 is in the statement, and nothing rests on what it is. -/
def Obligations.HostWriteOfOwnedByteIsARace : Prop :=
  ∀ (s : State) (a : Nat) (v : Byte) (rest : List Input), s.cfg.wf = true →
    s.inputs = .host (.writeMem a v) :: rest → admits s.cfg a = true → owned s a = true →
    ∃ t, step s = .next t ∧ a ∈ t.raced ∧ (∀ a', a' ≠ a → memRead t.mem a' = memRead s.mem a') ∧
      memRead t.mem a = Config.racedByte s.draws a ∧ t.result = s.result ∧ t.phase = s.phase ∧ t.pos = s.pos

/-- Every step keeps the invariant of the machine's data. -/
def Obligations.StepKeepsMachineInv : Prop :=
  ∀ s t : State, MachineInv s → step s = .next t → MachineInv t

/-- The invariant of the machine's data holds after reset, under every configuration. -/
def Obligations.ResetMeetsMachineInv : Prop := ∀ c : Config, MachineInv (State.resetWith c)

/-- R31, R88, R221: every step keeps RESULT legal. -/
def Obligations.StepKeepsResultInv : Prop :=
  ∀ s t : State, ResultInv s → step s = .next t → ResultInv t

/-- R21: every step keeps the position inside the sequence of the operation in flight. -/
def Obligations.StepKeepsSequenceInv : Prop :=
  ∀ s t : State, SequenceInv s → step s = .next t → SequenceInv t

/-- RESULT is legal and the position is in its sequence after reset, under every configuration. -/
def Obligations.ResetMeetsResultAndSequenceInv : Prop :=
  ∀ c : Config, ResultInv (State.resetWith c) ∧ SequenceInv (State.resetWith c)

/-- R265: a host request stops at its first error, then releases select once and issues nothing more; its residual counts
the items not completed. -/
def Obligations.RequestStopsAtFirstError : Prop :=
  ∀ (g : Geometry) (q : Request) (err err' : Byte), err ≠ 0 → q.stage = .moving →
    (requestAdvance g q err).2 = some (.select false) ∧
    (requestAdvance g q err).1.error = err ∧
    residual g (requestAdvance g q err).1 = residual g q ∧
    (requestAdvance g (requestAdvance g q err).1 err').2 = none
end

