-- ==== Sys2Proof/Laws/Encode.lean ====
section
/-! SUPPORT. The fields of a DESC0 word put together from its parts (R80, R95). -/

namespace Sys2Proof

/-- The word `(zext_64(arg) << 32) | (en << 4) | OP` has just these fields. -/
theorem fieldsOfWords_word (arg : Word32) (en : Bool) (op : BitVec 4) (buf : Word64) :
    fieldsOfWords ((arg.setWidth 64 <<< 32) ||| ((BitVec.ofBool en).setWidth 64 <<< 4) ||| op.setWidth 64) buf =
      { op := op, en := en, rsvd := 0, arg := arg, buf := buf } := by
  simp only [fieldsOfWords, Fields.mk.injEq, and_true]
  refine ⟨?_, ?_, ?_, ?_⟩
  · apply BitVec.eq_of_getLsbD_eq
    intro i hi
    have h1 : i < 32 := by omega
    simp [hi, h1]
    intro
    omega
  · simp
  · apply BitVec.eq_of_getLsbD_eq
    intro i hi
    have h1 : 5 + i < 32 := by omega
    have h2 : ¬ 5 + i < 4 := by omega
    have h3 : ¬ 5 + i - 4 = 0 := by omega
    have h4 : op.getLsbD (5 + i) = false := BitVec.getLsbD_of_ge _ _ (by omega)
    simp [h1, h2, h3, h4]
  · apply BitVec.eq_of_getLsbD_eq
    intro i hi
    have h2 : 32 + i < 64 := by omega
    have h3 : ¬ 32 + i - 4 = 0 := by omega
    have h4 : op.getLsbD (32 + i) = false := BitVec.getLsbD_of_ge _ _ (by omega)
    simp [hi, h2, h3, h4]

end Sys2Proof
end

