-- ==== Sys2Proof/Laws/State.lean ====
section
/-! SUPPORT. One lemma per field of the state per named update: what the update leaves in the field. -/

namespace Sys2Proof.Machine

/-! ### logged -/

@[simp] theorem logged_cfg (e : Event) (s : State) : (logged e s).cfg = s.cfg := rfl
@[simp] theorem logged_phase (e : Event) (s : State) : (logged e s).phase = s.phase := rfl
@[simp] theorem logged_pos (e : Event) (s : State) : (logged e s).pos = s.pos := rfl
@[simp] theorem logged_cur (e : Event) (s : State) : (logged e s).cur = s.cur := rfl
@[simp] theorem logged_polls (e : Event) (s : State) : (logged e s).polls = s.polls := rfl
@[simp] theorem logged_resultStatus (e : Event) (s : State) : (logged e s).resultStatus = s.resultStatus := rfl
@[simp] theorem logged_dev (e : Event) (s : State) : (logged e s).dev = s.dev := rfl
@[simp] theorem logged_ce (e : Event) (s : State) : (logged e s).ce = s.ce := rfl
@[simp] theorem logged_cellWidth (e : Event) (s : State) : (logged e s).cellWidth = s.cellWidth := rfl
@[simp] theorem logged_idMaker (e : Event) (s : State) : (logged e s).idMaker = s.idMaker := rfl
@[simp] theorem logged_idDevice (e : Event) (s : State) : (logged e s).idDevice = s.idDevice := rfl
@[simp] theorem logged_desc0 (e : Event) (s : State) : (logged e s).desc0 = s.desc0 := rfl
@[simp] theorem logged_desc1 (e : Event) (s : State) : (logged e s).desc1 = s.desc1 := rfl
@[simp] theorem logged_result (e : Event) (s : State) : (logged e s).result = s.result := rfl
@[simp] theorem logged_idReg (e : Event) (s : State) : (logged e s).idReg = s.idReg := rfl
@[simp] theorem logged_mem (e : Event) (s : State) : (logged e s).mem = s.mem := rfl
@[simp] theorem logged_eccAcc (e : Event) (s : State) : (logged e s).eccAcc = s.eccAcc := rfl
@[simp] theorem logged_inputs (e : Event) (s : State) : (logged e s).inputs = s.inputs := rfl
@[simp] theorem logged_draws (e : Event) (s : State) : (logged e s).draws = s.draws := rfl
@[simp] theorem logged_raced (e : Event) (s : State) : (logged e s).raced = s.raced := rfl
@[simp] theorem logged_trace (e : Event) (s : State) : (logged e s).trace = s.trace ++ [e] := rfl
@[simp] theorem logged_hostSeen (e : Event) (s : State) : (logged e s).hostSeen = s.hostSeen := rfl

/-! ### drawn -/

@[simp] theorem drawn_cfg (s : State) : (drawn s).cfg = s.cfg := rfl
@[simp] theorem drawn_phase (s : State) : (drawn s).phase = s.phase := rfl
@[simp] theorem drawn_pos (s : State) : (drawn s).pos = s.pos := rfl
@[simp] theorem drawn_cur (s : State) : (drawn s).cur = s.cur := rfl
@[simp] theorem drawn_polls (s : State) : (drawn s).polls = s.polls := rfl
@[simp] theorem drawn_resultStatus (s : State) : (drawn s).resultStatus = s.resultStatus := rfl
@[simp] theorem drawn_dev (s : State) : (drawn s).dev = s.dev := rfl
@[simp] theorem drawn_ce (s : State) : (drawn s).ce = s.ce := rfl
@[simp] theorem drawn_cellWidth (s : State) : (drawn s).cellWidth = s.cellWidth := rfl
@[simp] theorem drawn_idMaker (s : State) : (drawn s).idMaker = s.idMaker := rfl
@[simp] theorem drawn_idDevice (s : State) : (drawn s).idDevice = s.idDevice := rfl
@[simp] theorem drawn_desc0 (s : State) : (drawn s).desc0 = s.desc0 := rfl
@[simp] theorem drawn_desc1 (s : State) : (drawn s).desc1 = s.desc1 := rfl
@[simp] theorem drawn_result (s : State) : (drawn s).result = s.result := rfl
@[simp] theorem drawn_idReg (s : State) : (drawn s).idReg = s.idReg := rfl
@[simp] theorem drawn_mem (s : State) : (drawn s).mem = s.mem := rfl
@[simp] theorem drawn_eccAcc (s : State) : (drawn s).eccAcc = s.eccAcc := rfl
@[simp] theorem drawn_draws (s : State) : (drawn s).draws = s.draws + 1 := rfl
@[simp] theorem drawn_raced (s : State) : (drawn s).raced = s.raced := rfl
@[simp] theorem drawn_trace (s : State) : (drawn s).trace = s.trace := rfl
@[simp] theorem drawn_hostSeen (s : State) : (drawn s).hostSeen = s.hostSeen := rfl

/-! ### bufWrite -/

@[simp] theorem bufWrite_cfg (a : Nat) (x : List Byte) (s : State) : (bufWrite s a x).cfg = s.cfg := rfl
@[simp] theorem bufWrite_phase (a : Nat) (x : List Byte) (s : State) : (bufWrite s a x).phase = s.phase := rfl
@[simp] theorem bufWrite_pos (a : Nat) (x : List Byte) (s : State) : (bufWrite s a x).pos = s.pos := rfl
@[simp] theorem bufWrite_cur (a : Nat) (x : List Byte) (s : State) : (bufWrite s a x).cur = s.cur := rfl
@[simp] theorem bufWrite_polls (a : Nat) (x : List Byte) (s : State) : (bufWrite s a x).polls = s.polls := rfl
@[simp] theorem bufWrite_resultStatus (a : Nat) (x : List Byte) (s : State) : (bufWrite s a x).resultStatus = s.resultStatus := rfl
@[simp] theorem bufWrite_dev (a : Nat) (x : List Byte) (s : State) : (bufWrite s a x).dev = s.dev := rfl
@[simp] theorem bufWrite_ce (a : Nat) (x : List Byte) (s : State) : (bufWrite s a x).ce = s.ce := rfl
@[simp] theorem bufWrite_cellWidth (a : Nat) (x : List Byte) (s : State) : (bufWrite s a x).cellWidth = s.cellWidth := rfl
@[simp] theorem bufWrite_idMaker (a : Nat) (x : List Byte) (s : State) : (bufWrite s a x).idMaker = s.idMaker := rfl
@[simp] theorem bufWrite_idDevice (a : Nat) (x : List Byte) (s : State) : (bufWrite s a x).idDevice = s.idDevice := rfl
@[simp] theorem bufWrite_desc0 (a : Nat) (x : List Byte) (s : State) : (bufWrite s a x).desc0 = s.desc0 := rfl
@[simp] theorem bufWrite_desc1 (a : Nat) (x : List Byte) (s : State) : (bufWrite s a x).desc1 = s.desc1 := rfl
@[simp] theorem bufWrite_result (a : Nat) (x : List Byte) (s : State) : (bufWrite s a x).result = s.result := rfl
@[simp] theorem bufWrite_idReg (a : Nat) (x : List Byte) (s : State) : (bufWrite s a x).idReg = s.idReg := rfl
@[simp] theorem bufWrite_mem (a : Nat) (x : List Byte) (s : State) : (bufWrite s a x).mem = memWriteBytes s.mem a (blend s.raced s.draws a x) := rfl
@[simp] theorem bufWrite_eccAcc (a : Nat) (x : List Byte) (s : State) : (bufWrite s a x).eccAcc = s.eccAcc := rfl
@[simp] theorem bufWrite_inputs (a : Nat) (x : List Byte) (s : State) : (bufWrite s a x).inputs = s.inputs := rfl
@[simp] theorem bufWrite_draws (a : Nat) (x : List Byte) (s : State) : (bufWrite s a x).draws = s.draws + 1 := rfl
@[simp] theorem bufWrite_raced (a : Nat) (x : List Byte) (s : State) : (bufWrite s a x).raced = s.raced := rfl
@[simp] theorem bufWrite_trace (a : Nat) (x : List Byte) (s : State) : (bufWrite s a x).trace = s.trace := rfl
@[simp] theorem bufWrite_hostSeen (a : Nat) (x : List Byte) (s : State) : (bufWrite s a x).hostSeen = s.hostSeen := rfl

/-! ### onDevice -/

@[simp] theorem onDevice_cfg (f : Device → Device) (s : State) : (onDevice f s).cfg = s.cfg := rfl
@[simp] theorem onDevice_phase (f : Device → Device) (s : State) : (onDevice f s).phase = s.phase := rfl
@[simp] theorem onDevice_pos (f : Device → Device) (s : State) : (onDevice f s).pos = s.pos := rfl
@[simp] theorem onDevice_cur (f : Device → Device) (s : State) : (onDevice f s).cur = s.cur := rfl
@[simp] theorem onDevice_polls (f : Device → Device) (s : State) : (onDevice f s).polls = s.polls := rfl
@[simp] theorem onDevice_resultStatus (f : Device → Device) (s : State) : (onDevice f s).resultStatus = s.resultStatus := rfl
@[simp] theorem onDevice_dev (f : Device → Device) (s : State) : (onDevice f s).dev = s.dev.map f := rfl
@[simp] theorem onDevice_ce (f : Device → Device) (s : State) : (onDevice f s).ce = s.ce := rfl
@[simp] theorem onDevice_cellWidth (f : Device → Device) (s : State) : (onDevice f s).cellWidth = s.cellWidth := rfl
@[simp] theorem onDevice_idMaker (f : Device → Device) (s : State) : (onDevice f s).idMaker = s.idMaker := rfl
@[simp] theorem onDevice_idDevice (f : Device → Device) (s : State) : (onDevice f s).idDevice = s.idDevice := rfl
@[simp] theorem onDevice_desc0 (f : Device → Device) (s : State) : (onDevice f s).desc0 = s.desc0 := rfl
@[simp] theorem onDevice_desc1 (f : Device → Device) (s : State) : (onDevice f s).desc1 = s.desc1 := rfl
@[simp] theorem onDevice_result (f : Device → Device) (s : State) : (onDevice f s).result = s.result := rfl
@[simp] theorem onDevice_idReg (f : Device → Device) (s : State) : (onDevice f s).idReg = s.idReg := rfl
@[simp] theorem onDevice_mem (f : Device → Device) (s : State) : (onDevice f s).mem = s.mem := rfl
@[simp] theorem onDevice_eccAcc (f : Device → Device) (s : State) : (onDevice f s).eccAcc = s.eccAcc := rfl
@[simp] theorem onDevice_inputs (f : Device → Device) (s : State) : (onDevice f s).inputs = s.inputs := rfl
@[simp] theorem onDevice_draws (f : Device → Device) (s : State) : (onDevice f s).draws = s.draws := rfl
@[simp] theorem onDevice_raced (f : Device → Device) (s : State) : (onDevice f s).raced = s.raced := rfl
@[simp] theorem onDevice_trace (f : Device → Device) (s : State) : (onDevice f s).trace = s.trace := rfl
@[simp] theorem onDevice_hostSeen (f : Device → Device) (s : State) : (onDevice f s).hostSeen = s.hostSeen := rfl

/-! ### forgetDevice -/

@[simp] theorem forgetDevice_cfg (s : State) : (forgetDevice s).cfg = s.cfg := rfl
@[simp] theorem forgetDevice_phase (s : State) : (forgetDevice s).phase = s.phase := rfl
@[simp] theorem forgetDevice_pos (s : State) : (forgetDevice s).pos = s.pos := rfl
@[simp] theorem forgetDevice_cur (s : State) : (forgetDevice s).cur = s.cur := rfl
@[simp] theorem forgetDevice_polls (s : State) : (forgetDevice s).polls = s.polls := rfl
@[simp] theorem forgetDevice_resultStatus (s : State) : (forgetDevice s).resultStatus = s.resultStatus := rfl
@[simp] theorem forgetDevice_dev (s : State) : (forgetDevice s).dev = none := rfl
@[simp] theorem forgetDevice_ce (s : State) : (forgetDevice s).ce = s.ce := rfl
@[simp] theorem forgetDevice_cellWidth (s : State) : (forgetDevice s).cellWidth = s.cellWidth := rfl
@[simp] theorem forgetDevice_idMaker (s : State) : (forgetDevice s).idMaker = s.idMaker := rfl
@[simp] theorem forgetDevice_idDevice (s : State) : (forgetDevice s).idDevice = s.idDevice := rfl
@[simp] theorem forgetDevice_desc0 (s : State) : (forgetDevice s).desc0 = s.desc0 := rfl
@[simp] theorem forgetDevice_desc1 (s : State) : (forgetDevice s).desc1 = s.desc1 := rfl
@[simp] theorem forgetDevice_result (s : State) : (forgetDevice s).result = s.result := rfl
@[simp] theorem forgetDevice_idReg (s : State) : (forgetDevice s).idReg = 0 := rfl
@[simp] theorem forgetDevice_mem (s : State) : (forgetDevice s).mem = s.mem := rfl
@[simp] theorem forgetDevice_eccAcc (s : State) : (forgetDevice s).eccAcc = s.eccAcc := rfl
@[simp] theorem forgetDevice_inputs (s : State) : (forgetDevice s).inputs = s.inputs := rfl
@[simp] theorem forgetDevice_draws (s : State) : (forgetDevice s).draws = s.draws := rfl
@[simp] theorem forgetDevice_raced (s : State) : (forgetDevice s).raced = s.raced := rfl
@[simp] theorem forgetDevice_trace (s : State) : (forgetDevice s).trace = s.trace := rfl
@[simp] theorem forgetDevice_hostSeen (s : State) : (forgetDevice s).hostSeen = s.hostSeen := rfl

/-! ### completion -/

@[simp] theorem completion_cfg (e : Err) (i : BitVec 16) (s : State) : (completion e i s).cfg = s.cfg := rfl
@[simp] theorem completion_phase (e : Err) (i : BitVec 16) (s : State) : (completion e i s).phase = .idle := rfl
@[simp] theorem completion_pos (e : Err) (i : BitVec 16) (s : State) : (completion e i s).pos = .start := rfl
@[simp] theorem completion_cur (e : Err) (i : BitVec 16) (s : State) : (completion e i s).cur = s.cur := rfl
@[simp] theorem completion_polls (e : Err) (i : BitVec 16) (s : State) : (completion e i s).polls = s.polls := rfl
@[simp] theorem completion_resultStatus (e : Err) (i : BitVec 16) (s : State) : (completion e i s).resultStatus = s.resultStatus := rfl
@[simp] theorem completion_dev (e : Err) (i : BitVec 16) (s : State) : (completion e i s).dev = s.dev := rfl
@[simp] theorem completion_ce (e : Err) (i : BitVec 16) (s : State) : (completion e i s).ce = s.ce := rfl
@[simp] theorem completion_cellWidth (e : Err) (i : BitVec 16) (s : State) : (completion e i s).cellWidth = s.cellWidth := rfl
@[simp] theorem completion_idMaker (e : Err) (i : BitVec 16) (s : State) : (completion e i s).idMaker = s.idMaker := rfl
@[simp] theorem completion_idDevice (e : Err) (i : BitVec 16) (s : State) : (completion e i s).idDevice = s.idDevice := rfl
@[simp] theorem completion_desc0 (e : Err) (i : BitVec 16) (s : State) : (completion e i s).desc0 = s.desc0 := rfl
@[simp] theorem completion_desc1 (e : Err) (i : BitVec 16) (s : State) : (completion e i s).desc1 = s.desc1 := rfl
@[simp] theorem completion_result (e : Err) (i : BitVec 16) (s : State) : (completion e i s).result = resultWord (errCode e) (s.resultStatus.getD 0) i := rfl
@[simp] theorem completion_idReg (e : Err) (i : BitVec 16) (s : State) : (completion e i s).idReg = s.idReg := rfl
@[simp] theorem completion_mem (e : Err) (i : BitVec 16) (s : State) : (completion e i s).mem = s.mem := rfl
@[simp] theorem completion_eccAcc (e : Err) (i : BitVec 16) (s : State) : (completion e i s).eccAcc = s.eccAcc := rfl
@[simp] theorem completion_inputs (e : Err) (i : BitVec 16) (s : State) : (completion e i s).inputs = s.inputs := rfl
@[simp] theorem completion_draws (e : Err) (i : BitVec 16) (s : State) : (completion e i s).draws = s.draws := rfl
@[simp] theorem completion_raced (e : Err) (i : BitVec 16) (s : State) : (completion e i s).raced = s.raced := rfl
@[simp] theorem completion_trace (e : Err) (i : BitVec 16) (s : State) : (completion e i s).trace = s.trace := rfl
@[simp] theorem completion_hostSeen (e : Err) (i : BitVec 16) (s : State) : (completion e i s).hostSeen = s.hostSeen := rfl

/-! ### issue -/

@[simp] theorem issue_cfg (v : Word64) (s : State) : (issue v s).cfg = s.cfg := rfl
@[simp] theorem issue_phase (v : Word64) (s : State) : (issue v s).phase = .busy := rfl
@[simp] theorem issue_pos (v : Word64) (s : State) : (issue v s).pos = .start := rfl
@[simp] theorem issue_cur (v : Word64) (s : State) : (issue v s).cur = fieldsOfWords v s.desc1 := rfl
@[simp] theorem issue_polls (v : Word64) (s : State) : (issue v s).polls = s.polls := rfl
@[simp] theorem issue_resultStatus (v : Word64) (s : State) : (issue v s).resultStatus = none := rfl
@[simp] theorem issue_dev (v : Word64) (s : State) : (issue v s).dev = s.dev := rfl
@[simp] theorem issue_ce (v : Word64) (s : State) : (issue v s).ce = s.ce := rfl
@[simp] theorem issue_cellWidth (v : Word64) (s : State) : (issue v s).cellWidth = s.cellWidth := rfl
@[simp] theorem issue_idMaker (v : Word64) (s : State) : (issue v s).idMaker = s.idMaker := rfl
@[simp] theorem issue_idDevice (v : Word64) (s : State) : (issue v s).idDevice = s.idDevice := rfl
@[simp] theorem issue_desc0 (v : Word64) (s : State) : (issue v s).desc0 = v := rfl
@[simp] theorem issue_desc1 (v : Word64) (s : State) : (issue v s).desc1 = s.desc1 := rfl
@[simp] theorem issue_result (v : Word64) (s : State) : (issue v s).result = s.result := rfl
@[simp] theorem issue_idReg (v : Word64) (s : State) : (issue v s).idReg = s.idReg := rfl
@[simp] theorem issue_mem (v : Word64) (s : State) : (issue v s).mem = s.mem := rfl
@[simp] theorem issue_eccAcc (v : Word64) (s : State) : (issue v s).eccAcc = s.eccAcc := rfl
@[simp] theorem issue_inputs (v : Word64) (s : State) : (issue v s).inputs = s.inputs := rfl
@[simp] theorem issue_draws (v : Word64) (s : State) : (issue v s).draws = s.draws := rfl
@[simp] theorem issue_raced (v : Word64) (s : State) : (issue v s).raced = [] := rfl
@[simp] theorem issue_trace (v : Word64) (s : State) : (issue v s).trace = [] := rfl
@[simp] theorem issue_hostSeen (v : Word64) (s : State) : (issue v s).hostSeen = s.hostSeen := rfl

/-! ### resetNpe -/

@[simp] theorem resetNpe_cfg (s : State) : (resetNpe s).cfg = s.cfg := rfl
@[simp] theorem resetNpe_phase (s : State) : (resetNpe s).phase = .idle := rfl
@[simp] theorem resetNpe_pos (s : State) : (resetNpe s).pos = .start := rfl
@[simp] theorem resetNpe_cur (s : State) : (resetNpe s).cur = { op := 0, en := false, rsvd := 0, arg := 0, buf := 0 } := rfl
@[simp] theorem resetNpe_polls (s : State) : (resetNpe s).polls = 0 := rfl
@[simp] theorem resetNpe_resultStatus (s : State) : (resetNpe s).resultStatus = none := rfl
@[simp] theorem resetNpe_dev (s : State) : (resetNpe s).dev = none := rfl
@[simp] theorem resetNpe_ce (s : State) : (resetNpe s).ce = false := rfl
@[simp] theorem resetNpe_cellWidth (s : State) : (resetNpe s).cellWidth = 8 := rfl
@[simp] theorem resetNpe_idMaker (s : State) : (resetNpe s).idMaker = 0 := rfl
@[simp] theorem resetNpe_idDevice (s : State) : (resetNpe s).idDevice = 0 := rfl
@[simp] theorem resetNpe_desc0 (s : State) : (resetNpe s).desc0 = 0 := rfl
@[simp] theorem resetNpe_desc1 (s : State) : (resetNpe s).desc1 = 0 := rfl
@[simp] theorem resetNpe_result (s : State) : (resetNpe s).result = 0 := rfl
@[simp] theorem resetNpe_idReg (s : State) : (resetNpe s).idReg = 0 := rfl
@[simp] theorem resetNpe_mem (s : State) : (resetNpe s).mem = s.mem := rfl
@[simp] theorem resetNpe_eccAcc (s : State) : (resetNpe s).eccAcc = s.eccAcc := rfl
@[simp] theorem resetNpe_inputs (s : State) : (resetNpe s).inputs = s.inputs := rfl
@[simp] theorem resetNpe_draws (s : State) : (resetNpe s).draws = s.draws := rfl
@[simp] theorem resetNpe_raced (s : State) : (resetNpe s).raced = [] := rfl
@[simp] theorem resetNpe_trace (s : State) : (resetNpe s).trace = s.trace := rfl
@[simp] theorem resetNpe_hostSeen (s : State) : (resetNpe s).hostSeen = s.hostSeen := rfl

/-! ### accumulate -/

@[simp] theorem accumulate_cfg (x : List Byte) (s : State) : (accumulate x s).cfg = s.cfg := by
  simp only [accumulate]; split <;> rfl
@[simp] theorem accumulate_phase (x : List Byte) (s : State) : (accumulate x s).phase = s.phase := by
  simp only [accumulate]; split <;> rfl
@[simp] theorem accumulate_pos (x : List Byte) (s : State) : (accumulate x s).pos = s.pos := by
  simp only [accumulate]; split <;> rfl
@[simp] theorem accumulate_cur (x : List Byte) (s : State) : (accumulate x s).cur = s.cur := by
  simp only [accumulate]; split <;> rfl
@[simp] theorem accumulate_polls (x : List Byte) (s : State) : (accumulate x s).polls = s.polls := by
  simp only [accumulate]; split <;> rfl
@[simp] theorem accumulate_resultStatus (x : List Byte) (s : State) : (accumulate x s).resultStatus = s.resultStatus := by
  simp only [accumulate]; split <;> rfl
@[simp] theorem accumulate_dev (x : List Byte) (s : State) : (accumulate x s).dev = s.dev := by
  simp only [accumulate]; split <;> rfl
@[simp] theorem accumulate_ce (x : List Byte) (s : State) : (accumulate x s).ce = s.ce := by
  simp only [accumulate]; split <;> rfl
@[simp] theorem accumulate_cellWidth (x : List Byte) (s : State) : (accumulate x s).cellWidth = s.cellWidth := by
  simp only [accumulate]; split <;> rfl
@[simp] theorem accumulate_idMaker (x : List Byte) (s : State) : (accumulate x s).idMaker = s.idMaker := by
  simp only [accumulate]; split <;> rfl
@[simp] theorem accumulate_idDevice (x : List Byte) (s : State) : (accumulate x s).idDevice = s.idDevice := by
  simp only [accumulate]; split <;> rfl
@[simp] theorem accumulate_desc0 (x : List Byte) (s : State) : (accumulate x s).desc0 = s.desc0 := by
  simp only [accumulate]; split <;> rfl
@[simp] theorem accumulate_desc1 (x : List Byte) (s : State) : (accumulate x s).desc1 = s.desc1 := by
  simp only [accumulate]; split <;> rfl
@[simp] theorem accumulate_result (x : List Byte) (s : State) : (accumulate x s).result = s.result := by
  simp only [accumulate]; split <;> rfl
@[simp] theorem accumulate_idReg (x : List Byte) (s : State) : (accumulate x s).idReg = s.idReg := by
  simp only [accumulate]; split <;> rfl
@[simp] theorem accumulate_mem (x : List Byte) (s : State) : (accumulate x s).mem = s.mem := by
  simp only [accumulate]; split <;> rfl
@[simp] theorem accumulate_inputs (x : List Byte) (s : State) : (accumulate x s).inputs = s.inputs := by
  simp only [accumulate]; split <;> rfl
@[simp] theorem accumulate_draws (x : List Byte) (s : State) : (accumulate x s).draws = s.draws := by
  simp only [accumulate]; split <;> rfl
@[simp] theorem accumulate_raced (x : List Byte) (s : State) : (accumulate x s).raced = s.raced := by
  simp only [accumulate]; split <;> rfl
@[simp] theorem accumulate_trace (x : List Byte) (s : State) : (accumulate x s).trace = s.trace := by
  simp only [accumulate]; split <;> rfl
@[simp] theorem accumulate_hostSeen (x : List Byte) (s : State) : (accumulate x s).hostSeen = s.hostSeen := by
  simp only [accumulate]; split <;> rfl

end Sys2Proof.Machine
end

