-- ==== Sys2Proof/Laws/Inputs.lean ====
section
/-! SUPPORT. The laws of answers and scratch buffers: what the next answer is, and the lengths of what it gives. -/

namespace Sys2Proof.Machine

/-- A listed answer is the one the primitive receives. -/
theorem answerOf_listed {s : State} {a : Answer} {rest : List Input} (h : s.inputs = .answer a :: rest) (free : Answer) :
    answerOf free s = a := by
  simp [answerOf, h, takeAnswer]

theorem busAnswer_listed {s : State} {a : Answer} {rest : List Input} (h : s.inputs = .answer a :: rest) :
    busAnswer s = a := answerOf_listed h _

theorem drawn_inputs_listed {s : State} {a : Answer} {rest : List Input} (h : s.inputs = .answer a :: rest) :
    (drawn s).inputs = rest := by
  simp [drawn, h, takeAnswer]

/-- With no input the answer is free. -/
theorem answerOf_free {s : State} (h : s.inputs = []) (free : Answer) : answerOf free s = free := by
  simp [answerOf, h, takeAnswer]

/-- No host event is due where an answer comes next. -/
theorem hostDue_listed {s : State} {a : Answer} {rest : List Input} (h : s.inputs = .answer a :: rest) :
    hostDue s = false := by
  simp [hostDue, h, hostFirst]

@[simp] theorem fitBytes_length (free : Nat → Byte) (n : Nat) (x : List Byte) : (fitBytes free n x).length = n := by
  induction n generalizing x with
  | zero => simp [fitBytes]
  | succ n ih => cases x <;> simp [fitBytes, ih]

/-- An answer of the length asked for is taken as it is. -/
theorem fitBytes_exact (free : Nat → Byte) (x : List Byte) : fitBytes free x.length x = x := by
  induction x with
  | nil => rfl
  | cons b x ih => simp [fitBytes, ih]

@[simp] theorem answerBytes_length (s : State) (n : Nat) (x : List Byte) : (answerBytes s n x).length = n :=
  fitBytes_length _ _ _

theorem answerBytes_exact (s : State) {n : Nat} {x : List Byte} (h : x.length = n) : answerBytes s n x = x := by
  subst h; exact fitBytes_exact _ _

@[simp] theorem scratchBytes_length (draw j n : Nat) : (scratchBytes draw j n).length = n := by
  induction n generalizing j with
  | zero => rfl
  | succ n ih => simp [scratchBytes, ih]

@[simp] theorem putSlice_length (buf : List Byte) (i : Nat) (x : List Byte) : (putSlice buf i x).length = buf.length := by
  induction x generalizing buf i with
  | nil => rfl
  | cons b x ih => simp [putSlice, ih]

theorem putSlice_append (buf : List Byte) (i : Nat) (x y : List Byte) :
    putSlice buf i (x ++ y) = putSlice (putSlice buf i x) (i + x.length) y := by
  induction x generalizing buf i with
  | nil => rfl
  | cons b x ih => simp only [List.cons_append, putSlice, ih, List.length_cons]; congr 1; omega

@[simp] theorem placeCodes_length (oob : List Byte) (pos : List Nat) (codes : List Byte) :
    (placeCodes oob pos codes).length = oob.length := by
  induction pos generalizing oob codes with
  | nil => simp [placeCodes]
  | cons p pos ih => cases codes <;> simp [placeCodes, ih]

@[simp] theorem spareImage_length (c : Config) (g : Geometry) (codes : List Byte) :
    (spareImage c g codes).length = g.spareSize := by
  simp [spareImage]

@[simp] theorem extractCodes_length (c : Config) (oob : List Byte) :
    (extractCodes c oob).length = (eccPositions c).length := by
  simp [extractCodes]

/-- A successful single-byte read gives its byte. -/
theorem read1Byte_listed {s : State} {a : Answer} {b : Byte} {rest : List Input} (h : s.inputs = .answer a :: rest)
    (hok : a.ok = true) (hb : a.bytes.head? = some b) : read1Byte s = some b := by
  cases hx : a.bytes with
  | nil => simp [hx] at hb
  | cons c x =>
    have : c = b := by simpa [hx] using hb
    simp [read1Byte, busAnswer_listed h, hok, answerBytes, hx, fitBytes, this]

end Sys2Proof.Machine
end

