-- ==== Sys2Proof/Laws/Memory.lean ====
section
/-! SUPPORT. The laws of host memory: read after write, and every operation keeps the canonical form. -/

namespace Sys2Proof.Machine

/-- The canonical form is decidable data: a bound on the first address follows from the order. -/
theorem mem_wf_cons {c : Host.Cell} {m : Memory} :
    Memory.wf (c :: m) ↔ (∀ d ∈ m, c.1 < d.1) ∧ c.2 ≠ Memory.blank ∧ Memory.wf m := by
  simp only [Memory.wf, List.pairwise_cons, List.forall_mem_cons]
  tauto

theorem mem_of_mem_erase {m : Memory} {a : Nat} {d : Host.Cell} (h : d ∈ memErase m a) : d ∈ m ∧ d.1 ≠ a := by
  induction m with
  | nil => simp [memErase] at h
  | cons c m ih =>
    simp only [memErase] at h
    split at h
    · exact ⟨List.mem_cons_of_mem _ (ih h).1, (ih h).2⟩
    · rcases List.mem_cons.1 h with rfl | h
      · exact ⟨List.mem_cons_self, by assumption⟩
      · exact ⟨List.mem_cons_of_mem _ (ih h).1, (ih h).2⟩

theorem memErase_wf {m : Memory} (a : Nat) (h : Memory.wf m) : Memory.wf (memErase m a) := by
  induction m with
  | nil => exact h
  | cons c m ih =>
    obtain ⟨hlt, hne, hm⟩ := mem_wf_cons.1 h
    simp only [memErase]
    split
    · exact ih hm
    · exact mem_wf_cons.2 ⟨fun d hd => hlt d (mem_of_mem_erase hd).1, hne, ih hm⟩

theorem mem_of_mem_insert {m : Memory} {a : Nat} {v : Byte} {d : Host.Cell} (h : d ∈ memInsert m a v) :
    d = (a, v) ∨ d ∈ m := by
  induction m with
  | nil => simpa [memInsert] using h
  | cons c m ih =>
    simp only [memInsert] at h
    split at h
    · exact List.mem_cons.1 h
    · rcases List.mem_cons.1 h with rfl | h
      · exact .inr List.mem_cons_self
      · exact (ih h).imp_right (List.mem_cons_of_mem _)

theorem memInsert_wf {m : Memory} {a : Nat} {v : Byte} (hv : v ≠ Memory.blank) (ha : ∀ d ∈ m, d.1 ≠ a)
    (h : Memory.wf m) : Memory.wf (memInsert m a v) := by
  induction m with
  | nil => exact mem_wf_cons.2 ⟨by simp, hv, h⟩
  | cons c m ih =>
    obtain ⟨hlt, hne, hm⟩ := mem_wf_cons.1 h
    simp only [memInsert]
    split
    · next hac =>
      refine mem_wf_cons.2 ⟨fun d hd => ?_, hv, h⟩
      rcases List.mem_cons.1 hd with rfl | hd
      · exact hac
      · exact Nat.lt_trans hac (hlt d hd)
    · next hac =>
      have hca : c.1 < a := by have := ha c List.mem_cons_self; omega
      refine mem_wf_cons.2 ⟨fun d hd => ?_, hne, ih (fun d hd => ha d (List.mem_cons_of_mem _ hd)) hm⟩
      rcases mem_of_mem_insert hd with rfl | hd
      · exact hca
      · exact hlt d hd

/-- A write keeps the canonical form. -/
theorem memWrite_wf {m : Memory} (a : Nat) (v : Byte) (h : Memory.wf m) : Memory.wf (memWrite m a v) := by
  simp only [memWrite]
  split
  · exact memErase_wf a h
  · next hv => exact memInsert_wf hv (fun d hd => (mem_of_mem_erase hd).2) (memErase_wf a h)

/-- A run of writes keeps the canonical form. -/
theorem memWriteBytes_wf {m : Memory} (a : Nat) (x : List Byte) (h : Memory.wf m) :
    Memory.wf (memWriteBytes m a x) := by
  induction x generalizing m a with
  | nil => exact h
  | cons b x ih => exact ih (a + 1) (memWrite_wf a b h)

theorem memRead_erase_same (m : Memory) (a : Nat) : memRead (memErase m a) a = Memory.blank := by
  induction m with
  | nil => rfl
  | cons c m ih =>
    simp only [memErase]
    split
    · exact ih
    · next h => simp only [memRead, h, if_false, ih]

theorem memRead_erase_other (m : Memory) {a a' : Nat} (h : a' ≠ a) : memRead (memErase m a) a' = memRead m a' := by
  induction m with
  | nil => rfl
  | cons c m ih =>
    simp only [memErase]
    split
    · next hc => simp only [memRead, ih, show ¬ c.1 = a' by omega, if_false]
    · simp only [memRead, ih]

theorem memRead_insert (m : Memory) (a : Nat) (v : Byte) (h : ∀ d ∈ m, d.1 ≠ a) (a' : Nat) :
    memRead (memInsert m a v) a' = if a' = a then v else memRead m a' := by
  induction m with
  | nil => simp only [memInsert, memRead, eq_comm]
  | cons c m ih =>
    simp only [memInsert]
    split
    · simp only [memRead, eq_comm (a := a)]
    · have hc := h c List.mem_cons_self
      simp only [memRead, ih (fun d hd => h d (List.mem_cons_of_mem _ hd))]
      split
      · next hca => rw [if_neg (by omega)]
      · rfl

/-- A read after a write: the byte written at its address, every other byte as before. -/
theorem memRead_memWrite (m : Memory) (a : Nat) (v : Byte) (a' : Nat) :
    memRead (memWrite m a v) a' = if a' = a then v else memRead m a' := by
  simp only [memWrite]
  split
  · next hv =>
    split
    · next h => rw [h, memRead_erase_same, hv]
    · next h => exact memRead_erase_other m h
  · rw [memRead_insert _ _ _ (fun d hd => (mem_of_mem_erase hd).2)]
    split
    · rfl
    · next h => exact memRead_erase_other m h

/-- A run of writes leaves every byte outside it. -/
theorem memRead_memWriteBytes_outside (m : Memory) (a : Nat) (x : List Byte) {a' : Nat}
    (h : a' < a ∨ a + x.length ≤ a') : memRead (memWriteBytes m a x) a' = memRead m a' := by
  induction x generalizing m a with
  | nil => rfl
  | cons b x ih =>
    simp only [List.length_cons] at h
    rw [memWriteBytes, ih _ _ (by omega), memRead_memWrite, if_neg (by omega)]

/-- A run of writes stores its bytes in order. -/
theorem memRead_memWriteBytes_inside (m : Memory) (a : Nat) (x : List Byte) (i : Nat) (h : i < x.length) :
    memRead (memWriteBytes m a x) (a + i) = x[i] := by
  induction x generalizing m a i with
  | nil => simp at h
  | cons b x ih =>
    rw [memWriteBytes]
    cases i with
    | zero => rw [memRead_memWriteBytes_outside _ _ _ (by omega), memRead_memWrite, if_pos (by omega)]; rfl
    | succ i => rw [show a + (i + 1) = a + 1 + i by omega, ih _ _ i (by simpa using h)]; rfl

theorem memWriteBytes_append (m : Memory) (a : Nat) (x y : List Byte) :
    memWriteBytes m a (x ++ y) = memWriteBytes (memWriteBytes m a x) (a + x.length) y := by
  induction x generalizing m a with
  | nil => rfl
  | cons b x ih => simp only [List.cons_append, memWriteBytes, ih, List.length_cons]; congr 1; omega

@[simp] theorem memReadBytes_length (m : Memory) (a n : Nat) : (memReadBytes m a n).length = n := by
  induction n generalizing a with
  | zero => rfl
  | succ n ih => simp [memReadBytes, ih]

/-- Reading back a run of writes gives the bytes written. -/
theorem memReadBytes_memWriteBytes (m : Memory) (a : Nat) (x : List Byte) :
    memReadBytes (memWriteBytes m a x) a x.length = x := by
  induction x generalizing m a with
  | nil => rfl
  | cons b x ih =>
    rw [List.length_cons, memReadBytes, memWriteBytes, ih,
      memRead_memWriteBytes_outside _ _ _ (by omega), memRead_memWrite, if_pos rfl]

/-- Two memories that read alike over a run of addresses give the same bytes there. -/
theorem memReadBytes_congr {m m' : Memory} {a n : Nat} (h : ∀ i < n, memRead m (a + i) = memRead m' (a + i)) :
    memReadBytes m a n = memReadBytes m' a n := by
  induction n generalizing a with
  | zero => rfl
  | succ n ih =>
    rw [memReadBytes, memReadBytes, ih fun i hi => by have := h (i + 1) (by omega); rwa [← Nat.add_assoc, Nat.add_right_comm] at this]
    rw [show memRead m a = memRead m' a from h 0 (by omega)]

@[simp] theorem blend_nil (draw a : Nat) (x : List Byte) : blend [] draw a x = x := by
  induction x generalizing a with
  | nil => rfl
  | cons b x ih => simp [blend, ih]

@[simp] theorem blend_length (raced : List Nat) (draw a : Nat) (x : List Byte) : (blend raced draw a x).length = x.length := by
  induction x generalizing a with
  | nil => rfl
  | cons b x ih => simp [blend, ih]

@[simp] theorem bufRead_length (s : State) (a n : Nat) : (bufRead s a n).length = n := by
  simp [bufRead]

/-- With no raced byte the sequencer reads the page buffer's bytes. -/
theorem bufRead_unraced {s : State} (h : s.raced = []) (a n : Nat) : bufRead s a n = memReadBytes s.mem a n := by
  simp [bufRead, h]

/-- With no raced byte the sequencer writes exactly its bytes. -/
theorem bufWrite_unraced {s : State} (h : s.raced = []) (a : Nat) (x : List Byte) :
    (bufWrite s a x).mem = memWriteBytes s.mem a x := by
  simp [bufWrite, h]

/-- A page-buffer write keeps the canonical form. -/
theorem bufWrite_wf {s : State} (a : Nat) (x : List Byte) (h : Memory.wf s.mem) : Memory.wf (bufWrite s a x).mem :=
  memWriteBytes_wf _ _ h

end Sys2Proof.Machine
end

