-- ==== Sys2Proof/Laws/PerInstr.lean ====
section
/-! SUPPORT. A statement made of each operation as syntax: the descriptor it encodes to is valid (R84). -/

namespace Sys2Proof.Laws.ValidDescriptor

/-- The encoded descriptor of an operation passes the three checks of R84. -/
def Statement (i : Instr) : Prop := (fieldsOfWords (encodeDesc0 i) (encodeDesc1 i)).valid = true

theorem identify : Statement .identify := by
  unfold Statement; decide

theorem select (en : Bool) : Statement (.select en) := by
  unfold Statement; cases en <;> decide

theorem pageRead (page : Word32) (buf : Word64) : Statement (.pageRead page buf) := by
  have h := fieldsOfWords_word page false 3 buf
  simp only [Statement]
  rw [show encodeDesc0 (.pageRead page buf) =
    (page.setWidth 64 <<< 32) ||| ((BitVec.ofBool false).setWidth 64 <<< 4) ||| (3 : BitVec 4).setWidth 64 from rfl,
    encodeDesc1, Instr.bufOperand, h]
  rfl

theorem pageProgram (page : Word32) (buf : Word64) : Statement (.pageProgram page buf) := by
  have h := fieldsOfWords_word page false 4 buf
  simp only [Statement]
  rw [show encodeDesc0 (.pageProgram page buf) =
    (page.setWidth 64 <<< 32) ||| ((BitVec.ofBool false).setWidth 64 <<< 4) ||| (4 : BitVec 4).setWidth 64 from rfl,
    encodeDesc1, Instr.bufOperand, h]
  rfl

theorem blockErase (block : Word32) : Statement (.blockErase block) := by
  have h := fieldsOfWords_word block false 5 0
  simp only [Statement]
  rw [show encodeDesc0 (.blockErase block) =
    (block.setWidth 64 <<< 32) ||| ((BitVec.ofBool false).setWidth 64 <<< 4) ||| (5 : BitVec 4).setWidth 64 from rfl,
    encodeDesc1, Instr.bufOperand, h]
  rfl

theorem detach : Statement .detach := by
  unfold Statement; decide

end Sys2Proof.Laws.ValidDescriptor
end

