-- ==== Sys2Proof/Laws/Sequencer.lean ====
section
/-! SUPPORT. The laws of the sequencer: what one step of it can do, how a run of steps unfolds, and, once, how a property
that each step keeps is kept by an operation and by the machine. -/

namespace Sys2Proof.Machine

/-- The state a step of the sequencer leaves, however it ends. -/
def flowState : Flow → State
  | .done s => s
  | .again _ s => s
  | .raised _ _ s => s

@[simp] theorem flowState_done (s : State) : flowState (.done s) = s := rfl
@[simp] theorem flowState_again (l : List Micro) (s : State) : flowState (.again l s) = s := rfl
@[simp] theorem flowState_raised (e : Err) (i : BitVec 16) (s : State) : flowState (.raised e i s) = s := rfl

/-- What a property must survive to be kept by a run: the fields the control of the sequencer writes. -/
structure ControlFree (P : State → Prop) : Prop where
  pos : ∀ s p, P s → P { s with pos := p }
  completion : ∀ s e i, P s → P (completion e i s)
  forget : ∀ s, P s → P (forgetDevice s)

theorem completeOk_keeps {P : State → Prop} (h : ControlFree P) {s : State} (hs : P s) : P (completeOk s) := by
  simp only [completeOk]
  split
  · exact h.pos _ _ hs
  · exact h.completion _ _ _ hs

theorem raiseErr_keeps {P : State → Prop} (h : ControlFree P) (k : OpKind) (e : Err) (i : BitVec 16) {s : State}
    (hs : P s) : P (raiseErr k e i s) := by
  simp only [raiseErr]
  split
  · exact h.pos _ _ hs
  split
  · exact h.forget _ (h.completion _ _ _ hs)
  · exact h.completion _ _ _ hs

/-- An empty run is the completion step. -/
theorem runSteps_nil (k : OpKind) (s : State) : runSteps k [] s = completeOk s := rfl

/-- A run goes on after a step that is done. -/
theorem runSteps_done {k : OpKind} {m : Micro} {ms : List Micro} {s s' : State} (hh : hostDue s = false)
    (hb : blocked s m = false) (hp : perform k m s = .done s') : runSteps k (m :: ms) s = runSteps k ms s' := by
  simp [runSteps, hh, hb, hp]

/-- A not-ready answer ends the run with the wait loop still to do. -/
theorem runSteps_again {k : OpKind} {m : Micro} {ms loop : List Micro} {s s' : State} (hh : hostDue s = false)
    (hb : blocked s m = false) (hp : perform k m s = .again loop s') :
    runSteps k (m :: ms) s = { s' with pos := .run (loop ++ ms) } := by
  simp [runSteps, hh, hb, hp]

/-- An error ends the run at once. -/
theorem runSteps_raised {k : OpKind} {m : Micro} {ms : List Micro} {s s' : State} {e : Err} {i : BitVec 16}
    (hh : hostDue s = false) (hb : blocked s m = false) (hp : perform k m s = .raised e i s') :
    runSteps k (m :: ms) s = raiseErr k e i s' := by
  simp [runSteps, hh, hb, hp]

/-- A due host event stops the run where it stands. -/
theorem runSteps_due {k : OpKind} {m : Micro} {ms : List Micro} {s : State} (hh : hostDue s = true) :
    runSteps k (m :: ms) s = { s with pos := .run (m :: ms) } := by
  simp [runSteps, hh]

/-- A property that the control of the sequencer and every step of it keep is kept by a run of steps. -/
theorem runSteps_keeps {P : State → Prop} (h : ControlFree P) (k : OpKind)
    (hstep : ∀ m s, hostDue s = false → blocked s m = false → P s → P (flowState (perform k m s)))
    (ms : List Micro) {s : State} (hs : P s) : P (runSteps k ms s) := by
  induction ms generalizing s with
  | nil => exact completeOk_keeps h hs
  | cons m ms ih =>
    simp only [runSteps]
    split
    · exact h.pos _ _ hs
    · next hc =>
      simp only [Bool.or_eq_true, not_or, Bool.not_eq_true] at hc
      have hp := hstep m s hc.1 hc.2 hs
      split
      · next heq => rw [heq] at hp; exact ih hp
      · next heq => rw [heq] at hp; exact h.pos _ _ hp
      · next heq => rw [heq] at hp; exact raiseErr_keeps h _ _ _ hp

/-- What an operation can answer: a next state, or stuck at a page-buffer access (R63). -/
theorem runOperation_cases {k : OpKind} {start : State → State} {s s' : State}
    (h : runOperation k start s = .next s') :
    (s.pos = .start ∧ s' = start s) ∨ (∃ ms, s.pos = .run ms ∧ s' = runSteps k ms s) ∨
      ∃ e i, s.pos = .fail e i ∧ s' = raiseErr k e i s := by
  simp only [runOperation] at h
  split at h
  · next hp => exact .inl ⟨hp, by injection h with h; exact h.symm⟩
  · next ms hp =>
    split at h
    · simp at h
    · exact .inr (.inl ⟨ms, hp, by injection h with h; exact h.symm⟩)
  · next e i hp => exact .inr (.inr ⟨e, i, hp, by injection h with h; exact h.symm⟩)

/-- What `exec` does when it answers a next state: at its start the operation is turned away or runs its steps; further on
it runs the steps it still has, or completes with the error it raised. -/
theorem exec_cases {i : Instr} {s s' : State} (h : exec i s = .next s') :
    (s.pos = .start ∧ ((∃ e, s' = raiseErr (kindOf i) e 0 s ∧ (e = .notSupported ∨ e = .missingCapability)) ∨
      ∃ ms, stepsOf i s = some ms ∧
        (s' = runSteps (kindOf i) ms s ∨ s' = runSteps (kindOf i) ms { s with cellWidth := 8 }))) ∨
    (∃ ms, s.pos = .run ms ∧ s' = runSteps (kindOf i) ms s) ∨
    ∃ e info, s.pos = .fail e info ∧ s' = raiseErr (kindOf i) e info s := by
  cases i with
  | identify =>
    rcases runOperation_cases h with ⟨hp, rfl⟩ | hr | hf
    · refine .inl ⟨hp, ?_⟩
      simp only [startIdentify]
      split
      · exact .inl ⟨_, rfl, .inl rfl⟩
      split
      · exact .inr ⟨_, rfl, .inr rfl⟩
      · exact .inl ⟨_, rfl, .inr rfl⟩
    · exact .inr (.inl hr)
    · exact .inr (.inr hf)
  | select en =>
    rcases runOperation_cases h with ⟨hp, rfl⟩ | hr | hf
    · exact .inl ⟨hp, .inr ⟨_, rfl, .inl rfl⟩⟩
    · exact .inr (.inl hr)
    · exact .inr (.inr hf)
  | detach =>
    rcases runOperation_cases h with ⟨hp, rfl⟩ | hr | hf
    · exact .inl ⟨hp, .inr ⟨_, rfl, .inl rfl⟩⟩
    · exact .inr (.inl hr)
    · exact .inr (.inr hf)
  | pageRead page buf =>
    rcases runOperation_cases h with ⟨hp, rfl⟩ | hr | hf
    · refine .inl ⟨hp, ?_⟩
      simp only [startIdentified]
      split
      · exact .inl ⟨_, rfl, .inl rfl⟩
      · next d hd => exact .inr ⟨pageReadSteps s.cfg page buf d.geom, by simp [stepsOf, hd], .inl rfl⟩
    · exact .inr (.inl hr)
    · exact .inr (.inr hf)
  | pageProgram page buf =>
    rcases runOperation_cases h with ⟨hp, rfl⟩ | hr | hf
    · refine .inl ⟨hp, ?_⟩
      simp only [startIdentified]
      split
      · exact .inl ⟨_, rfl, .inl rfl⟩
      · next d hd => exact .inr ⟨pageProgramSteps s.cfg page buf d.geom, by simp [stepsOf, hd], .inl rfl⟩
    · exact .inr (.inl hr)
    · exact .inr (.inr hf)
  | blockErase block =>
    rcases runOperation_cases h with ⟨hp, rfl⟩ | hr | hf
    · refine .inl ⟨hp, ?_⟩
      simp only [startIdentified]
      split
      · exact .inl ⟨_, rfl, .inl rfl⟩
      · next d hd => exact .inr ⟨blockEraseSteps s.cfg block d.geom, by simp [stepsOf, hd], .inl rfl⟩
    · exact .inr (.inl hr)
    · exact .inr (.inr hf)

/-- A property that the control, the cell width and every step keep is kept by `exec`. -/
theorem exec_keeps {P : State → Prop} (h : ControlFree P) (hw : ∀ s w, P s → P { s with cellWidth := w })
    (hstep : ∀ k m s, hostDue s = false → blocked s m = false → P s → P (flowState (perform k m s)))
    {i : Instr} {s s' : State} (he : exec i s = .next s') (hs : P s) : P s' := by
  rcases exec_cases he with ⟨-, ⟨e, rfl, -⟩ | ⟨ms, -, rfl | rfl⟩⟩ | ⟨ms, -, rfl⟩ | ⟨e, info, -, rfl⟩
  · exact raiseErr_keeps h _ _ _ hs
  · exact runSteps_keeps h _ (hstep _) _ hs
  · exact runSteps_keeps h _ (hstep _) _ (hw _ _ hs)
  · exact runSteps_keeps h _ (hstep _) _ hs
  · exact raiseErr_keeps h _ _ _ hs

/-- What a step of the machine does when it answers a next state: a host event lands, the operation in flight moves, an
invalid descriptor completes, or the idle NPE stays as it is. -/
theorem step_cases {s s' : State} (h : step s = .next s') :
    s.cfg.wf = true ∧
    ((∃ e rest, s.inputs = .host e :: rest ∧ hostStep e { s with inputs := rest } = .next s') ∨
     (s.phase = .busy ∧ hostDue s = false ∧ ∃ i, decodeFields s.cur = .valid i ∧ exec i s = .next s') ∨
     (s.phase = .busy ∧ hostDue s = false ∧ (∃ w, decodeFields s.cur = .invalid w) ∧
        s' = raiseErr .other .notSupported 0 s) ∨
     (s.phase = .idle ∧ s' = s)) := by
  have run : ∀ {s' : State}, s.phase = .busy → hostDue s = false → runCurrent s = .next s' →
      (s.phase = .busy ∧ hostDue s = false ∧ ∃ i, decodeFields s.cur = .valid i ∧ exec i s = .next s') ∨
      (s.phase = .busy ∧ hostDue s = false ∧ (∃ w, decodeFields s.cur = .invalid w) ∧
        s' = raiseErr .other .notSupported 0 s) := by
    intro s' hp hd hr
    simp only [runCurrent] at hr
    split at hr
    · next i hi => exact .inl ⟨hp, hd, i, hi, hr⟩
    · next w hi => exact .inr ⟨hp, hd, ⟨w, hi⟩, by injection hr with hr; exact hr.symm⟩
  simp only [step, advance] at h
  split at h
  · next hc =>
    refine ⟨hc, ?_⟩
    split at h
    · next rest hi hp =>
      exact .inr ((run hp (by simp [hostDue, hi, hostFirst]) h).imp_right .inl)
    · next e rest hi _ => exact .inl ⟨e, rest, hi, h⟩
    · next hp _ hn =>
      refine .inr ((run hp ?_ h).imp_right .inl)
      simp only [hostDue]
      cases hi : s.inputs with
      | nil => rfl
      | cons x xs =>
        cases x with
        | answer a => rfl
        | host e => exact absurd hi (hn e xs)
    · next hp _ => exact .inr (.inr (.inr ⟨hp, by injection h with h; exact h.symm⟩))
  · simp at h

end Sys2Proof.Machine
end

