-- ==== Sys2Proof/Laws/Perform.lean ====
section
/-! SUPPORT. What one step of the sequencer changes: once for every step the fields no step writes, and for each other
field the steps that write it. -/

namespace Sys2Proof.Machine

/-- The fields no step of the sequencer writes. -/
structure SameControl (s t : State) : Prop where
  cfg : t.cfg = s.cfg
  phase : t.phase = s.phase
  pos : t.pos = s.pos
  cur : t.cur = s.cur
  desc0 : t.desc0 = s.desc0
  desc1 : t.desc1 = s.desc1
  result : t.result = s.result
  cellWidth : t.cellWidth = s.cellWidth
  raced : t.raced = s.raced
  hostSeen : t.hostSeen = s.hostSeen

theorem busAck_state (k : OpKind) (ev : Bool → Event) (s : State) :
    flowState (busAck k ev s) = logged (ev (busAnswer s).ok) (drawn s) := by
  simp only [busAck]; split <;> simp_all

theorem doSelect_state (k : OpKind) (b : Bool) (s : State) :
    flowState (doSelect k b s) =
      { logged (.sel b (busAnswer s).ok) (drawn s) with ce := if (busAnswer s).ok then b else s.ce } := by
  simp only [doSelect, busAck]; cases (busAnswer s).ok <;> rfl

theorem notReady_state (loop : List Micro) (s : State) :
    flowState (notReady loop s) = { s with polls := s.polls + 1 } := by
  simp only [notReady]; split <;> rfl

theorem doWaitRnb_state (s : State) :
    flowState (doWaitRnb s) =
      { logged (.waitrdy (busAnswer s).ready) (drawn s) with
        polls := if (busAnswer s).ready then s.polls else s.polls + 1 } := by
  simp only [doWaitRnb]
  split
  · rfl
  · rw [notReady_state]; rfl

/-- Nothing a step of the sequencer does reaches the control, the descriptor, RESULT or the host's fields. -/
theorem perform_control (k : OpKind) (m : Micro) (s : State) : SameControl s (flowState (perform k m s)) := by
  cases m <;> simp only [perform]
  case select => rw [doSelect_state]; constructor <;> rfl
  case cmd => rw [doCmd, busAck_state]; constructor <;> rfl
  case addr => rw [doAddr, busAck_state]; constructor <;> rfl
  case spareWrite => rw [doSpareWrite, busAck_state]; constructor <;> rfl
  case zeroPolls => constructor <;> rfl
  case waitRnb => rw [doWaitRnb_state]; constructor <;> rfl
  case statusRead =>
    simp only [doStatusRead, statusCheck]
    split
    · constructor <;> rfl
    split
    · split
      · split <;> constructor <;> rfl
      · constructor <;> rfl
    · rw [notReady_state]; constructor <;> rfl
  case delay => constructor <;> rfl
  case readMaker => simp only [doReadMaker]; split <;> constructor <;> rfl
  case readDevice => simp only [doReadDevice]; split <;> constructor <;> rfl
  case loadGeometry => simp only [doLoadGeometry]; split <;> constructor <;> rfl
  case eccStart => simp only [doEccStart]; split <;> constructor <;> rfl
  case strideRead => simp only [doStrideRead]; split <;> constructor <;> simp
  case strideWrite => simp only [doStrideWrite]; split <;> constructor <;> simp
  case eccCompute => simp only [doEccCompute]; split <;> constructor <;> rfl
  case spareRead => simp only [doSpareRead]; split <;> constructor <;> rfl
  case extractEcc => constructor <;> rfl
  case buildSpare => constructor <;> rfl
  case eccCorrect => simp only [doEccCorrect]; split <;> constructor <;> rfl
  case release => constructor <;> rfl

/-- Host memory changes only where a stride lands or is corrected, and there by one run of bytes (R61). -/
theorem perform_mem (k : OpKind) (m : Micro) (s : State) :
    (flowState (perform k m s)).mem = s.mem ∨
    ∃ buf i x, (m = .strideRead buf i ∨ m = .eccCorrect buf i) ∧ x.length = strideLen s.cfg (geometry s) ∧
      (flowState (perform k m s)).mem = memWriteBytes s.mem (strideAddr s buf i) x := by
  cases m <;> simp only [perform]
  case select => rw [doSelect_state]; exact .inl rfl
  case cmd => rw [doCmd, busAck_state]; exact .inl rfl
  case addr => rw [doAddr, busAck_state]; exact .inl rfl
  case spareWrite => rw [doSpareWrite, busAck_state]; exact .inl rfl
  case zeroPolls => exact .inl rfl
  case waitRnb => rw [doWaitRnb_state]; exact .inl rfl
  case statusRead =>
    refine .inl ?_
    simp only [doStatusRead, statusCheck]
    split
    · rfl
    split
    · split
      · split <;> rfl
      · rfl
    · rw [notReady_state]; rfl
  case delay => exact .inl rfl
  case readMaker => simp only [doReadMaker]; split <;> exact .inl rfl
  case readDevice => simp only [doReadDevice]; split <;> exact .inl rfl
  case loadGeometry => simp only [doLoadGeometry]; split <;> exact .inl rfl
  case eccStart => simp only [doEccStart]; split <;> exact .inl rfl
  case strideRead buf i =>
    simp only [doStrideRead]
    split
    · exact .inr ⟨buf, i, blend s.raced (s.draws + 1) (strideAddr s buf i)
        (answerBytes s (strideLen s.cfg (geometry s)) (busAnswer s).bytes), .inl rfl, by simp, by simp⟩
    · exact .inl rfl
  case strideWrite => simp only [doStrideWrite]; split <;> exact .inl (by simp)
  case eccCompute => simp only [doEccCompute]; split <;> exact .inl rfl
  case spareRead => simp only [doSpareRead]; split <;> exact .inl rfl
  case extractEcc => exact .inl rfl
  case buildSpare => exact .inl rfl
  case eccCorrect buf i =>
    simp only [doEccCorrect]
    split
    · exact .inr ⟨buf, i, blend s.raced (s.draws + 1) (strideAddr s buf i)
        (answerBytes s (strideLen s.cfg (geometry s)) (correctAnswer s buf i).bytes), .inr rfl, by simp, by simp⟩
    · exact .inl rfl
  case release => exact .inl rfl

/-- The device changes only as `load_geometry`, DETACH and the page transfer change it: else its geometry stays, and
each buffer keeps its length unless the step replaces it by one of the geometry's length (R23, R24, R25). -/
theorem perform_dev (k : OpKind) (m : Micro) (s : State) :
    ((flowState (perform k m s)).dev = s.dev ∧ (flowState (perform k m s)).idReg = s.idReg) ∨
    (m = .release ∧ flowState (perform k m s) = forgetDevice s) ∨
    (m = .loadGeometry ∧ ∃ e, catalogMatch s.cfg s.idMaker s.idDevice = some e ∧
      (flowState (perform k m s)).dev = some (loadedDevice s.cfg s.draws e) ∧
      (flowState (perform k m s)).idReg = idWord e.makerId e.deviceId) ∨
    ((flowState (perform k m s)).idReg = s.idReg ∧ ∃ d d', s.dev = some d ∧ (flowState (perform k m s)).dev = some d' ∧
      d'.geom = d.geom ∧ d'.calcEcc.length = d.calcEcc.length ∧
      (d'.oob = d.oob ∨ d'.oob.length = d.geom.spareSize) ∧
      (d'.readEcc = d.readEcc ∨ d'.readEcc.length = (eccPositions s.cfg).length)) := by
  have keep : ∀ {t : State} {P : Prop}, t.dev = s.dev → t.idReg = s.idReg → (t.dev = s.dev ∧ t.idReg = s.idReg) ∨ P :=
    fun h h' => .inl ⟨h, h'⟩
  have change : ∀ {t : State} {f : Device → Device} {Q R : Prop}, t.dev = s.dev.map f → t.idReg = s.idReg →
      (∀ d, s.dev = some d → (f d).geom = d.geom ∧ (f d).calcEcc.length = d.calcEcc.length ∧
        ((f d).oob = d.oob ∨ (f d).oob.length = d.geom.spareSize) ∧
        ((f d).readEcc = d.readEcc ∨ (f d).readEcc.length = (eccPositions s.cfg).length)) →
      (t.dev = s.dev ∧ t.idReg = s.idReg) ∨ Q ∨ R ∨ (t.idReg = s.idReg ∧ ∃ d d', s.dev = some d ∧ t.dev = some d' ∧
        d'.geom = d.geom ∧ d'.calcEcc.length = d.calcEcc.length ∧
        (d'.oob = d.oob ∨ d'.oob.length = d.geom.spareSize) ∧
        (d'.readEcc = d.readEcc ∨ d'.readEcc.length = (eccPositions s.cfg).length)) := by
    intro t f Q R ht hid h
    cases hd : s.dev with
    | none => exact .inl ⟨by rw [ht, hd]; rfl, hid⟩
    | some d => exact .inr (.inr (.inr ⟨hid, d, f d, rfl, by rw [ht, hd]; rfl, h d hd⟩))
  cases m <;> simp only [perform]
  case select => rw [doSelect_state]; exact keep rfl rfl
  case cmd => rw [doCmd, busAck_state]; exact keep rfl rfl
  case addr => rw [doAddr, busAck_state]; exact keep rfl rfl
  case spareWrite => rw [doSpareWrite, busAck_state]; exact keep rfl rfl
  case zeroPolls => exact keep rfl rfl
  case waitRnb => rw [doWaitRnb_state]; exact keep rfl rfl
  case statusRead =>
    refine .inl ?_
    simp only [doStatusRead, statusCheck]
    split
    · exact ⟨rfl, rfl⟩
    split
    · split
      · split <;> exact ⟨rfl, rfl⟩
      · exact ⟨rfl, rfl⟩
    · rw [notReady_state]; exact ⟨rfl, rfl⟩
  case delay => exact keep rfl rfl
  case readMaker => simp only [doReadMaker]; split <;> exact keep rfl rfl
  case readDevice => simp only [doReadDevice]; split <;> exact keep rfl rfl
  case loadGeometry =>
    simp only [doLoadGeometry]
    split
    · exact keep rfl rfl
    · next e he => exact .inr (.inr (.inl ⟨by trivial, e, he, rfl, rfl⟩))
  case eccStart => simp only [doEccStart]; split <;> exact keep rfl rfl
  case strideRead => simp only [doStrideRead]; split <;> exact keep (by simp) (by simp)
  case strideWrite => simp only [doStrideWrite]; split <;> exact keep (by simp) (by simp)
  case eccCompute i =>
    simp only [doEccCompute]
    split
    · exact change rfl rfl fun d _ => ⟨rfl, by simp, .inl rfl, .inl rfl⟩
    · exact keep rfl rfl
  case spareRead =>
    simp only [doSpareRead]
    split
    · exact change rfl rfl fun d hd => ⟨rfl, rfl, .inr (by simp [geometry, hd]), .inl rfl⟩
    · exact keep rfl rfl
  case extractEcc =>
    exact change rfl rfl fun d _ => ⟨rfl, rfl, .inl rfl, .inr (by simp)⟩
  case buildSpare =>
    exact change rfl rfl fun d _ => ⟨rfl, rfl, .inr (by simp), .inl rfl⟩
  case eccCorrect =>
    simp only [doEccCorrect]
    split <;> exact keep rfl rfl
  case release => exact .inr (.inl ⟨by trivial, rfl⟩)

end Sys2Proof.Machine
end

