-- ==== Sys2Proof/Laws/Runs.lean ====
section
/-! SUPPORT. Runs of steps whose primitives all succeed: how each step moves the state when its answer is listed, and how
such runs join. -/

namespace Sys2Proof.Machine

/-- The steps `ms` are all done from `s` and leave `s'`: whatever follows them runs from there. -/
def RunsTo (k : OpKind) (ms : List Micro) (s s' : State) : Prop :=
  ∀ rest, runSteps k (ms ++ rest) s = runSteps k rest s'

theorem RunsTo.nil (k : OpKind) (s : State) : RunsTo k [] s s := fun _ => rfl

theorem RunsTo.append {k : OpKind} {ms ms' : List Micro} {s s' s'' : State} (h : RunsTo k ms s s')
    (h' : RunsTo k ms' s' s'') : RunsTo k (ms ++ ms') s s'' := by
  intro rest
  rw [List.append_assoc, h, h']

theorem RunsTo.step {k : OpKind} {m : Micro} {s s' : State} (hh : hostDue s = false) (hb : blocked s m = false)
    (hp : perform k m s = .done s') : RunsTo k [m] s s' := fun _ => runSteps_done hh hb hp

theorem RunsTo.cons {k : OpKind} {m : Micro} {ms : List Micro} {s s' s'' : State} (h : RunsTo k [m] s s')
    (h' : RunsTo k ms s' s'') : RunsTo k (m :: ms) s s'' := RunsTo.append h h'

/-- An operation all of whose steps are done ends with its completion step. -/
theorem RunsTo.complete {k : OpKind} {ms : List Micro} {s s' : State} (h : RunsTo k ms s s') (hh : hostDue s' = false) :
    runSteps k ms s = completion .ok 0 s' := by
  have := h []
  rw [List.append_nil] at this
  rw [this, runSteps_nil, completeOk, hh]
  rfl

/-- The state once a listed answer has been received and its event logged. -/
def received (e : Event) (rest : List Input) (s : State) : State :=
  { s with inputs := rest, draws := s.draws + 1, trace := s.trace ++ [e] }

theorem logged_drawn {s : State} {a : Answer} {rest : List Input} (h : s.inputs = .answer a :: rest) (e : Event) :
    logged e (drawn s) = received e rest s := by
  simp [logged, received, drawn, h, takeAnswer]

/-- A bus primitive that only answers ok or fail, answered ok. -/
theorem busAck_ok {k : OpKind} {ev : Bool → Event} {s : State} {a : Answer} {rest : List Input}
    (h : s.inputs = .answer a :: rest) (hok : a.ok = true) : busAck k ev s = .done (received (ev true) rest s) := by
  rw [busAck, busAnswer_listed h, hok, logged_drawn h]; rfl

/-- A bus primitive that only answers ok or fail, answered fail (R110). -/
theorem busAck_fail {k : OpKind} {ev : Bool → Event} {s : State} {a : Answer} {rest : List Input}
    (h : s.inputs = .answer a :: rest) (hok : a.ok = false) :
    busAck k ev s = .raised (busErr k) 0 (received (ev false) rest s) := by
  rw [busAck, busAnswer_listed h, hok, logged_drawn h, logged_drawn h]; rfl

theorem runsTo_cmd {k : OpKind} {s : State} {a : Answer} {rest : List Input} (c : Byte)
    (h : s.inputs = .answer a :: rest) (hok : a.ok = true) :
    RunsTo k [.cmd c] s (received (.cmd c true) rest s) :=
  .step (hostDue_listed h) rfl (busAck_ok h hok)

theorem runsTo_addr {k : OpKind} {s : State} {a : Answer} {rest : List Input} (b : Byte)
    (h : s.inputs = .answer a :: rest) (hok : a.ok = true) :
    RunsTo k [.addr b] s (received (.addr b true) rest s) :=
  .step (hostDue_listed h) rfl (busAck_ok h hok)

theorem runsTo_select {k : OpKind} {s : State} {a : Answer} {rest : List Input} (b : Bool)
    (h : s.inputs = .answer a :: rest) (hok : a.ok = true) :
    RunsTo k [.select b] s { received (.sel b true) rest s with ce := b } :=
  .step (hostDue_listed h) rfl (by rw [perform, doSelect, busAck_ok h hok])

theorem runsTo_spareWrite {k : OpKind} {s : State} {a : Answer} {rest : List Input}
    (h : s.inputs = .answer a :: rest) (hok : a.ok = true) :
    RunsTo k [.spareWrite] s (received (.write (oobBytes s) true) rest s) :=
  .step (hostDue_listed h) rfl (busAck_ok h hok)

/-- The cycles of an address phase, all answered ok (R113). -/
theorem runsTo_addrs {k : OpKind} {s : State} {rest : List Input} (bytes : List Byte) (acks : List Answer)
    (h : s.inputs = acks.map Input.answer ++ rest) (hlen : acks.length = bytes.length) (hok : ∀ a ∈ acks, a.ok = true) :
    RunsTo k (bytes.map Micro.addr) s
      { s with inputs := rest, draws := s.draws + bytes.length, trace := s.trace ++ bytes.map fun b => .addr b true } := by
  induction bytes generalizing s acks with
  | nil =>
    have : acks = [] := by simpa using hlen
    subst this
    have hs : s.inputs = rest := by simpa using h
    subst hs
    simpa using RunsTo.nil k s
  | cons b bytes ih =>
    cases acks with
    | nil => simp at hlen
    | cons a acks =>
      have h1 : s.inputs = .answer a :: (acks.map Input.answer ++ rest) := by simpa using h
      refine .cons (runsTo_addr b h1 (hok a List.mem_cons_self)) ?_
      have := ih (s := received (.addr b true) (acks.map Input.answer ++ rest) s) acks rfl (by simpa using hlen)
        (fun x hx => hok x (List.mem_cons_of_mem _ hx))
      simpa [received, Nat.add_assoc, Nat.add_comm 1] using this

theorem runsTo_zeroPolls {k : OpKind} {s : State} (hh : hostDue s = false) :
    RunsTo k [.zeroPolls] s { s with polls := 0 } := .step hh rfl rfl

theorem runsTo_delay {k : OpKind} {s : State} (hh : hostDue s = false) : RunsTo k [.delay] s (logged .delay s) :=
  .step hh rfl rfl

theorem runsTo_waitRnb {k : OpKind} {s : State} {a : Answer} {rest : List Input} (h : s.inputs = .answer a :: rest)
    (hr : a.ready = true) : RunsTo k [.waitRnb] s (received (.waitrdy true) rest s) :=
  .step (hostDue_listed h) rfl (by rw [perform, doWaitRnb, busAnswer_listed h, hr, logged_drawn h]; rfl)

/-- A ready status byte whose FAIL bit is not tested (R114, R149). -/
theorem runsTo_statusRead {k : OpKind} {s : State} {a : Answer} {b : Byte} {rest : List Input}
    (h : s.inputs = .answer a :: rest) (hok : a.ok = true) (hb : a.bytes.head? = some b)
    (hr : statusReady s.cfg b = true) :
    RunsTo k [.statusRead false] s (received (.read1 (some b)) rest s) :=
  .step (hostDue_listed h) rfl (by
    simp only [perform, doStatusRead, read1Byte_listed h hok hb, hr, logged_drawn h, if_true]; rfl)

theorem runsTo_readMaker {k : OpKind} {s : State} {a : Answer} {b : Byte} {rest : List Input}
    (h : s.inputs = .answer a :: rest) (hok : a.ok = true) (hb : a.bytes.head? = some b) :
    RunsTo k [.readMaker] s { received (.read1 (some b)) rest s with idMaker := b } :=
  .step (hostDue_listed h) rfl (by
    simp only [perform, doReadMaker, read1Byte_listed h hok hb, logged_drawn h])

theorem runsTo_readDevice {k : OpKind} {s : State} {a : Answer} {b : Byte} {rest : List Input}
    (h : s.inputs = .answer a :: rest) (hok : a.ok = true) (hb : a.bytes.head? = some b) :
    RunsTo k [.readDevice] s { received (.read1 (some b)) rest s with idDevice := b } :=
  .step (hostDue_listed h) rfl (by
    simp only [perform, doReadDevice, read1Byte_listed h hok hb, logged_drawn h])

/-- A bus primitive answered fail raises the operation's bus error, its event the only change but the answer taken (R110). -/
theorem perform_bus_fails {k : OpKind} {m : Micro} {s : State} {a : Answer} {rest : List Input}
    (hm : isBusPrimitive m = true) (hi : s.inputs = .answer a :: rest) (ha : a.ok = false) :
    ∃ e, failedEvents s m = [e] ∧ perform k m s = .raised (busErr k) 0 (received e rest s) := by
  have hb := busAnswer_listed hi
  have hr : read1Byte s = none := by simp [read1Byte, hb, ha]
  cases m <;> simp [isBusPrimitive] at hm <;>
    simp only [perform, doSelect, doCmd, doAddr, doSpareWrite, doStatusRead, doReadMaker, doReadDevice, doStrideRead,
      doStrideWrite, doSpareRead, hb, ha, hr, busAck_fail hi ha, logged_drawn hi] <;>
    exact ⟨_, rfl, rfl⟩

/-- An ECC primitive answered fail raises `EccBackendError`, its event the only change but the answer taken (R110). -/
theorem perform_ecc_fails {k : OpKind} {m : Micro} {s : State} {a : Answer} {rest : List Input}
    (hm : isEccPrimitive m = true) (hi : s.inputs = .answer a :: rest) (ha : a.ok = false) :
    ∃ e, failedEvents s m = [e] ∧ perform k m s = .raised .eccBackendError 0 (received e rest s) := by
  have hb := busAnswer_listed hi
  have hc : computeAnswer s = a := answerOf_listed hi _
  cases m <;> simp [isEccPrimitive] at hm <;>
    simp only [perform, doEccStart, doEccCompute, hb, hc, ha, logged_drawn hi] <;>
    exact ⟨_, rfl, rfl⟩

end Sys2Proof.Machine
end

