-- ==== Sys2Proof/Laws/Words.lean ====
section
/-! SUPPORT. The bits of the registers' fields. -/

namespace Sys2Proof.Machine

theorem fieldAt_getLsbD {w : Nat} (lo : Nat) (v : BitVec w) (i : Nat) :
    (fieldAt lo v).getLsbD i = (decide (i < 32) && !decide (i < lo) && v.getLsbD (i - lo)) := by
  simp only [fieldAt, BitVec.getLsbD_shiftLeft, BitVec.getLsbD_setWidth]
  by_cases h : i < 32
  · simp [h, show i - lo < 32 by omega]
  · simp [h]

/-- RESULT.ERR of a result word. -/
@[simp] theorem resultErr_resultWord (e s : Byte) (d : BitVec 16) : resultErr (resultWord e s d) = e := by
  apply BitVec.eq_of_getLsbD_eq
  intro i hi
  simp only [resultErr, resultWord, BitVec.getLsbD_extractLsb', BitVec.getLsbD_or, fieldAt_getLsbD]
  simp [hi, show i < 32 by omega, show i < 16 by omega]

/-- RESULT.STATUS of a result word. -/
@[simp] theorem resultStatusOf_resultWord (e s : Byte) (d : BitVec 16) : resultStatusOf (resultWord e s d) = s := by
  apply BitVec.eq_of_getLsbD_eq
  intro i hi
  simp only [resultStatusOf, resultWord, BitVec.getLsbD_extractLsb', BitVec.getLsbD_or, fieldAt_getLsbD]
  simp [hi, show 8 + i < 32 by omega, show 8 + i < 16 by omega]

/-- RESULT.DETAIL of a result word. -/
@[simp] theorem resultDetail_resultWord (e s : Byte) (d : BitVec 16) : resultDetail (resultWord e s d) = d := by
  apply BitVec.eq_of_getLsbD_eq
  intro i hi
  have h1 : e.getLsbD (16 + i) = false := BitVec.getLsbD_of_ge _ _ (by omega)
  have h2 : s.getLsbD (16 + i - 8) = false := BitVec.getLsbD_of_ge _ _ (by omega)
  simp only [resultDetail, resultWord, BitVec.getLsbD_extractLsb', BitVec.getLsbD_or, fieldAt_getLsbD]
  simp [hi, h1, h2, show 16 + i < 32 by omega]

/-- ID.MAKER of an id word. -/
@[simp] theorem idWord_maker (m d : Byte) : (idWord m d).extractLsb' 0 8 = m := by
  apply BitVec.eq_of_getLsbD_eq
  intro i hi
  simp only [idWord, BitVec.getLsbD_extractLsb', BitVec.getLsbD_or, fieldAt_getLsbD]
  simp [hi, show i < 32 by omega]

/-- ID.DEVICE of an id word. -/
@[simp] theorem idWord_device (m d : Byte) : (idWord m d).extractLsb' 8 8 = d := by
  apply BitVec.eq_of_getLsbD_eq
  intro i hi
  simp only [idWord, BitVec.getLsbD_extractLsb', BitVec.getLsbD_or, fieldAt_getLsbD]
  simp [hi, show 8 + i < 32 by omega]

/-- Nothing stands above the two ids of an id word. -/
@[simp] theorem idWord_above (m d : Byte) : (idWord m d).extractLsb' 16 16 = 0 := by
  apply BitVec.eq_of_getLsbD_eq
  intro i hi
  have h1 : m.getLsbD (16 + i) = false := BitVec.getLsbD_of_ge _ _ (by omega)
  have h2 : d.getLsbD (16 + i - 8) = false := BitVec.getLsbD_of_ge _ _ (by omega)
  simp only [idWord, BitVec.getLsbD_extractLsb', BitVec.getLsbD_or, fieldAt_getLsbD]
  simp [h1, h2]

end Sys2Proof.Machine
end

