-- ==== Sys2Proof/Tests/Slice0.lean ====
section
/-! SUPPORT. Tests: ill-formed terms that each check refuses, descriptor words written out from the encoding, one step of
each operation against the vectors of 95_test_vectors.md, and for every statement with hypotheses a state that meets them. -/

namespace Sys2Proof.Tests

open Sys2Proof Sys2Proof.Machine

/-! ### Fixtures (95_test_vectors.md section 1) -/

/-- The geometry of FX. -/
def fxGeom : Geometry :=
  { pageSize := 8, spareSize := 4, pagesPerBlock := 2, blocksPerLun := 4, luns := 1,
    colCycles := 1, rowCycles := 2, cellWidth := 8, readStart := true }

def fx : ChipDesc := { makerId := 0xA5, deviceId := 0x5A, geom := fxGeom, name := "FX" }

def fx2 : ChipDesc :=
  { makerId := 0xA5, deviceId := 0x5A, name := "FX2"
    geom := { fxGeom with pagesPerBlock := 4, blocksPerLun := 8, readStart := false } }

/-- The geometry of FY. -/
def fyGeom : Geometry :=
  { pageSize := 4, spareSize := 2, pagesPerBlock := 2, blocksPerLun := 2, luns := 1,
    colCycles := 2, rowCycles := 3, cellWidth := 8, readStart := false }

def fy : ChipDesc := { makerId := 0xB6, deviceId := 0x6B, geom := fyGeom, name := "FY" }

def fxEcc : EccDesc := { size := 2, stride := 1, protect := 4, pos := [1, 3] }

def cx : Config :=
  { Config.default with catalog := [fx, fx2], ecc := some fxEcc, hostMem := [{ base := 0, size := 0x10000 }] }

def cy : Config := { Config.default with catalog := [fy], hostMem := [{ base := 0, size := 0x10000 }] }

/-- FX as identified, its scratch buffers holding zeros. -/
def fxDev : Device := { geom := fxGeom, oob := [0, 0, 0, 0], calcEcc := [0, 0], readEcc := [0, 0] }

/-- FY as identified, its scratch buffer holding zeros. -/
def fyDev : Device := { geom := fyGeom, oob := [0, 0], calcEcc := [], readEcc := [] }

/-- The state of CX after the vector I1. -/
def idleX : State := { State.resetWith cx with dev := some fxDev, idReg := 0x5AA5 }

/-- The state of CY after the vector I13. -/
def idleY : State := { State.resetWith cy with dev := some fyDev, idReg := 0x6BB6 }

/-- A state with an operation issued and these answers lined up. -/
def issued (i : Instr) (answers : List Answer) (s : State) : State :=
  placeDescriptor (encodeDesc0 i) (encodeDesc1 i) { s with inputs := answers.map Input.answer }

/-- The answer of a primitive that succeeds with these bytes. -/
abbrev good (x : List Byte) : Answer := goodAnswer x

/-- The answer of a primitive that fails, or of a chip that is not ready. -/
def bad : Answer := { ok := false, ready := false, bytes := [], code := 0 }

/-- The answer of a correction that does not succeed. -/
def badCode (code : Word32) : Answer := { ok := true, ready := true, bytes := [], code := code }

/-- `n` primitives that succeed. -/
def oks (n : Nat) : List Answer := List.replicate n (good [])

/-- The step answers a next state with the property. -/
def nextIs (o : Host.Outcome State Fault Refusal) (p : State → Bool) : Bool :=
  match o with
  | .next s => p s
  | .fault _ => false
  | .refused _ => false

theorem next_of {o : Host.Outcome State Fault Refusal} {p : State → Bool} (h : nextIs o p = true) :
    ∃ t, o = .next t ∧ p t = true := by
  cases o with
  | next s => exact ⟨s, rfl, h⟩
  | fault _ => simp [nextIs] at h
  | refused _ => simp [nextIs] at h

/-- The bytes of the page buffers of the vectors. -/
def bytes8 : List Byte := [0x11, 0x22, 0x33, 0x44, 0x55, 0x66, 0x77, 0x88]

def withBytes (a : Nat) (x : List Byte) (s : State) : State := { s with mem := memWriteBytes s.mem a x }

/-! ### Each check refuses an ill-formed term -/

def goodFields : Fields := { op := 1, en := false, rsvd := 0, arg := 0, buf := 0 }

theorem test_wf_fields_good : goodFields.valid = true := by decide
theorem test_wf_fields_op_zero : { goodFields with op := 0 }.valid = false := by decide
theorem test_wf_fields_op_seven : { goodFields with op := 7 }.valid = false := by decide
theorem test_wf_fields_rsvd : { goodFields with rsvd := 1 }.valid = false := by decide
theorem test_wf_fields_en : { goodFields with en := true }.valid = false := by decide
theorem test_wf_geometry_good : fxGeom.wf = true := by decide
theorem test_wf_geometry_page : { fxGeom with pageSize := 0 }.wf = false := by decide
theorem test_wf_geometry_spare : { fxGeom with spareSize := 0 }.wf = false := by decide
theorem test_wf_geometry_ppb : { fxGeom with pagesPerBlock := 0 }.wf = false := by decide
theorem test_wf_geometry_bpl : { fxGeom with blocksPerLun := 0 }.wf = false := by decide
theorem test_wf_geometry_luns : { fxGeom with luns := 0 }.wf = false := by decide
theorem test_wf_geometry_col : { fxGeom with colCycles := 9 }.wf = false := by decide
theorem test_wf_geometry_row_low : { fxGeom with rowCycles := 0 }.wf = false := by decide
theorem test_wf_geometry_row_high : { fxGeom with rowCycles := 9 }.wf = false := by decide
theorem test_wf_geometry_cell : { fxGeom with cellWidth := 16 }.wf = false := by decide
theorem test_wf_ecc_good : fxEcc.wf fxGeom = true := by decide
theorem test_wf_ecc_protect_low : { fxEcc with protect := 0 }.wf fxGeom = false := by decide
theorem test_wf_ecc_protect_high : { fxEcc with protect := 9 }.wf fxGeom = false := by decide
theorem test_wf_ecc_partition : { fxEcc with protect := 3 }.wf fxGeom = false := by decide
theorem test_wf_ecc_stride : { fxEcc with stride := 0 }.wf fxGeom = false := by decide
theorem test_wf_ecc_size : { fxEcc with stride := 2 }.wf fxGeom = false := by decide
theorem test_wf_ecc_count : { fxEcc with pos := [1] }.wf fxGeom = false := by decide
theorem test_wf_ecc_offset : { fxEcc with pos := [1, 4] }.wf fxGeom = false := by decide
theorem test_wf_poll_limit : (PollLimit.bounded 0).wf = false := by decide
theorem test_wf_config_good : cx.wf = true ∧ cy.wf = true ∧ Config.default.wf = true := by decide
theorem test_wf_config_poll : { cx with pollLimit := .bounded 0 }.wf = false := by decide
theorem test_wf_config_catalog : { cx with catalog := [{ fx with geom := { fxGeom with luns := 0 } }] }.wf = false := by
  decide
theorem test_wf_config_ecc : { cx with ecc := some { fxEcc with protect := 3 } }.wf = false := by decide

/-! ### Descriptor words, written ARG, RSVD, EN, OP from bit 63 down (R80, R83) -/

theorem test_decode_identify : decode (0#32 ++ 0#27 ++ 0#1 ++ 0b0001#4) 0 = .valid .identify := by decide
theorem test_decode_select_on : decode (0#32 ++ 0#27 ++ 1#1 ++ 0b0010#4) 0 = .valid (.select true) := by decide
theorem test_decode_select_off : decode (0#32 ++ 0#27 ++ 0#1 ++ 0b0010#4) 0 = .valid (.select false) := by decide
theorem test_decode_page_read :
    decode (5#32 ++ 0#27 ++ 0#1 ++ 0b0011#4) 0x2000 = .valid (.pageRead 5 0x2000) := by decide
theorem test_decode_page_program :
    decode (3#32 ++ 0#27 ++ 0#1 ++ 0b0100#4) 0x1000 = .valid (.pageProgram 3 0x1000) := by decide
theorem test_decode_block_erase :
    decode (0x80000001#32 ++ 0#27 ++ 0#1 ++ 0b0101#4) 0 = .valid (.blockErase 0x80000001) := by decide
theorem test_decode_detach : decode (0#32 ++ 0#27 ++ 0#1 ++ 0b0110#4) 0 = .valid .detach := by decide
/-- Vectors X1, X2, X3. -/
theorem test_decode_reserved_op :
    decode 0 0 = .invalid .reservedOp ∧ decode 7 0 = .invalid .reservedOp ∧ decode 15 0 = .invalid .reservedOp := by decide
/-- Vectors X4, X7, and the highest RSVD bit. -/
theorem test_decode_reserved_bits :
    decode 0x21 0 = .invalid .reservedBits ∧ decode 0x8000000000000032 0 = .invalid .reservedBits ∧
    decode 0x80000001 0 = .invalid .reservedBits := by decide
/-- Vectors X5, X6. -/
theorem test_decode_enable :
    decode 0x11 0 = .invalid .enable ∧ decode 0x0000000500000014 0 = .invalid .enable := by decide
/-- Vectors X8, X9. -/
theorem test_decode_ignored :
    decode 0xFFFFFFFF00000006 0 = .valid .detach ∧ decode 0x0000000700000002 0x1234 = .valid (.select false) := by decide
/-- The sixteen bytes of `PAGE_READ 5, [0x2000]`, DESC0 first, each word least significant byte first. -/
theorem test_decode_bytes :
    decodeBytes [3, 0, 0, 0, 5, 0, 0, 0, 0, 0x20, 0, 0, 0, 0, 0, 0] = .valid (.pageRead 5 0x2000) := by decide
theorem test_decode_bytes_short : decodeBytes [1] = .invalid .tooShort := by decide
theorem test_decode_table_words :
    decodeTableWord 32 1 = some .identify ∧ decodeTableWord 32 0x12 = some (.select true) ∧
    decodeTableWord 32 3 = some (.pageRead 0 0) ∧ decodeTableWord 32 4 = some (.pageProgram 0 0) ∧
    decodeTableWord 32 5 = some (.blockErase 0) ∧ decodeTableWord 32 6 = some .detach ∧
    decodeTableWord 32 0 = none ∧ decodeTableWord 128 (0x2000 * 2 ^ 64 + 0x500000003) = some (.pageRead 5 0x2000) := by
  decide
/-- The descriptor table of section 1. -/
theorem test_encode_words :
    encode (.pageRead 2 0x4010) = (0x0000000200000003, 0x4010) ∧ encode (.select true) = (0x12, 0) ∧
    encode (.pageProgram 5 0x1000) = (0x0000000500000004, 0x1000) ∧ encode (.blockErase 3) = (0x0000000300000005, 0) := by
  decide

/-! ### Assembler lines (R95, R96) -/

theorem test_asm_page_read : parseLine "PAGE_READ 5, [0x2000] ; a page" = some (.op (.pageRead 5 0x2000)) := by decide
theorem test_asm_deselect : parseLine "DESELECT" = some (.op (.select false)) := by decide
theorem test_asm_wait : parseLine "WAIT" = some .wait := by decide
theorem test_asm_select_range : parseLine "SELECT 2" = none := by decide
/-- Hexadecimal digits of either case, and letters that are no decimal digits. -/
theorem test_asm_digits :
    parseLine "BLOCK_ERASE 0x1aF" = some (.op (.blockErase 431)) ∧ parseLine "BLOCK_ERASE 109" = some (.op (.blockErase 109)) ∧
    parseLine "BLOCK_ERASE 1A" = none ∧ parseLine "BLOCK_ERASE 0x" = none ∧ parseLine "BLOCK_ERASE 0xG" = none := by decide

/-! ### One step of each operation -/

/-- The descriptor of each row of the opcode table runs as the first operation after reset. -/
theorem test_first_operation :
    nextIs (step (State.reset.withFetchWord 32 1)) (fun _ => true) = true ∧
    nextIs (step (State.reset.withFetchWord 32 2)) (fun _ => true) = true ∧
    nextIs (step (State.reset.withFetchWord 32 3)) (fun t => t.result == 5) = true ∧
    nextIs (step (State.reset.withFetchWord 32 4)) (fun t => t.result == 5) = true ∧
    nextIs (step (State.reset.withFetchWord 32 5)) (fun t => t.result == 5) = true ∧
    nextIs (step (State.reset.withFetchWord 32 6)) (fun t => t.result == 0 && t.phase == .idle) = true := by decide

/-- Vector I1. -/
theorem test_identify_first_match :
    nextIs (exec .identify (issued .identify (oks 4 ++ [good [0xA5], good [0x5A]]) (State.resetWith cx))) (fun t =>
      t.result == 0 && t.idReg == 0x5AA5 && geometry t == fxGeom && engstat t == 0x0A && readReg t 10 == 0x10821 &&
      t.trace == [.cmd 0xFF true, .waitrdy true, .cmd 0x90 true, .addr 0 true, .read1 (some 0xA5), .read1 (some 0x5A)]) =
      true := by decide

/-- Vector I11. -/
theorem test_identify_bracket_fails :
    nextIs (exec .identify (issued .identify (oks 3 ++ [bad]) (State.resetWith { cx with idSelect := .bracket })))
      (fun t => t.result == 2 && t.dev == none && engstat t == 0x0C &&
        t.trace == [.sel true true, .cmd 0xFF true, .waitrdy true, .cmd 0x90 false]) = true := by decide

/-- Vector S4. -/
theorem test_select_unidentified :
    nextIs (exec (.select true) (issued (.select true) (oks 1) (State.resetWith cx))) (fun t =>
      t.result == 0 && t.ce && engstat t == 0x0C && t.trace == [.sel true true]) = true := by decide

/-- Vector S3. -/
theorem test_select_fails :
    nextIs (exec (.select false) (issued (.select false) [bad] { idleX with ce := true })) (fun t =>
      t.result == 1 && t.ce && t.trace == [.sel false false]) = true := by decide

/-- Vector PP1. -/
theorem test_page_program :
    nextIs (exec (.pageProgram 5 0x1000) (issued (.pageProgram 5 0x1000)
        (oks 7 ++ [good [0x44]] ++ oks 2 ++ [good [0xCC]] ++ oks 3 ++ [good [0x40]]) (withBytes 0x1000 bytes8 idleX)))
      (fun t => t.result == 0x4000 && t.dev == some { fxDev with oob := [0xFF, 0x44, 0xFF, 0xCC], calcEcc := [0x44, 0xCC] } &&
        t.trace == [.sel true true, .cmd 0x80 true, .addr 0 true, .addr 5 true, .addr 0 true, .eccstart true,
          .write [0x11, 0x22, 0x33, 0x44] true, .ecccompute (some [0x44]), .eccstart true,
          .write [0x55, 0x66, 0x77, 0x88] true, .ecccompute (some [0xCC]), .write [0xFF, 0x44, 0xFF, 0xCC] true,
          .cmd 0x10 true, .cmd 0x70 true, .read1 (some 0x40)]) = true := by decide

/-- Vector PP4. -/
theorem test_page_program_write_fails :
    nextIs (exec (.pageProgram 5 0x1000) (issued (.pageProgram 5 0x1000)
        (oks 7 ++ [good [0x44], good [], bad]) (withBytes 0x1000 bytes8 idleX)))
      (fun t => t.result == 1 && t.dev == some { fxDev with calcEcc := [0x44, 0] }) = true := by decide

/-- Vector PR3. -/
theorem test_page_read_uncorrectable :
    nextIs (exec (.pageRead 5 0x2000) (issued (.pageRead 5 0x2000)
        (oks 8 ++ [good [0x11, 0x22, 0x33, 0x44], good [0x44], good [], good [0x55, 0x66, 0x77, 0x89], good [0xCD],
          good [0xFF, 0x44, 0xFF, 0xCC], good [0x11, 0x22, 0x33, 0x44], badCode 1]) idleX))
      (fun t => t.result == 0x10004 && memReadBytes t.mem 0x2000 8 == [0x11, 0x22, 0x33, 0x44, 0x55, 0x66, 0x77, 0x89] &&
        t.dev == some { fxDev with oob := [0xFF, 0x44, 0xFF, 0xCC], calcEcc := [0x44, 0xCD], readEcc := [0x44, 0xCC] }) =
      true := by decide

/-- Vector PR13. -/
theorem test_page_read_no_ecc :
    nextIs (exec (.pageRead 2 0x2000) (issued (.pageRead 2 0x2000)
        (oks 8 ++ [good [1, 2, 3, 4], good [0xAA, 0xBB]]) idleY))
      (fun t => t.result == 0 && memReadBytes t.mem 0x2000 4 == [1, 2, 3, 4] && t.dev == some { fyDev with oob := [0xAA, 0xBB] } &&
        t.trace == [.sel true true, .cmd 0 true, .addr 0 true, .addr 0 true, .addr 2 true, .addr 0 true, .addr 0 true,
          .waitrdy true, .read 4 (some [1, 2, 3, 4]), .read 2 (some [0xAA, 0xBB])]) = true := by decide

/-- Vector BE2. -/
theorem test_block_erase_fail_bit :
    nextIs (exec (.blockErase 3) (issued (.blockErase 3) (oks 6 ++ [good [0x41]]) idleX)) (fun t =>
      t.result == 0x4102 && t.trace == [.sel true true, .cmd 0x60 true, .addr 3 true, .addr 0 true, .cmd 0x10 true,
        .cmd 0x70 true, .read1 (some 0x41)]) = true := by decide

/-- Vectors BE3 and BE8: the row of a block, bit 16 not sent. -/
theorem test_block_erase_row :
    nextIs (exec (.blockErase 0x10003) (issued (.blockErase 0x10003) (oks 6 ++ [good [0x40]])
        { idleX with cfg := { cx with eraseRow := .pageOfBlock } })) (fun t =>
      t.result == 0x4000 && t.trace == [.sel true true, .cmd 0x60 true, .addr 6 true, .addr 0 true, .cmd 0x10 true,
        .cmd 0x70 true, .read1 (some 0x40)]) = true := by decide

/-- Vector D1. -/
theorem test_detach :
    nextIs (exec .detach (issued .detach [] { idleX with ce := true })) (fun t =>
      t.result == 0 && t.dev == none && t.idReg == 0 && t.ce && engstat t == 0x0C && t.trace == []) = true := by decide

/-- Vector D2: DETACH of an unidentified instance. -/
theorem test_detach_unidentified :
    nextIs (exec .detach (issued .detach [] (State.resetWith cx))) (fun t => t.result == 0 && t.dev == none) = true := by
  decide

/-- Vector H7: the reset event in the middle of PR1 keeps the bytes that have landed. -/
theorem test_reset_event :
    nextIs (Host.Core.run core 2 { issued (.pageRead 5 0x2000) [] idleX with
        inputs := (oks 8 ++ [good [0x11, 0x22, 0x33, 0x44]]).map Input.answer ++ [.host .reset] }) (fun t =>
      t.phase == .idle && t.result == 0 && engstat t == 8 && memReadBytes t.mem 0x2000 5 == [0x11, 0x22, 0x33, 0x44, 0]) =
      true := by decide

/-- A read of five pages of FX, two of them done. -/
def thirdPage : Request :=
  { kind := .read, stage := .moving, index := 2, buf := 0x4010, count := 5, completed := 2, error := 0 }

/-- Worked example W2: the third of five pages fails and the residual is three pages. -/
theorem test_request_residual : residual fxGeom (requestAdvance fxGeom thirdPage 4).1 = 24 := by decide

/-- Worked example W1. -/
theorem test_media_bytes :
    mediaBytes { fxGeom with pageSize := 2048, pagesPerBlock := 64, blocksPerLun := 2048 } = 268435456 := by decide

/-! ### States that meet the hypotheses of each statement -/

/-- An issued operation is just issued. -/
theorem just_issued (i : Instr) (answers : List Answer) (s : State) : JustIssued (issued i answers s) :=
  ⟨rfl, rfl, rfl, rfl⟩

/-- Nothing of an operation at its start is outside its sequence. -/
theorem at_own_steps_start {i : Instr} {s : State} (h : s.pos = .start) : AtOwnSteps i s := by
  intro ms hms
  rw [h] at hms
  cases hms

/-- The state of an operation whose sequence stands at these steps. -/
def standing (i : Instr) (ms : List Micro) (inputs : List Input) (s : State) : State :=
  { issued i [] s with pos := .run ms, inputs := inputs }

def listed (answers : List Answer) : List Input := answers.map Input.answer

theorem witness_ResetEventRestoresEveryItem :
    ∃ (s : State) (rest : List Input), s.phase = .busy ∧ s.dev ≠ none ∧ s.cfg.wf = true ∧
      s.inputs = .host .reset :: rest :=
  ⟨{ issued (.pageRead 5 0x2000) [] idleX with inputs := [.host .reset] }, [], by decide⟩

theorem witness_ResetStateReadsZero : (11 : Nat) ≠ 3 ∧ (0 : Nat) ≠ 3 ∧ (2 : Nat) ≠ 3 ∧ (4 : Nat) ≠ 3 := by decide

theorem witness_DescriptorWritesIssueOrStore_issue :
    ∃ (s : State) (rest : List Input), s.cfg.wf = true ∧ s.inputs = .host (.writeReg 0 3) :: rest ∧ s.phase = .idle :=
  ⟨{ idleX with inputs := [.host (.writeReg 0 3)] }, [], by decide⟩

theorem witness_DescriptorWritesIssueOrStore_store :
    ∃ (s : State) (rest : List Input), s.cfg.wf = true ∧ s.inputs = .host (.writeReg 1 3) :: rest ∧ s.phase = .idle :=
  ⟨{ idleX with inputs := [.host (.writeReg 1 3)] }, [], by decide⟩

theorem witness_DescriptorWritesIssueOrStore_refused :
    (∃ (s : State) (rest : List Input), s.cfg.wf = true ∧ s.inputs = .host (.writeReg 0 3) :: rest ∧ s.phase = .busy) ∧
    ∃ (s : State) (rest : List Input), s.cfg.wf = true ∧ s.inputs = .host (.writeReg 1 3) :: rest ∧ s.phase = .busy :=
  ⟨⟨{ issued .identify [] idleX with inputs := [.host (.writeReg 0 3)] }, [], by decide⟩,
   ⟨{ issued .identify [] idleX with inputs := [.host (.writeReg 1 3)] }, [], by decide⟩⟩

theorem witness_DescriptorWritesIssueOrStore_changes :
    (∃ s t : State, step s = .next t ∧ t.desc0 ≠ s.desc0) ∧ ∃ s t : State, step s = .next t ∧ t.desc1 ≠ s.desc1 := by
  constructor
  · obtain ⟨t, h, hp⟩ := next_of (o := step { idleX with inputs := [.host (.writeReg 0 3)] }) (p := fun t => t.desc0 != 0)
      (by decide)
    exact ⟨_, t, h, fun e => bne_iff_ne.mp hp (e.trans (by decide))⟩
  · obtain ⟨t, h, hp⟩ := next_of (o := step { idleX with inputs := [.host (.writeReg 1 3)] }) (p := fun t => t.desc1 != 0)
      (by decide)
    exact ⟨_, t, h, fun e => bne_iff_ne.mp hp (e.trans (by decide))⟩

theorem witness_EngstatShowsInternalState :
    ∃ (s : State) (rest : List Input), s.cfg.wf = true ∧ s.inputs = .host (.writeReg 3 0xFF) :: rest ∧ engstat s = 0x0F :=
  ⟨{ issued .identify [] { idleX with ce := true } with inputs := [.host (.writeReg 3 0xFF)] }, [], by decide⟩

/-- Sizes at the top of what a register shows, and one above it. -/
theorem witness_GeometryRegistersReadGeometry_identified :
    ∃ (s : State) (d : Device), s.dev = some d ∧ d.geom.wf = true ∧ d.geom.pageSize = 2 ^ 32 - 1 ∧
      d.geom.spareSize < 2 ^ 32 ∧ d.geom.pagesPerBlock < 2 ^ 32 ∧ d.geom.blocksPerLun < 2 ^ 32 ∧ d.geom.luns < 2 ^ 32 ∧
      d.geom.colCycles = 8 ∧ d.geom.rowCycles = 8 :=
  ⟨{ idleX with dev := some { fxDev with geom := { fxGeom with pageSize := 2 ^ 32 - 1, colCycles := 8, rowCycles := 8 } } },
   { fxDev with geom := { fxGeom with pageSize := 2 ^ 32 - 1, colCycles := 8, rowCycles := 8 } }, by decide⟩

theorem witness_GeometryRegistersReadGeometry_unidentified : State.reset.dev = none ∧ (5 : Nat) ≤ 5 ∧ 10 ≤ 10 ∧ 10 < 11 := by
  decide

theorem witness_GeometryRegistersReadGeometry_write :
    ∃ (s : State) (rest : List Input), s.cfg.wf = true ∧ s.inputs = .host (.writeReg 2 0xFF) :: rest ∧ s.result ≠ 0xFF :=
  ⟨{ idleX with inputs := [.host (.writeReg 2 0xFF)] }, [], by decide⟩

theorem witness_ResultChangesOnlyAtCompletion : ∃ s t : State, step s = .next t ∧ t.result ≠ s.result := by
  obtain ⟨t, h, hp⟩ := next_of (o := step (State.reset.withFetchWord 32 0)) (p := fun t => t.result != 0) (by decide)
  exact ⟨_, t, h, fun e => bne_iff_ne.mp hp (e.trans (by decide))⟩

theorem witness_RaisedErrorCompletes :
    ∃ s : State, s.pos = .fail .uncorrectableEcc 1 ∧ hostDue s = false :=
  ⟨{ idleX with pos := .fail .uncorrectableEcc 1 }, by decide⟩

theorem witness_SuccessfulOperationCompletes : ∃ s : State, s.pos = .run [] ∧ hostDue s = false :=
  ⟨{ idleX with pos := .run [] }, by decide⟩

theorem witness_IdleNpeStays :
    ∃ s : State, s.cfg.wf = true ∧ s.phase = .idle ∧ ∀ e rest, s.inputs ≠ .host e :: rest :=
  ⟨idleX, by decide, rfl, fun _ _ h => by cases h⟩

/-- A protect length that does not divide the page (condition 3). -/
theorem witness_UnfitEccDescriptorIsRefused :
    ∃ (s : State) (x : EccDesc) (e : ChipDesc), s.cfg.ecc = some x ∧ e ∈ s.cfg.catalog ∧ ¬ EccFits x e.geom :=
  ⟨State.resetWith { cx with ecc := some { fxEcc with protect := 3 } }, { fxEcc with protect := 3 }, fx, rfl,
   List.mem_cons_self, by unfold EccFits; decide⟩

/-- An entry with nine row cycles, and the admitted configuration CX. -/
theorem witness_UnfitCatalogIsRefused :
    (∃ (s : State) (e : ChipDesc), e ∈ s.cfg.catalog ∧ ¬ GeometryFits e.geom) ∧
    ∃ s : State, s.cfg.pollLimit ≠ .bounded 0 ∧ (∀ e ∈ s.cfg.catalog, GeometryFits e.geom) ∧
      ∀ x, s.cfg.ecc = some x → ∀ e ∈ s.cfg.catalog, EccFits x e.geom :=
  ⟨⟨State.resetWith { cx with catalog := [{ fx with geom := { fxGeom with rowCycles := 9 } }] },
     { fx with geom := { fxGeom with rowCycles := 9 } }, List.mem_cons_self, by unfold GeometryFits; decide⟩,
   ⟨idleX, by decide, by unfold GeometryFits; decide, by rintro x ⟨⟩; unfold EccFits; decide⟩⟩

theorem witness_StepRunsDecodedInstruction :
    ∃ (s : State) (i : Instr), s.cfg.wf = true ∧ s.phase = .busy ∧ hostDue s = false ∧ decodeFields s.cur = .valid i :=
  ⟨issued (.blockErase 3) [] idleX, .blockErase 3, by decide⟩

theorem witness_InvalidDescriptorCompletesNotSupported :
    ∃ s : State, s.cfg.wf = true ∧ JustIssued s ∧ hostDue s = false ∧ ∀ i, decodeFields s.cur ≠ .valid i := by
  refine ⟨placeDescriptor 0x21 0 idleX, by decide, ⟨rfl, rfl, rfl, rfl⟩, by decide, fun i h => ?_⟩
  rw [show decodeFields (placeDescriptor 0x21 0 idleX).cur = .invalid .reservedBits by decide] at h
  cases h

theorem witness_EncodeOfDecodeKeepsDecodedBits :
    decode 0xFFFFFFFF00000003 0xFFFFFFFFFFFFFFFF = .valid (.pageRead 0xFFFFFFFF 0xFFFFFFFFFFFFFFFF) ∧
    decode 0xFFFFFFFF00000006 1 = .valid .detach := by decide

theorem witness_IgnoredFieldsDoNotMatter :
    decodeFields { goodFields with op := 1 } = .valid .identify ∧
    decodeFields { goodFields with op := 2, en := true } = .valid (.select true) ∧
    decodeFields { goodFields with op := 6 } = .valid .detach ∧
    decodeFields { goodFields with op := 5, arg := 3 } = .valid (.blockErase 3) := by decide

/-- A next state of a decoded operation, and an erase in flight, which is no page transfer. -/
theorem witness_IgnoredFieldsDoNotMatter_exec :
    (∃ s t : State, exec (.blockErase 3) s = .next t) ∧
    ∃ s : State, (∀ page buf, decodeFields s.cur ≠ .valid (.pageRead page buf)) ∧
      ∀ page buf, decodeFields s.cur ≠ .valid (.pageProgram page buf) := by
  constructor
  · obtain ⟨t, h, _⟩ := next_of (o := exec (.blockErase 3) (issued (.blockErase 3) (oks 6 ++ [good [0x40]]) idleX))
      (p := fun _ => true) (by decide)
    exact ⟨_, t, h⟩
  · refine ⟨issued (.blockErase 3) [] idleX, ?_, ?_⟩ <;>
      rw [show decodeFields (issued (.blockErase 3) [] idleX).cur = .valid (.blockErase 3) by decide] <;> simp

theorem witness_AssembledLineIssuesItsOperation :
    ∃ (i : Instr) (s : State) (rest : List Input), s.cfg.wf = true ∧ s.phase = .idle ∧
      s.inputs = (assemble (.op i)).map Input.host ++ rest :=
  ⟨.pageRead 5 0x2000, { idleX with inputs := (assemble (.op (.pageRead 5 0x2000))).map Input.host }, [], by decide⟩

theorem witness_FailedPrimitiveEndsTheOperation :
    (∃ (s : State) (m : Micro) (ms : List Micro) (a : Answer) (rest : List Input), s.pos = .run (m :: ms) ∧
      blocked s m = false ∧ s.inputs = .answer a :: rest ∧ hostFirst rest = false ∧ a.ok = false ∧
      isBusPrimitive m = true) ∧
    ∃ (s : State) (m : Micro) (ms : List Micro) (a : Answer) (rest : List Input), s.pos = .run (m :: ms) ∧
      blocked s m = false ∧ s.inputs = .answer a :: rest ∧ hostFirst rest = false ∧ a.ok = false ∧
      isEccPrimitive m = true :=
  ⟨⟨standing (.pageRead 5 0x2000) [.strideRead 0x2000 1] (listed [bad]) idleX, .strideRead 0x2000 1, [], bad, [],
    by decide⟩,
   ⟨standing (.pageRead 5 0x2000) [.eccCompute 1] (listed [bad]) idleX, .eccCompute 1, [], bad, [], by decide⟩⟩

/-- Eight row cycles, so that cycles 4 to 7 exist; and two indices that agree in the cycles of FX and differ above. -/
theorem witness_AddressPhaseBytes :
    (true = true ∧ 0 < fxGeom.colCycles) ∧ 1 < fxGeom.rowCycles ∧ (4 ≤ 4 ∧ 4 < { fxGeom with rowCycles := 8 }.rowCycles) ∧
    ((0x10003 : Word32) ≠ 3 ∧ (0x10003 : Word32).toNat % 256 ^ fxGeom.rowCycles = (3 : Word32).toNat % 256 ^ fxGeom.rowCycles) := by
  decide

theorem witness_NotReadyAnswerKeepsWaiting :
    (∃ (s : State) (ms : List Micro) (a : Answer) (rest : List Input) (b : Byte), s.inputs = .answer a :: rest ∧
      pollLimitReached s.cfg (s.polls + 1) = false ∧ s.pos = .run (.statusRead true :: ms) ∧ a.ok = true ∧
      a.bytes.head? = some b ∧ statusReady s.cfg b = false) ∧
    ∃ (s : State) (ms : List Micro) (a : Answer) (rest : List Input), s.inputs = .answer a :: rest ∧
      pollLimitReached s.cfg (s.polls + 1) = false ∧ s.pos = .run (.waitRnb :: ms) ∧ a.ready = false :=
  ⟨⟨standing (.blockErase 3) [.statusRead true] (listed [good [1]]) { idleX with cfg := { cx with pollLimit := .bounded 2 } },
    [], good [1], [], 1, by decide⟩,
   ⟨standing (.pageRead 5 0x2000) [.waitRnb] (listed [bad]) idleX, [], bad, [], by decide⟩⟩

theorem witness_PollLimitRaisesTimeout :
    (∃ (s : State) (n : Nat) (ms : List Micro) (a : Answer) (rest : List Input) (b : Byte),
      s.cfg.pollLimit = .bounded n ∧ n ≤ s.polls + 1 ∧ s.inputs = .answer a :: rest ∧ hostFirst rest = false ∧
      s.pos = .run (.statusRead false :: ms) ∧ a.ok = true ∧ a.bytes.head? = some b ∧ statusReady s.cfg b = false) ∧
    ∃ (s : State) (n : Nat) (ms : List Micro) (a : Answer) (rest : List Input),
      s.cfg.pollLimit = .bounded n ∧ n ≤ s.polls + 1 ∧ s.inputs = .answer a :: rest ∧ hostFirst rest = false ∧
      s.pos = .run (.waitRnb :: ms) ∧ a.ready = false :=
  ⟨⟨standing .identify [.statusRead false] (listed [good [1]]) (State.resetWith { cx with pollLimit := .bounded 1 }), 1,
    [], good [1], [], 1, by decide⟩,
   ⟨standing .identify [.waitRnb] (listed [bad]) (State.resetWith { cx with pollLimit := .bounded 1 }), 1, [], bad, [],
    by decide⟩⟩

theorem witness_UnboundedWaitHangs_ready_line :
    ∃ (i : Instr) (s : State) (ms : List Micro) (rest : List Input) (answers : List Answer), s.cfg.wf = true ∧
      s.cfg.pollLimit = .unbounded ∧ s.phase = .busy ∧ decodeFields s.cur = .valid i ∧ answers.length = 2 ∧
      s.pos = .run (.waitRnb :: ms) ∧ (∀ a ∈ answers, a.ready = false) ∧ s.inputs = answers.map Input.answer ++ rest :=
  ⟨.pageRead 5 0x2000, standing (.pageRead 5 0x2000) [.waitRnb] (listed [bad, bad]) idleX, [], [], [bad, bad], by decide⟩

theorem witness_UnboundedWaitHangs_status_poll :
    ∃ (i : Instr) (s : State) (ms : List Micro) (rest : List Input) (answers : List (Answer × Answer)),
      s.cfg.wf = true ∧ s.cfg.pollLimit = .unbounded ∧ s.phase = .busy ∧ decodeFields s.cur = .valid i ∧
      answers ≠ [] ∧ s.pos = .run (.delay :: .cmd s.cfg.bus.cmdStatus :: .statusRead true :: ms) ∧
      (∀ p ∈ answers, p.1.ok = true ∧ p.2.ok = true ∧ ∃ b, p.2.bytes.head? = some b ∧ statusReady s.cfg b = false) ∧
      s.inputs = answers.flatMap (fun p => [Input.answer p.1, Input.answer p.2]) ++ rest := by
  refine ⟨.blockErase 3, standing (.blockErase 3) [.delay, .cmd 0x70, .statusRead true] (listed [good [], good [1]]) idleX,
    [], [], [(good [], good [1])], by decide, by decide, by decide, by decide, by decide, by decide, ?_, by decide⟩
  intro p hp
  have : p = (good [], good [1]) := by simpa using hp
  subst this
  exact ⟨rfl, rfl, 1, rfl, by decide⟩

theorem witness_StatusCheckDecidesTheResult :
    ∃ (i : Instr) (s : State) (a : Answer) (b : Byte) (rest : List Input), s.pos = .run [.statusRead true] ∧
      Answered s [a] rest ∧ a.ok = true ∧ a.bytes.head? = some b ∧ statusReady s.cfg b = true ∧ i ≠ .identify :=
  ⟨.blockErase 3, standing (.blockErase 3) [.statusRead true] (listed [good [0x41]]) idleX, good [0x41], 0x41, [], rfl,
   ⟨rfl, rfl⟩, rfl, rfl, by decide, by decide⟩

/-- The page buffers at 0xFFFC and at the top of the address space (vector PP10, R63). -/
theorem witness_UnadmittedPageBufferIsStuck :
    (∃ s : State, pageAdmitted s 0xFFFC = false ∧ hostDue s = false ∧ s.pos = .run [.strideWrite 0xFFFC 0]) ∧
    (∃ s : State, pageAdmitted s 0xFFFFFFFFFFFFFFFC = false ∧ hostDue s = false ∧
      s.pos = .run [.strideRead 0xFFFFFFFFFFFFFFFC 0]) ∧ pageAdmitted idleX 0xFFF8 = true :=
  ⟨⟨standing (.pageProgram 5 0xFFFC) [.strideWrite 0xFFFC 0] [] idleX, by decide⟩,
   ⟨standing (.pageRead 5 0xFFFFFFFFFFFFFFFC) [.strideRead 0xFFFFFFFFFFFFFFFC 0] []
      { idleX with cfg := { cx with hostMem := [{ base := 0, size := 2 ^ 64 }] } }, by decide⟩, by decide⟩

/-- Vector PP10. -/
theorem witness_ProgramStopsBeforeUnadmittedBuffer :
    ∃ (s : State) (d : Device) (acks : List Answer) (rest : List Input), JustIssued s ∧ s.dev = some d ∧
      pageAdmitted s 0xFFFC = false ∧ 1 ≤ strideCount s.cfg d.geom ∧ Answered s acks rest ∧ (∀ a ∈ acks, a.ok = true) ∧
      acks.length = 2 + d.geom.colCycles + d.geom.rowCycles + (if s.cfg.ecc.isSome then 1 else 0) :=
  ⟨issued (.pageProgram 5 0xFFFC) (oks 6) idleX, fxDev, oks 6, [], just_issued _ _ _, rfl, by decide, by decide,
   ⟨by decide, rfl⟩, by decide, by decide⟩

/-- The status mode with select bracketing, and the plain mode. -/
theorem witness_IdentifyLoadsMatchedChip :
    (∃ (s : State) (e : ChipDesc) (rest : List Input), JustIssued s ∧ s.dev = none ∧ capabilitiesPresent s.cfg = true ∧
      statusReady s.cfg 0x41 = true ∧ catalogMatch s.cfg 0xA5 0x5A = some e ∧ s.cfg.idSelect = .bracket ∧
      Answered s (List.replicate ((if s.cfg.idSelect = .bracket then 1 else 0) + 1 +
          (if s.cfg.resetWait = .status then 2 else 1) + 2) (goodAnswer [0x41]) ++
        [goodAnswer [0xA5], goodAnswer [0x5A]] ++
        List.replicate (if s.cfg.idSelect = .bracket then 1 else 0) (goodAnswer [])) rest) ∧
    ∃ (s : State) (e : ChipDesc) (rest : List Input), JustIssued s ∧ s.dev = none ∧ capabilitiesPresent s.cfg = true ∧
      statusReady s.cfg 0x40 = true ∧ catalogMatch s.cfg 0xA5 0x5A = some e ∧
      (s.cfg.idSelect = .none ∧ s.cfg.resetWait = .rnb) ∧
      Answered s (List.replicate ((if s.cfg.idSelect = .bracket then 1 else 0) + 1 +
          (if s.cfg.resetWait = .status then 2 else 1) + 2) (goodAnswer [0x40]) ++
        [goodAnswer [0xA5], goodAnswer [0x5A]] ++
        List.replicate (if s.cfg.idSelect = .bracket then 1 else 0) (goodAnswer [])) rest :=
  ⟨⟨issued .identify (List.replicate 6 (good [0x41]) ++ [good [0xA5], good [0x5A], good []])
      (State.resetWith { cx with idSelect := .bracket, resetWait := .status }), fx, [], just_issued _ _ _, rfl, by decide,
    by decide, by decide, rfl, ⟨by decide, rfl⟩⟩,
   ⟨issued .identify (List.replicate 4 (good [0x40]) ++ [good [0xA5], good [0x5A]]) (State.resetWith cx), fx, [],
    just_issued _ _ _, rfl, by decide, by decide, by decide, ⟨rfl, rfl⟩, ⟨by decide, rfl⟩⟩⟩

/-- Vector I3. -/
theorem witness_IdentifyWithoutMatchFails :
    ∃ (s : State) (rest : List Input), JustIssued s ∧ s.dev = none ∧ capabilitiesPresent s.cfg = true ∧
      s.cfg.idSelect = .none ∧ s.cfg.resetWait = .rnb ∧
      (∀ e ∈ s.cfg.catalog, ¬ (e.makerId = 0x12 ∧ e.deviceId = 0x34)) ∧
      Answered s (List.replicate 4 (goodAnswer []) ++ [goodAnswer [0x12], goodAnswer [0x34]]) rest :=
  ⟨issued .identify (oks 4 ++ [good [0x12], good [0x34]]) (State.resetWith cx), [], just_issued _ _ _, rfl, by decide, rfl,
   rfl, by decide, ⟨by decide, rfl⟩⟩

/-- Vectors I8 and I5. -/
theorem witness_IdentifyIsTurnedAway :
    (∃ s : State, JustIssued s ∧ hostDue s = false ∧ identified s = true) ∧
    ∃ s : State, JustIssued s ∧ hostDue s = false ∧ identified s = false ∧ capabilitiesPresent s.cfg = false :=
  ⟨⟨issued .identify [] idleX, just_issued _ _ _, by decide⟩,
   ⟨issued .identify [] (State.resetWith { cx with eccCaps := { cx.eccCaps with correct := false } }), just_issued _ _ _,
    by decide⟩⟩

/-- Vector I2: of two entries with the same ids the first one is taken; and ids that no entry has. -/
theorem witness_CatalogScanTakesFirstMatch :
    catalogMatch cx 0xA5 0x5A = some fx ∧ catalogMatch cx 0x5A 0xA5 = none := by decide

theorem witness_DetachCompletes : ∃ s : State, JustIssued s ∧ hostDue s = false :=
  ⟨issued .detach [] idleX, just_issued _ _ _, by decide⟩

theorem witness_SelectCompletes :
    (∃ (s : State) (a : Answer) (rest : List Input), JustIssued s ∧ Answered s [a] rest ∧ a.ok = true) ∧
    ∃ (s : State) (a : Answer) (rest : List Input), JustIssued s ∧ Answered s [a] rest ∧ a.ok = false :=
  ⟨⟨issued (.select true) (oks 1) idleX, good [], [], just_issued _ _ _, ⟨rfl, rfl⟩, rfl⟩,
   ⟨issued (.select false) [bad] idleX, bad, [], just_issued _ _ _, ⟨rfl, rfl⟩, rfl⟩⟩

theorem witness_UnidentifiedOperationIsNotSupported :
    ∃ s : State, JustIssued s ∧ hostDue s = false ∧ identified s = false :=
  ⟨issued (.blockErase 3) [] (State.resetWith cx), just_issued _ _ _, by decide⟩

theorem witness_BlockEraseCompletes :
    ∃ (s : State) (d : Device) (acks : List Answer) (a : Answer) (b : Byte) (rest : List Input), JustIssued s ∧
      s.dev = some d ∧ Answered s (acks ++ [a]) rest ∧ (∀ x ∈ acks, x.ok = true) ∧ acks.length = 4 + d.geom.rowCycles ∧
      a.ok = true ∧ a.bytes.head? = some b ∧ statusReady s.cfg b = true :=
  ⟨issued (.blockErase 3) (oks 6 ++ [good [0x40]]) idleX, fxDev, oks 6, good [0x40], 0x40, [], just_issued _ _ _, rfl,
   ⟨by decide, rfl⟩, by decide, by decide, rfl, rfl, by decide⟩

/-- The two row modes, with a product past 2^32. -/
theorem witness_BlockEraseCompletes_row :
    cx.eraseRow = .blockIndex ∧ { cx with eraseRow := .pageOfBlock }.eraseRow = .pageOfBlock ∧
    (0xFFFFFFFF : Word32).toNat * fxGeom.pagesPerBlock ≥ 2 ^ 32 := by decide

/-- Vector PP9. -/
theorem witness_PageProgramCompletesWithoutEcc :
    ∃ (s : State) (d : Device) (acks : List Answer) (a : Answer) (b : Byte) (rest : List Input), JustIssued s ∧
      s.dev = some d ∧ s.cfg.ecc = none ∧ pageAdmitted s 0x1000 = true ∧ Answered s (acks ++ [a]) rest ∧
      (∀ x ∈ acks, x.ok = true) ∧ acks.length = 6 + d.geom.colCycles + d.geom.rowCycles ∧ a.ok = true ∧
      a.bytes.head? = some b ∧ statusReady s.cfg b = true :=
  ⟨issued (.pageProgram 3 0x1000) (oks 11 ++ [good [0x40]]) idleY, fyDev, oks 11, good [0x40], 0x40, [],
   just_issued _ _ _, rfl, rfl, by decide, ⟨by decide, rfl⟩, by decide, by decide, rfl, rfl, by decide⟩

/-- Vector PP1. -/
theorem witness_PageProgramCompletesWithEcc :
    ∃ (s : State) (d : Device) (x : EccDesc) (codes : List (List Byte)) (b : Byte) (rest : List Input), JustIssued s ∧
      s.dev = some d ∧ s.cfg.ecc = some x ∧ pageAdmitted s 0x1000 = true ∧ codes.length = strideCount s.cfg d.geom ∧
      (∀ c ∈ codes, c.length = x.stride) ∧ statusReady s.cfg b = true ∧
      Answered s (List.replicate (2 + d.geom.colCycles + d.geom.rowCycles) (goodAnswer []) ++
        codes.flatMap (fun c => [goodAnswer [], goodAnswer [], goodAnswer c]) ++
        [goodAnswer [], goodAnswer [], goodAnswer [], goodAnswer [b]]) rest :=
  ⟨issued (.pageProgram 5 0x1000) (oks 7 ++ [good [0x44]] ++ oks 2 ++ [good [0xCC]] ++ oks 3 ++ [good [0x40]])
     (withBytes 0x1000 bytes8 idleX), fxDev, fxEcc, [[0x44], [0xCC]], 0x40, [], just_issued _ _ _, rfl, rfl, by decide,
   by decide, by decide, by decide, ⟨by decide, rfl⟩⟩

/-- Vector PR13. -/
theorem witness_PageReadCompletesWithoutEcc :
    ∃ (s : State) (d : Device) (acks : List Answer) (w data spare : Answer) (rest : List Input), JustIssued s ∧
      s.dev = some d ∧ s.cfg.ecc = none ∧ pageAdmitted s 0x2000 = true ∧ Answered s (acks ++ [w, data, spare]) rest ∧
      (∀ x ∈ acks, x.ok = true) ∧
      acks.length = 2 + d.geom.colCycles + d.geom.rowCycles + (if d.geom.readStart then 1 else 0) ∧
      w.ready = true ∧ data.ok = true ∧ data.bytes.length = d.geom.pageSize ∧ spare.ok = true ∧
      spare.bytes.length = d.geom.spareSize :=
  ⟨issued (.pageRead 2 0x2000) (oks 8 ++ [good [1, 2, 3, 4], good [0xAA, 0xBB]]) idleY, fyDev, oks 7, good [],
   good [1, 2, 3, 4], good [0xAA, 0xBB], [], just_issued _ _ _, rfl, rfl, by decide, ⟨by decide, rfl⟩, by decide, by decide,
   rfl, rfl, rfl, rfl, rfl⟩

/-- The strides of the vector PR1: data and code. -/
def pr1Strides : List (List Byte × List Byte) := [([0x11, 0x22, 0x33, 0x44], [0x44]), ([0x55, 0x66, 0x77, 0x88], [0xCC])]

def pr1Spare : List Byte := [0xFF, 0x44, 0xFF, 0xCC]

/-- The corrected bytes of the vector PR1: those read. -/
def pr1Fixed : List (List Byte) := [[0x11, 0x22, 0x33, 0x44], [0x55, 0x66, 0x77, 0x88]]

/-- Vector PR1. -/
theorem witness_PageReadCompletesWithEcc :
    ∃ (s : State) (d : Device) (x : EccDesc) (strides : List (List Byte × List Byte)) (spare : List Byte)
      (fixed : List (List Byte)) (rest : List Input), JustIssued s ∧ s.dev = some d ∧ s.cfg.ecc = some x ∧
      pageAdmitted s 0x2000 = true ∧ StridesFit s.cfg d.geom strides ∧ spare.length = d.geom.spareSize ∧
      fixed.length = strides.length ∧ (∀ f ∈ fixed, f.length = strideLen s.cfg d.geom) ∧
      Answered s (readAnswers d.geom strides spare ++ fixed.map goodAnswer) rest :=
  ⟨issued (.pageRead 5 0x2000) (readAnswers fxGeom pr1Strides pr1Spare ++ pr1Fixed.map goodAnswer) idleX, fxDev, fxEcc,
   pr1Strides, pr1Spare, pr1Fixed, [], just_issued _ _ _, rfl, rfl, by decide, ⟨by decide, by decide⟩, rfl, rfl, by decide,
   ⟨by decide, rfl⟩⟩

/-- The last byte of a page of FX under ECC, and of FY without. -/
theorem witness_PageReadCompletesWithEcc_strides :
    (cx.wf = true ∧ fx ∈ cx.catalog ∧ cx.ecc = some fxEcc ∧ 7 < fx.geom.pageSize) ∧
    (cy.wf = true ∧ fy ∈ cy.catalog ∧ cy.ecc = none ∧ 3 < fy.geom.pageSize) := by decide

/-- Vector PR3: the second stride fails. -/
theorem witness_NonZeroCodeFailsFast :
    ∃ (s : State) (d : Device) (x : EccDesc) (strides : List (List Byte × List Byte)) (spare : List Byte)
      (fixed : List (List Byte)) (bad : Answer) (rest : List Input), JustIssued s ∧ s.dev = some d ∧
      s.cfg.ecc = some x ∧ pageAdmitted s 0x2000 = true ∧ StridesFit s.cfg d.geom strides ∧
      spare.length = d.geom.spareSize ∧ fixed.length < strides.length ∧
      (∀ f ∈ fixed, f.length = strideLen s.cfg d.geom) ∧ bad.code ≠ 0 ∧
      Answered s (readAnswers d.geom strides spare ++ fixed.map goodAnswer ++ [bad]) rest :=
  ⟨issued (.pageRead 5 0x2000)
     (readAnswers fxGeom pr1Strides pr1Spare ++ (pr1Fixed.take 1).map goodAnswer ++ [badCode 1]) idleX, fxDev, fxEcc,
   pr1Strides, pr1Spare, pr1Fixed.take 1, badCode 1, [], just_issued _ _ _, rfl, rfl, by decide,
   ⟨by decide, by decide⟩, rfl, by decide, by decide, by decide, ⟨by decide, rfl⟩⟩

/-- CORRECT_FN of FXECC. -/
def fxCorrect (d c r : List Byte) : Word32 × List Byte := (if c = r then 0 else 1, d)

/-- Vector PR1 with the correction function of FXECC, which obeys the law of R11. -/
theorem witness_LawfulCorrectionKeepsReadData :
    ∃ (s : State) (d : Device) (x : EccDesc) (strides : List (List Byte × List Byte)) (spare : List Byte)
      (rest : List Input), CorrectLaw fxCorrect ∧ JustIssued s ∧ s.dev = some d ∧ s.cfg.ecc = some x ∧
      pageAdmitted s 0x2000 = true ∧ StridesFit s.cfg d.geom strides ∧ spare.length = d.geom.spareSize ∧
      (∀ k y, strides[k]? = some y → getSlice (x.pos.map fun p => spare.getD p 0xFF) (k * x.stride) x.stride = y.2) ∧
      Answered s (readAnswers d.geom strides spare ++ strides.zipIdx.map (fun y =>
        { ok := true, ready := true
          code := (fxCorrect y.1.1 y.1.2 (getSlice (x.pos.map fun p => spare.getD p 0xFF) (y.2 * x.stride) x.stride)).1
          bytes := (fxCorrect y.1.1 y.1.2 (getSlice (x.pos.map fun p => spare.getD p 0xFF) (y.2 * x.stride) x.stride)).2 }))
        rest := by
  refine ⟨issued (.pageRead 5 0x2000) (readAnswers fxGeom pr1Strides pr1Spare ++ pr1Fixed.map goodAnswer) idleX, fxDev,
    fxEcc, pr1Strides, pr1Spare, [], fun d c => by simp [fxCorrect], just_issued _ _ _, rfl, rfl, by decide,
    ⟨by decide, by decide⟩, rfl, ?_, ⟨by decide, rfl⟩⟩
  intro k y h
  match k with
  | 0 => injection h with h; subst h; decide
  | 1 => injection h with h; subst h; decide
  | k + 2 => cases h

/-- Offsets with a repeat, where the last one counts, and an offset none names. -/
theorem witness_SpareImageLayout :
    cy.ecc = none ∧
    (∃ (c : Config) (x : EccDesc) (codes : List Byte) (i j : Nat) (b : Byte), c.ecc = some x ∧
      x.pos.length = codes.length ∧ j < fxGeom.spareSize ∧ x.pos[i]? = some j ∧ codes[i]? = some b ∧
      ∀ i' : Nat, i < i' → x.pos[i']? ≠ some j) ∧
    (0 < fxGeom.spareSize ∧ 0 ∉ fxEcc.pos) := by
  refine ⟨rfl, ⟨{ cx with ecc := some { fxEcc with pos := [3, 3] } }, { fxEcc with pos := [3, 3] }, [0x44, 0xCC], 1, 3, 0xCC,
    rfl, rfl, by decide, rfl, rfl, fun i' h => ?_⟩, by decide⟩
  match i' with
  | 0 => cases h
  | 1 => exact absurd h (by decide)
  | i + 2 => simp

theorem witness_ExtractionUndoesPlacement :
    ∃ (c : Config) (g : Geometry) (x : EccDesc) (codes : List Byte), c.ecc = some x ∧ x.pos.Nodup ∧
      (∀ p ∈ x.pos, p < g.spareSize) ∧ codes.length = x.pos.length :=
  ⟨cx, fxGeom, fxEcc, [0x44, 0xCC], rfl, by decide, by decide, rfl⟩

/-- A state and the next one, for an operation at its start. -/
theorem frame_witness (i : Instr) (s : State) (hp : s.pos = .start)
    (h : nextIs (exec i s) (fun _ => true) = true) : ∃ s t : State, AtOwnSteps i s ∧ exec i s = .next t := by
  obtain ⟨t, ht, _⟩ := next_of h
  exact ⟨s, t, at_own_steps_start hp, ht⟩

theorem witness_SelectFrame : ∃ s t : State, AtOwnSteps (.select true) s ∧ exec (.select true) s = .next t :=
  frame_witness _ (issued (.select true) (oks 1) idleX) rfl (by decide)

theorem witness_BlockEraseFrame : ∃ s t : State, AtOwnSteps (.blockErase 3) s ∧ exec (.blockErase 3) s = .next t :=
  frame_witness _ (issued (.blockErase 3) (oks 6 ++ [good [0x40]]) idleX) rfl (by decide)

theorem witness_PageProgramFrame :
    ∃ s t : State, AtOwnSteps (.pageProgram 3 0x1000) s ∧ exec (.pageProgram 3 0x1000) s = .next t :=
  frame_witness _ (issued (.pageProgram 3 0x1000) (oks 11 ++ [good [0x40]]) idleY) rfl (by decide)

/-- The bytes just below and just above the page buffer are outside it. -/
theorem witness_PageReadFrame :
    (∃ s t : State, AtOwnSteps (.pageRead 2 0x2000) s ∧ exec (.pageRead 2 0x2000) s = .next t) ∧
    0x1FFF < (0x2000 : Word64).toNat ∧ (0x2000 : Word64).toNat + (geometry idleY).pageSize ≤ 0x2004 :=
  ⟨frame_witness _ (issued (.pageRead 2 0x2000) (oks 8 ++ [good [1, 2, 3, 4], good [0xAA, 0xBB]]) idleY) rfl (by decide),
   by decide, by decide⟩

theorem witness_IdentifyFrame :
    (∃ s t : State, AtOwnSteps .identify s ∧ exec .identify s = .next t) ∧ cx.idSelect = .none :=
  ⟨frame_witness _ (issued .identify (oks 4 ++ [good [0xA5], good [0x5A]]) (State.resetWith cx)) rfl (by decide), rfl⟩

theorem witness_DetachFrame : ∃ s t : State, AtOwnSteps .detach s ∧ exec .detach s = .next t :=
  frame_witness _ (issued .detach [] idleX) rfl (by decide)

/-- An erase of FX with its answers lined up. -/
def erasing : State := issued (.blockErase 3) (oks 6 ++ [good [0x40]]) idleX

theorem witness_NoStepWritesConfiguration : ∃ s t : State, step s = .next t ∧ t.result ≠ s.result := by
  obtain ⟨t, h, hp⟩ := next_of (o := step erasing) (p := fun t => t.result != 0) (by decide)
  exact ⟨_, t, h, fun e => bne_iff_ne.mp hp (e.trans (by decide))⟩

/-- An issued operation stands in its own sequence. -/
theorem sequence_inv_issued (i : Instr) (answers : List Answer) (s : State) : SequenceInv (issued i answers s) :=
  fun _ _ _ => at_own_steps_start rfl

theorem witness_OnlyLifecycleChangesGeometry :
    (∃ s t : State, SequenceInv s ∧ step s = .next t ∧ identified t ≠ identified s) ∧
    ∃ s t : State, SequenceInv s ∧ step s = .next t ∧ geometry t ≠ geometry s := by
  constructor
  · obtain ⟨t, h, hp⟩ := next_of (o := step (issued .detach [] idleX)) (p := fun t => !identified t) (by decide)
    exact ⟨_, t, sequence_inv_issued _ _ _, h, by simp at hp; rw [hp]; decide⟩
  · obtain ⟨t, h, hp⟩ := next_of (o := step (issued .detach [] idleX)) (p := fun t => geometry t == Geometry.none)
      (by decide)
    exact ⟨_, t, sequence_inv_issued _ _ _, h, by rw [beq_iff_eq.mp hp]; decide⟩

theorem witness_OnlyPageReadWritesHostMemory :
    ∃ s t : State, SequenceInv s ∧ step s = .next t ∧ t.mem ≠ s.mem := by
  obtain ⟨t, h, hp⟩ := next_of
    (o := step (issued (.pageRead 2 0x2000) (oks 8 ++ [good [1, 2, 3, 4], good [0xAA, 0xBB]]) idleY))
    (p := fun t => t.mem != []) (by decide)
  exact ⟨_, t, sequence_inv_issued _ _ _, h, fun e => bne_iff_ne.mp hp (e.trans (by decide))⟩

/-- The last byte the NPE owns, written by the host; the byte after it is not owned. -/
theorem witness_HostWriteOfOwnedByteIsARace :
    ∃ (s : State) (rest : List Input), s.cfg.wf = true ∧ s.inputs = .host (.writeMem 0x2007 1) :: rest ∧
      admits s.cfg 0x2007 = true ∧ owned s 0x2007 = true ∧ owned s 0x2008 = false :=
  ⟨{ issued (.pageRead 5 0x2000) [] idleX with inputs := [.host (.writeMem 0x2007 1)] }, [], by decide⟩

theorem machine_inv_erasing : MachineInv erasing := by
  refine ⟨⟨List.Pairwise.nil, by simp [erasing, issued, placeDescriptor, issue, idleX, State.resetWith]⟩, by decide, ?_, ?_,
    fun _ => rfl⟩
  · rintro d ⟨⟩
    exact ⟨fx, List.mem_cons_self, rfl, by decide⟩
  · rintro d ⟨⟩
    decide

theorem witness_StepKeepsMachineInv : ∃ s t : State, MachineInv s ∧ step s = .next t := by
  obtain ⟨t, h, _⟩ := next_of (o := step erasing) (p := fun _ => true) (by decide)
  exact ⟨_, t, machine_inv_erasing, h⟩

theorem result_inv_erasing : ResultInv erasing := by
  refine ⟨⟨by decide, by decide, by decide⟩, fun _ => rfl, fun _ _ => rfl⟩

theorem witness_StepKeepsResultInv : ∃ s t : State, ResultInv s ∧ step s = .next t := by
  obtain ⟨t, h, _⟩ := next_of (o := step erasing) (p := fun _ => true) (by decide)
  exact ⟨_, t, result_inv_erasing, h⟩

theorem witness_StepKeepsSequenceInv : ∃ s t : State, SequenceInv s ∧ step s = .next t := by
  obtain ⟨t, h, _⟩ := next_of (o := step erasing) (p := fun _ => true) (by decide)
  exact ⟨_, t, sequence_inv_issued _ _ _, h⟩

theorem witness_RequestStopsAtFirstError : ∃ (q : Request) (err : Byte), err ≠ 0 ∧ q.stage = .moving :=
  ⟨thirdPage, 4, by decide⟩

end Sys2Proof.Tests
end

/-! ### Which configurations are admitted, and what a refusal for the configuration says (R7, R160, R227) -/

namespace Sys2Proof

/-- The check of R7 decides the constraints written out. -/
theorem geometry_wf_iff (g : Geometry) : g.wf = true ↔ GeometryFits g := by
  simp only [Geometry.wf, GeometryFits, Bool.and_eq_true, decide_eq_true_eq, and_assoc]

/-- The check of R160 decides the seven conditions written out. -/
theorem eccDesc_wf_iff (x : EccDesc) (g : Geometry) : x.wf g = true ↔ EccFits x g := by
  simp only [EccDesc.wf, EccFits, Bool.and_eq_true, decide_eq_true_eq, List.all_eq_true, and_assoc]

theorem config_eccOk_iff (c : Config) (g : Geometry) : c.eccOk g = true ↔ ∀ x, c.ecc = some x → EccFits x g := by
  cases h : c.ecc with
  | none => simp [Config.eccOk, h]
  | some x => simp [Config.eccOk, h, eccDesc_wf_iff]

theorem pollLimit_wf_iff (p : PollLimit) : p.wf = true ↔ p ≠ .bounded 0 := by
  cases p with
  | unbounded => simp [PollLimit.wf]
  | bounded m => simp [PollLimit.wf, Nat.one_le_iff_ne_zero]

/-- A configuration is admitted exactly where the poll bound, every catalog entry and the ECC descriptor against it pass
(R7, R10, R160). -/
theorem config_wf_iff (c : Config) : c.wf = true ↔
    c.pollLimit ≠ .bounded 0 ∧ ∀ e ∈ c.catalog, GeometryFits e.geom ∧ ∀ x, c.ecc = some x → EccFits x e.geom := by
  simp only [Config.wf, Bool.and_eq_true, List.all_eq_true, pollLimit_wf_iff, geometry_wf_iff, config_eccOk_iff]

end Sys2Proof

namespace Sys2Proof.Machine

theorem runOperation_ne_refused (k : OpKind) (start : State → State) (s : State) (r : Refusal) :
    runOperation k start s ≠ .refused r := by
  simp only [runOperation]
  split
  · simp
  · split <;> simp
  · simp

/-- No operation is refused: each of the six has a meaning in every state. -/
theorem exec_ne_refused (i : Instr) (s : State) (r : Refusal) : exec i s ≠ .refused r := by
  cases i <;> exact runOperation_ne_refused _ _ s r

theorem runCurrent_ne_refused (s : State) (r : Refusal) : runCurrent s ≠ .refused r := by
  simp only [runCurrent]
  split
  · exact exec_ne_refused _ s r
  · simp

/-- The host's acts are refused for a descriptor write while BUSY alone (R33, R262). -/
theorem hostStep_refused {e : HostEvent} {s : State} {r : Refusal} (h : hostStep e s = .refused r) :
    r = .descWriteWhileBusy := by
  cases e with
  | writeReg n v =>
    simp only [hostStep, writeReg] at h
    split at h
    · split at h <;> cases h
      rfl
    · split at h <;> cases h
      rfl
    · cases h
  | writeMem a v =>
    simp only [hostStep, hostWriteMem] at h
    split at h
    · split at h <;> cases h
    · cases h
  | readMem a =>
    simp only [hostStep, hostReadMem] at h
    split at h
    · split at h <;> cases h
    · cases h
  | readReg n => cases h
  | readRegByte n j => cases h
  | wait => cases h
  | reset => cases h

/-- A step is refused for the configuration exactly where the configuration is not admitted (R160, R227). -/
theorem step_configNotAdmitted_iff (s : State) : step s = .refused .configNotAdmitted ↔ s.cfg.wf = false := by
  simp only [step, advance]
  split
  · next hw =>
    refine iff_of_false ?_ (by simp [hw])
    split
    · exact runCurrent_ne_refused s _
    · intro h; cases hostStep_refused h
    · exact runCurrent_ne_refused s _
    · simp
  · next hw => simpa using hw

end Sys2Proof.Machine

namespace Sys2Proof

open Sys2Proof.Machine

/-- Settles O12: `Config.wf` decides the constraints, and it alone decides the refusal. -/
theorem unfitCatalogIsRefused : Obligations.UnfitCatalogIsRefused := by
  unfold Obligations.UnfitCatalogIsRefused
  constructor
  · intro s e he hunfit
    rw [step_configNotAdmitted_iff, Bool.eq_false_iff]
    intro hw
    exact hunfit ((config_wf_iff s.cfg).1 hw |>.2 e he |>.1)
  · intro s hpoll hgeom hecc
    rw [Ne, step_configNotAdmitted_iff, Bool.not_eq_false, config_wf_iff]
    exact ⟨hpoll, fun e he => ⟨hgeom e he, fun x hx => hecc x hx e he⟩⟩

end Sys2Proof

namespace Sys2Proof.Machine

/-! ### The steps of a page read, each answered well -/

theorem runsTo_eccStart {k : OpKind} {s : State} {a : Answer} {rest : List Input} (h : s.inputs = .answer a :: rest)
    (hok : a.ok = true) :
    RunsTo k [.eccStart] s { received (.eccstart true) rest s with eccAcc := [] } :=
  .step (hostDue_listed h) rfl (by
    simp [perform, doEccStart, busAnswer_listed h, hok, logged, received, drawn, h, takeAnswer])

/-- A stride of the right length lands in the page buffer and passes the ECC Backend (R163, R165). -/
theorem runsTo_strideRead {k : OpKind} {s : State} {a : Answer} {rest : List Input} {buf : Word64} (i : Nat)
    (h : s.inputs = .answer a :: rest) (hok : a.ok = true) (hlen : a.bytes.length = strideLen s.cfg (geometry s))
    (hadm : pageAdmitted s buf = true) (hraced : s.raced = []) :
    RunsTo k [.strideRead buf i] s
      { s with
        mem := memWriteBytes s.mem (strideAddr s buf i) a.bytes
        eccAcc := if s.cfg.ecc.isSome then s.eccAcc ++ a.bytes else s.eccAcc
        inputs := rest, draws := s.draws + 2
        trace := s.trace ++ [.read (strideLen s.cfg (geometry s)) (some a.bytes)] } :=
  .step (hostDue_listed h) (by simp [blocked, hadm]) (by
    simp only [perform, doStrideRead, busAnswer_listed h, hok, answerBytes_exact s hlen, logged_drawn h, if_true]
    cases hecc : s.cfg.ecc <;> simp [accumulate, bufWrite, received, hraced, hecc])

/-- A code of the right length is placed in the computed-ECC buffer (R164). -/
theorem runsTo_eccCompute {k : OpKind} {s : State} {a : Answer} {rest : List Input} (i : Nat)
    (h : s.inputs = .answer a :: rest) (hok : a.ok = true) (hlen : a.bytes.length = eccStride s.cfg) :
    RunsTo k [.eccCompute i] s
      (onDevice (fun d => { d with calcEcc := putSlice d.calcEcc (i * eccStride s.cfg) a.bytes })
        (received (.ecccompute (some a.bytes)) rest s)) :=
  .step (hostDue_listed h) rfl (by
    simp only [perform, doEccCompute, computeAnswer, answerOf_listed h, hok, answerBytes_exact s hlen, logged_drawn h,
      if_true])

/-- Spare bytes of the right length land in the OOB buffer (R166). -/
theorem runsTo_spareRead {k : OpKind} {s : State} {a : Answer} {rest : List Input} (h : s.inputs = .answer a :: rest)
    (hok : a.ok = true) (hlen : a.bytes.length = (geometry s).spareSize) :
    RunsTo k [.spareRead] s
      (onDevice (fun d => { d with oob := a.bytes })
        (received (.read (geometry s).spareSize (some a.bytes)) rest s)) :=
  .step (hostDue_listed h) rfl (by
    simp only [perform, doSpareRead, busAnswer_listed h, hok, answerBytes_exact s hlen, logged_drawn h, if_true])

theorem runsTo_extractEcc {k : OpKind} {s : State} (hh : hostDue s = false) :
    RunsTo k [.extractEcc] s (onDevice (fun d => { d with readEcc := extractCodes s.cfg d.oob }) s) :=
  .step hh rfl rfl

/-- A correction answered 0 writes its bytes over the stride (R169). -/
theorem runsTo_eccCorrect {k : OpKind} {s : State} {a : Answer} {rest : List Input} {buf : Word64} (i : Nat)
    (h : s.inputs = .answer a :: rest) (hcode : a.code = 0) (hlen : a.bytes.length = strideLen s.cfg (geometry s))
    (hadm : pageAdmitted s buf = true) (hraced : s.raced = []) :
    RunsTo k [.eccCorrect buf i] s
      { s with
        mem := memWriteBytes s.mem (strideAddr s buf i) a.bytes
        inputs := rest, draws := s.draws + 2, trace := s.trace ++ [.ecccorrect i 0] } :=
  .step (hostDue_listed h) (by simp [blocked, hadm]) (by
    simp [perform, doEccCorrect, correctAnswer, answerOf_listed h, hcode, answerBytes_exact s hlen, logged_drawn h,
      bufWrite, received, hraced])

/-! ### The opening of a page read -/

theorem runsTo_readStart {k : OpKind} {s : State} {rest : List Input} (g : Geometry) (acks : List Answer)
    (h : s.inputs = acks.map Input.answer ++ rest) (hlen : acks.length = if g.readStart then 1 else 0)
    (hok : ∀ a ∈ acks, a.ok = true) :
    RunsTo k (readStartSteps s.cfg g) s
      { s with
        inputs := rest, draws := s.draws + acks.length
        trace := s.trace ++ if g.readStart then [.cmd s.cfg.bus.cmdReadStart true] else [] } := by
  cases hr : g.readStart with
  | false =>
    obtain rfl : acks = [] := by simpa [hr] using hlen
    obtain rfl : s.inputs = rest := by simpa using h
    simpa [readStartSteps, hr] using RunsTo.nil k s
  | true =>
    obtain ⟨a, rfl⟩ : ∃ a, acks = [a] := List.length_eq_one_iff.1 (by simpa [hr] using hlen)
    simpa [readStartSteps, hr, received] using runsTo_cmd s.cfg.bus.cmdReadStart h (hok a (by simp))

/-- The steps of PAGE_READ before its transfer (R193). -/
def pageReadOpening (c : Config) (page : Word32) (g : Geometry) : List Micro :=
  [.select true, .cmd c.bus.cmdRead] ++ addressPhase g page true ++ readStartSteps c g ++ waitRnb

/-- The events of PAGE_READ before its transfer, every primitive answered well (R17, R193). -/
def pageReadOpeningEvents (c : Config) (page : Word32) (g : Geometry) : List Event :=
  [.sel true true, .cmd c.bus.cmdRead true] ++ addressEvents g page true ++
    (if g.readStart then [.cmd c.bus.cmdReadStart true] else []) ++ [.waitrdy true]

theorem addressBytes_length (g : Geometry) (idx : Word32) (withCol : Bool) :
    (addressBytes g idx withCol).length = (if withCol then g.colCycles else 0) + g.rowCycles := by
  cases withCol <;> simp [addressBytes]

theorem pageReadSteps_eq (c : Config) (page : Word32) (buf : Word64) (g : Geometry) :
    pageReadSteps c page buf g = pageReadOpening c page g ++ transferRead c g buf := rfl

theorem runsTo_pageReadOpening {k : OpKind} {s : State} {rest : List Input} (page : Word32) (g : Geometry)
    (acks : List Answer) (w : Answer) (h : s.inputs = acks.map Input.answer ++ .answer w :: rest)
    (hlen : acks.length = 2 + g.colCycles + g.rowCycles + (if g.readStart then 1 else 0))
    (hok : ∀ a ∈ acks, a.ok = true) (hw : w.ready = true) :
    RunsTo k (pageReadOpening s.cfg page g) s
      { s with
        ce := true, polls := 0, inputs := rest, draws := s.draws + (acks.length + 1)
        trace := s.trace ++ pageReadOpeningEvents s.cfg page g } := by
  obtain ⟨sel, cmd, cycles, start, rfl, hcycles, hstart⟩ : ∃ sel cmd cycles start, acks = sel :: cmd :: (cycles ++ start) ∧
      cycles.length = (addressBytes g page true).length ∧ start.length = if g.readStart then 1 else 0 := by
    match acks, hlen with
    | sel :: cmd :: acks, hlen =>
      refine ⟨sel, cmd, acks.take (g.colCycles + g.rowCycles), acks.drop (g.colCycles + g.rowCycles), by simp, ?_, ?_⟩ <;>
        simp [addressBytes_length] at hlen ⊢ <;> omega
    | [_], hlen => simp at hlen; omega
    | [], hlen => simp at hlen; omega
  have hin : s.inputs = .answer sel :: .answer cmd :: (cycles.map Input.answer ++ (start.map Input.answer ++
    .answer w :: rest)) := by simpa using h
  have opening := (runsTo_select (k := k) true hin (hok sel (by simp))).append
    (runsTo_cmd s.cfg.bus.cmdRead rfl (hok cmd (by simp)))
  have cycled := opening.append
    (runsTo_addrs (addressBytes g page true) cycles rfl hcycles (fun a ha => hok a (by simp [ha])))
  have started := cycled.append (runsTo_readStart g start rfl hstart (fun a ha => hok a (by simp [ha])))
  have zeroed := started.append (runsTo_zeroPolls (hostDue_listed rfl))
  have waited := zeroed.append (runsTo_waitRnb rfl hw)
  have hdraws : s.draws + ((sel :: cmd :: (cycles ++ start)).length + 1) =
      s.draws + 1 + 1 + (addressBytes g page true).length + start.length + 1 := by
    simp only [List.length_cons, List.length_append, hcycles]
    omega
  rw [hdraws]
  simpa [received, pageReadOpening, pageReadOpeningEvents, addressEvents, addressPhase, waitRnb] using waited

/-! ### The strides and the corrections of a page read under ECC -/

/-- The page buffer at `buf` is admitted whole and not raced on, and `d` is the identified device. -/
structure TransferReady (s : State) (d : Device) (buf : Word64) : Prop where
  dev : s.dev = some d
  admitted : admitsRange s.cfg buf.toNat d.geom.pageSize = true
  raced : s.raced = []

theorem TransferReady.geometry {s : State} {d : Device} {buf : Word64} (h : TransferReady s d buf) :
    geometry s = d.geom := by
  simp [Machine.geometry, h.dev]

theorem TransferReady.pageAdmitted {s : State} {d : Device} {buf : Word64} (h : TransferReady s d buf) :
    pageAdmitted s buf = true := by
  rw [Machine.pageAdmitted, h.geometry, h.admitted]

theorem TransferReady.strideAddr {s : State} {d : Device} {buf : Word64} (h : TransferReady s d buf) (i : Nat) :
    strideAddr s buf i = buf.toNat + i * strideLen s.cfg d.geom := by
  rw [Machine.strideAddr, h.geometry]

theorem strideReadSteps_ecc {c : Config} {x : EccDesc} (h : c.ecc = some x) (buf : Word64) (i : Nat) :
    strideReadSteps c buf i = [.eccStart, .strideRead buf i, .eccCompute i] := by
  simp [strideReadSteps, h]

/-- Bytes written over blocks of `n` from block `i` on: the first block's, then the others' from block `i + 1` on. -/
theorem memWriteBytes_block {n : Nat} {x : List Byte} (hx : x.length = n) (m : Memory) (a i : Nat) (y : List Byte) :
    memWriteBytes m (a + i * n) (x ++ y) = memWriteBytes (memWriteBytes m (a + i * n) x) (a + (i + 1) * n) y := by
  rw [memWriteBytes_append, hx, Nat.succ_mul, Nat.add_assoc]

/-- The same of a buffer. -/
theorem putSlice_block {n : Nat} {x : List Byte} (hx : x.length = n) (buf : List Byte) (i : Nat) (y : List Byte) :
    putSlice buf (i * n) (x ++ y) = putSlice (putSlice buf (i * n) x) ((i + 1) * n) y := by
  rw [putSlice_append, hx, Nat.succ_mul]

/-- The answers of one stride of a read under ECC: its start, its data, its code. -/
def strideAnswers (y : List Byte × List Byte) : List Answer := [goodAnswer [], goodAnswer y.1, goodAnswer y.2]

/-- The events of one stride of a read under ECC whose data has `len` bytes (R17). -/
def strideEvents (len : Nat) (y : List Byte × List Byte) : List Event :=
  [.eccstart true, .read len (some y.1), .ecccompute (some y.2)]

/-- One stride of a read under ECC: its bytes land in the page buffer and its code in the computed-ECC buffer
(R163, R164). -/
theorem runsTo_stride {k : OpKind} {s : State} {d : Device} {rest : List Input} {buf : Word64} {x : EccDesc} (i : Nat)
    (y : List Byte × List Byte) (hecc : s.cfg.ecc = some x) (hready : TransferReady s d buf)
    (hdata : y.1.length = strideLen s.cfg d.geom) (hcode : y.2.length = eccStride s.cfg)
    (h : s.inputs = (strideAnswers y).map Input.answer ++ rest) :
    RunsTo k (strideReadSteps s.cfg buf i) s
      { s with
        mem := memWriteBytes s.mem (buf.toNat + i * strideLen s.cfg d.geom) y.1, eccAcc := y.1
        dev := some { d with calcEcc := putSlice d.calcEcc (i * eccStride s.cfg) y.2 }
        inputs := rest, draws := s.draws + 4, trace := s.trace ++ strideEvents (strideLen s.cfg d.geom) y } := by
  rw [← hready.geometry] at hdata
  have started := runsTo_eccStart (k := k) h rfl
  have landed := started.append (runsTo_strideRead i rfl rfl hdata hready.pageAdmitted hready.raced)
  have computed := landed.append (runsTo_eccCompute i rfl rfl hcode)
  simpa [strideReadSteps_ecc hecc, received, onDevice, goodAnswer, strideEvents, hecc, Machine.strideAddr, geometry,
    hready.dev] using computed

/-- The strides of a read under ECC from stride `i` on, each answered well: their bytes lie one after the other in the page
buffer, and their codes in the computed-ECC buffer (R163, R164). -/
theorem runsTo_strides {k : OpKind} {rest : List Input} {buf : Word64} {x : EccDesc}
    (strides : List (List Byte × List Byte)) {s : State} {d : Device} (i : Nat) (hecc : s.cfg.ecc = some x)
    (hready : TransferReady s d buf)
    (hfit : ∀ y ∈ strides, y.1.length = strideLen s.cfg d.geom ∧ y.2.length = eccStride s.cfg)
    (h : s.inputs = (strides.flatMap strideAnswers).map Input.answer ++ rest) :
    RunsTo k ((List.range' i strides.length).flatMap (strideReadSteps s.cfg buf)) s
      { s with
        mem := memWriteBytes s.mem (buf.toNat + i * strideLen s.cfg d.geom) (strides.map (·.1)).flatten
        eccAcc := strides.foldl (fun _ y => y.1) s.eccAcc
        dev := some { d with calcEcc := putSlice d.calcEcc (i * eccStride s.cfg) (strides.map (·.2)).flatten }
        inputs := rest, draws := s.draws + 4 * strides.length
        trace := s.trace ++ strides.flatMap (strideEvents (strideLen s.cfg d.geom)) } := by
  induction strides generalizing s d i with
  | nil =>
    obtain rfl : s.inputs = rest := by simpa using h
    simpa [memWriteBytes, putSlice, ← hready.dev] using RunsTo.nil k s
  | cons y strides ih =>
    obtain ⟨hdata, hcode⟩ := hfit y List.mem_cons_self
    have first := runsTo_stride (k := k) i y hecc hready hdata hcode (by simpa using h)
    have others := first.append (ih (i + 1) hecc ⟨rfl, hready.admitted, hready.raced⟩
      (fun z hz => hfit z (List.mem_cons_of_mem _ hz)) rfl)
    have hdraws : s.draws + 4 * (y :: strides).length = s.draws + 4 + 4 * strides.length := by
      rw [List.length_cons]; omega
    rw [List.map_cons, List.map_cons, List.flatten_cons, List.flatten_cons, memWriteBytes_block hdata,
      putSlice_block hcode, hdraws]
    simpa [List.range'_succ] using others

/-- The correction pass of a read under ECC from stride `i` on, every code 0: the corrected bytes lie one after the other
in the page buffer (R169). -/
theorem runsTo_corrections {k : OpKind} {rest : List Input} {buf : Word64} (fixed : List (List Byte)) {s : State}
    {d : Device} (i : Nat) (hready : TransferReady s d buf) (hfit : ∀ f ∈ fixed, f.length = strideLen s.cfg d.geom)
    (h : s.inputs = (fixed.map goodAnswer).map Input.answer ++ rest) :
    RunsTo k ((List.range' i fixed.length).map (Micro.eccCorrect buf)) s
      { s with
        mem := memWriteBytes s.mem (buf.toNat + i * strideLen s.cfg d.geom) fixed.flatten
        inputs := rest, draws := s.draws + 2 * fixed.length
        trace := s.trace ++ (List.range' i fixed.length).map fun j => .ecccorrect j 0 } := by
  induction fixed generalizing s i with
  | nil =>
    obtain rfl : s.inputs = rest := by simpa using h
    simpa [memWriteBytes] using RunsTo.nil k s
  | cons f fixed ih =>
    have hlen := hfit f List.mem_cons_self
    have first := runsTo_eccCorrect (k := k) (a := goodAnswer f) (rest := (fixed.map goodAnswer).map Input.answer ++ rest) i
      (by simpa using h) rfl (hlen.trans (by rw [hready.geometry])) hready.pageAdmitted hready.raced
    have others := first.cons (ih (i + 1) ⟨hready.dev, hready.admitted, hready.raced⟩
      (fun z hz => hfit z (List.mem_cons_of_mem _ hz)) rfl)
    have hdraws : s.draws + 2 * (f :: fixed).length = s.draws + 2 + 2 * fixed.length := by
      rw [List.length_cons]; omega
    rw [List.flatten_cons, memWriteBytes_block hlen, hdraws]
    simpa [List.range'_succ, hready.strideAddr, goodAnswer] using others

/-! ### PAGE_READ under ECC -/

/-- The steps of PAGE_READ under ECC before its correction pass (R193, R163, R166, R167). -/
def pageReadFetch (c : Config) (page : Word32) (buf : Word64) (g : Geometry) : List Micro :=
  pageReadOpening c page g ++ (List.range (strideCount c g)).flatMap (strideReadSteps c buf) ++ [.spareRead, .extractEcc]

theorem pageReadSteps_ecc {c : Config} {x : EccDesc} (h : c.ecc = some x) (page : Word32) (buf : Word64) (g : Geometry) :
    pageReadSteps c page buf g =
      pageReadFetch c page buf g ++ (List.range (strideCount c g)).map (Micro.eccCorrect buf) := by
  simp [pageReadSteps_eq, pageReadFetch, transferRead, correctionSteps, h]

theorem readAnswers_eq (g : Geometry) (strides : List (List Byte × List Byte)) (spare : List Byte) :
    readAnswers g strides spare =
      List.replicate (2 + g.colCycles + g.rowCycles + (if g.readStart then 1 else 0)) (goodAnswer []) ++ goodAnswer [] ::
        (strides.flatMap strideAnswers ++ [goodAnswer spare]) := by
  rw [readAnswers, show 3 + g.colCycles + g.rowCycles + (if g.readStart then 1 else 0) =
    2 + g.colCycles + g.rowCycles + (if g.readStart then 1 else 0) + 1 by omega, List.replicate_succ']
  simp only [List.append_assoc, List.singleton_append]
  rfl

theorem strideAnswers_flatMap_length (strides : List (List Byte × List Byte)) :
    (strides.flatMap strideAnswers).length = 3 * strides.length := by
  simp [strideAnswers, Nat.mul_comm]

/-- The state a PAGE_READ under ECC of the device `d` has reached before its correction pass: the bytes read lie in the
page buffer, the spare bytes in `oob`, and the computed and the read codes in the two ECC buffers. -/
def pageFetched (d : Device) (page : Word32) (buf : Word64) (strides : List (List Byte × List Byte)) (spare : List Byte)
    (s : State) : State :=
  { s with
    ce := true, polls := 0
    mem := memWriteBytes s.mem buf.toNat (strides.map (·.1)).flatten
    eccAcc := strides.foldl (fun _ y => y.1) s.eccAcc
    dev := some { d with
      oob := spare, calcEcc := putSlice d.calcEcc 0 (strides.map (·.2)).flatten
      readEcc := extractCodes s.cfg spare }
    draws := s.draws + ((readAnswers d.geom strides spare).length + strides.length)
    trace := s.trace ++ (pageReadOpeningEvents s.cfg page d.geom ++
      strides.flatMap (strideEvents (strideLen s.cfg d.geom)) ++ [.read d.geom.spareSize (some spare)]) }

/-- PAGE_READ under ECC up to its correction pass, every primitive answered well (R193). -/
theorem runsTo_pageReadFetch {k : OpKind} {s : State} {d : Device} {x : EccDesc} {rest : List Input} {buf : Word64}
    (page : Word32) (strides : List (List Byte × List Byte)) (spare : List Byte) (hecc : s.cfg.ecc = some x)
    (hready : TransferReady s d buf) (hfit : StridesFit s.cfg d.geom strides) (hspare : spare.length = d.geom.spareSize)
    (h : s.inputs = (readAnswers d.geom strides spare).map Input.answer ++ rest) (hrest : hostFirst rest = false) :
    RunsTo k (pageReadFetch s.cfg page buf d.geom) s { pageFetched d page buf strides spare s with inputs := rest } := by
  obtain ⟨hcount, hsizes⟩ := hfit
  have opened := runsTo_pageReadOpening (k := k) page d.geom
    (List.replicate (2 + d.geom.colCycles + d.geom.rowCycles + (if d.geom.readStart then 1 else 0)) (goodAnswer []))
    (goodAnswer []) (rest := (strides.flatMap strideAnswers).map Input.answer ++ .answer (goodAnswer spare) :: rest)
    (by simpa [readAnswers_eq] using h) List.length_replicate (fun a ha => by rw [List.eq_of_mem_replicate ha]; rfl) rfl
  have read := opened.append
    (runsTo_strides strides 0 hecc ⟨hready.dev, hready.admitted, hready.raced⟩ hsizes rfl)
  have spared := read.append (runsTo_spareRead rfl rfl hspare)
  have extracted := spared.append (runsTo_extractEcc hrest)
  have hdraws : s.draws + ((readAnswers d.geom strides spare).length + strides.length) =
      s.draws + ((List.replicate (2 + d.geom.colCycles + d.geom.rowCycles + (if d.geom.readStart then 1 else 0))
        (goodAnswer [])).length + 1) + 4 * strides.length + 1 := by
    rw [readAnswers_eq]
    simp only [List.length_append, List.length_cons, List.length_nil, strideAnswers_flatMap_length]
    omega
  rw [pageFetched, hdraws]
  simpa [pageReadFetch, ← hcount, List.range_eq_range', received, onDevice, geometry, goodAnswer] using extracted

/-- A page read of an identified chip begins by running its steps (R193). -/
theorem exec_pageRead_start {s : State} {d : Device} (hpos : s.pos = .start) (hdev : s.dev = some d) (page : Word32)
    (buf : Word64) :
    exec (.pageRead page buf) s = .next (runSteps .other (pageReadSteps s.cfg page buf d.geom) s) := by
  simp [exec, execPageRead, runOperation, startIdentified, hpos, hdev]

/-- PAGE_READ under ECC whose corrections all answer 0, as the completion of one exact state. -/
theorem exec_pageRead_ecc {s : State} {d : Device} {x : EccDesc} {rest : List Input} {buf : Word64} (page : Word32)
    (strides : List (List Byte × List Byte)) (spare : List Byte) (fixed : List (List Byte)) (hpos : s.pos = .start)
    (hecc : s.cfg.ecc = some x) (hready : TransferReady s d buf) (hfit : StridesFit s.cfg d.geom strides)
    (hspare : spare.length = d.geom.spareSize) (hfixed : fixed.length = strides.length)
    (hsizes : ∀ f ∈ fixed, f.length = strideLen s.cfg d.geom)
    (h : Answered s (readAnswers d.geom strides spare ++ fixed.map goodAnswer) rest) :
    exec (.pageRead page buf) s = .next (completion .ok 0 { pageFetched d page buf strides spare s with
      mem := memWriteBytes (memWriteBytes s.mem buf.toNat (strides.map (·.1)).flatten) buf.toNat fixed.flatten
      inputs := rest, draws := (pageFetched d page buf strides spare s).draws + 2 * fixed.length
      trace := (pageFetched d page buf strides spare s).trace ++
        (List.range fixed.length).map fun j => .ecccorrect j 0 }) := by
  obtain ⟨hinputs, hrest⟩ := h
  rw [List.map_append, List.append_assoc] at hinputs
  have hfirst : hostFirst ((fixed.map goodAnswer).map Input.answer ++ rest) = false := by
    cases fixed with
    | nil => exact hrest
    | cons f fixed => rfl
  have fetched := runsTo_pageReadFetch (k := .other) page strides spare hecc hready hfit hspare hinputs hfirst
  have corrected := fetched.append (runsTo_corrections fixed 0 ⟨rfl, hready.admitted, hready.raced⟩ hsizes rfl)
  rw [exec_pageRead_start hpos hready.dev, pageReadSteps_ecc hecc, ← hfit.1, List.range_eq_range', ← hfixed,
    corrected.complete hrest]
  simp [pageFetched, List.range_eq_range']

theorem completion_ok_result {s : State} (h : s.resultStatus = none) : (completion .ok 0 s).result = 0 := by
  rw [completion_result, h]; decide

end Sys2Proof.Machine

namespace Sys2Proof

open Sys2Proof.Machine

/-- Where each read code equals the computed one, a lawful correction function answers 0 and the bytes it was given
(R11). -/
theorem lawful_answers {correct : List Byte → List Byte → List Byte → Word32 × List Byte} (hlaw : CorrectLaw correct)
    (strides : List (List Byte × List Byte)) (codes : Nat → List Byte)
    (hmatch : ∀ k y, strides[k]? = some y → codes k = y.2) :
    strides.zipIdx.map (fun y => ({
      ok := true, ready := true
      code := (correct y.1.1 y.1.2 (codes y.2)).1, bytes := (correct y.1.1 y.1.2 (codes y.2)).2 } : Answer)) =
      (strides.map (·.1)).map goodAnswer := by
  calc _ = strides.zipIdx.map fun y => goodAnswer y.1.1 := by
        refine List.map_congr_left fun y hy => ?_
        rw [hmatch y.2 y.1 (List.mem_zipIdx_iff_getElem?.1 hy), hlaw]
        rfl
    _ = (strides.zipIdx.map (·.1)).map fun y => goodAnswer y.1 := by rw [List.map_map]; rfl
    _ = _ := by rw [List.zipIdx_map_fst, List.map_map]; rfl

/-- Settles O41: the law makes each correction answer 0 with the stride's own bytes, so the page read completes as
`exec_pageRead_ecc` says with the bytes read written over themselves. -/
theorem lawfulCorrectionKeepsReadData : Obligations.LawfulCorrectionKeepsReadData := by
  unfold Obligations.LawfulCorrectionKeepsReadData
  intro correct s page buf d x strides spare rest hlaw hissued hdev hecc hadm hfit hspare hmatch hanswered
  rw [lawful_answers hlaw strides _ hmatch] at hanswered
  have hready : TransferReady s d buf :=
    ⟨hdev, by simpa [pageAdmitted, geometry, hdev] using hadm, hissued.raced⟩
  have hsizes : ∀ f ∈ strides.map (·.1), f.length = strideLen s.cfg d.geom := by
    intro f hf
    obtain ⟨y, hy, rfl⟩ := List.mem_map.1 hf
    exact (hfit.2 y hy).1
  have hrun := exec_pageRead_ecc page strides spare _ hissued.pos hecc hready hfit hspare (List.length_map _) hsizes
    hanswered
  exact ⟨_, hrun, rfl, completion_ok_result hissued.resultStatus, memReadBytes_memWriteBytes _ _ _⟩

end Sys2Proof

/-! ### What a host event does (R30 to R36, R68, R250, R263) -/

namespace Sys2Proof.Machine

/-- What a host event leaves: the reset state, an issued operation, a stored DESC1, or the state with only host memory, the
raced addresses, the draws and the host's last reading moved, memory by at most the one byte a memory write names. -/
theorem hostStep_cases {e : HostEvent} {s t : State} (h : hostStep e s = .next t) :
    (e = .reset ∧ t = resetNpe s) ∨
    (∃ v, e = .writeReg 0 v ∧ s.phase = .idle ∧ t = issue v s) ∨
    (∃ v, e = .writeReg 1 v ∧ s.phase = .idle ∧ t = { s with desc1 := v }) ∨
    ∃ m r n seen, t = { s with mem := m, raced := r, draws := n, hostSeen := seen } ∧
      (m = s.mem ∨ ∃ a v b, e = .writeMem a v ∧ m = memWrite s.mem a b) := by
  cases e with
  | reset => cases h; exact .inl ⟨rfl, rfl⟩
  | writeReg n v =>
    simp only [hostStep, writeReg] at h
    split at h
    · split at h
      · next hp => cases h; exact .inr (.inl ⟨v, rfl, hp, rfl⟩)
      · cases h
    · split at h
      · next hp => cases h; exact .inr (.inr (.inl ⟨v, rfl, hp, rfl⟩))
      · cases h
    · cases h; exact .inr (.inr (.inr ⟨_, _, _, _, rfl, .inl rfl⟩))
  | writeMem a v =>
    simp only [hostStep, hostWriteMem] at h
    split at h
    · split at h <;> cases h <;> exact .inr (.inr (.inr ⟨_, _, _, _, rfl, .inr ⟨a, v, _, rfl, rfl⟩⟩))
    · cases h
  | readMem a =>
    simp only [hostStep, hostReadMem] at h
    split at h
    · split at h <;> cases h <;> exact .inr (.inr (.inr ⟨_, _, _, _, rfl, .inl rfl⟩))
    · cases h
  | readReg n => cases h; exact .inr (.inr (.inr ⟨_, _, _, _, rfl, .inl rfl⟩))
  | readRegByte n j => cases h; exact .inr (.inr (.inr ⟨_, _, _, _, rfl, .inl rfl⟩))
  | wait => cases h; exact .inr (.inr (.inr ⟨_, _, _, _, rfl, .inl rfl⟩))

/-! ### What an operation leaves of the descriptor and the configuration -/

/-- The fields no operation writes: the configuration, the latched descriptor and the two descriptor registers. -/
structure SameDescriptor (s t : State) : Prop where
  cfg : t.cfg = s.cfg
  cur : t.cur = s.cur
  desc0 : t.desc0 = s.desc0
  desc1 : t.desc1 = s.desc1

theorem SameDescriptor.refl (s : State) : SameDescriptor s s := ⟨rfl, rfl, rfl, rfl⟩

theorem SameDescriptor.trans {s t u : State} (h : SameDescriptor s t) (h' : SameDescriptor t u) : SameDescriptor s u :=
  ⟨h'.cfg.trans h.cfg, h'.cur.trans h.cur, h'.desc0.trans h.desc0, h'.desc1.trans h.desc1⟩

/-- The control of the sequencer leaves the descriptor. -/
theorem controlFree_sameDescriptor (s : State) : ControlFree (SameDescriptor s) where
  pos _ _ h := ⟨h.cfg, h.cur, h.desc0, h.desc1⟩
  completion _ _ _ h := ⟨h.cfg, h.cur, h.desc0, h.desc1⟩
  forget _ h := ⟨h.cfg, h.cur, h.desc0, h.desc1⟩

theorem perform_sameDescriptor (k : OpKind) (m : Micro) (s : State) : SameDescriptor s (flowState (perform k m s)) := by
  have h := perform_control k m s
  exact ⟨h.cfg, h.cur, h.desc0, h.desc1⟩

theorem exec_sameDescriptor {i : Instr} {s t : State} (h : exec i s = .next t) : SameDescriptor s t :=
  exec_keeps (controlFree_sameDescriptor s) (fun _ _ hs => ⟨hs.cfg, hs.cur, hs.desc0, hs.desc1⟩)
    (fun k m _ _ _ hs => hs.trans (perform_sameDescriptor k m _)) h (.refl s)

theorem raiseErr_sameDescriptor (k : OpKind) (e : Err) (info : BitVec 16) (s : State) :
    SameDescriptor s (raiseErr k e info s) :=
  raiseErr_keeps (controlFree_sameDescriptor s) k e info (.refl s)

/-! ### An invariant of the steps still to do -/

/-- `P ms` holds of the state wherever the steps `ms` are still to do, and gives `Q` at each end a run can have. -/
structure RunRule (k : OpKind) (P : List Micro → State → Prop) (Q : State → Prop) : Prop where
  complete : ∀ s, P [] s → Q (completeOk s)
  pause : ∀ m ms s, P (m :: ms) s → Q { s with pos := .run (m :: ms) }
  done : ∀ m ms s s', P (m :: ms) s → perform k m s = .done s' → P ms s'
  again : ∀ m ms s loop s', P (m :: ms) s → perform k m s = .again loop s' → Q { s' with pos := .run (loop ++ ms) }
  raised : ∀ m ms s e info s', P (m :: ms) s → perform k m s = .raised e info s' → Q (raiseErr k e info s')

theorem RunRule.run {k : OpKind} {P : List Micro → State → Prop} {Q : State → Prop} (h : RunRule k P Q)
    (ms : List Micro) {s : State} (hs : P ms s) : Q (runSteps k ms s) := by
  induction ms generalizing s with
  | nil => exact h.complete s hs
  | cons m ms ih =>
    simp only [runSteps]
    split
    · exact h.pause m ms s hs
    · split
      · next hp => exact ih (h.done _ _ _ _ hs hp)
      · next hp => exact h.again _ _ _ _ _ hs hp
      · next hp => exact h.raised _ _ _ _ _ _ hs hp

/-- Where the sequencer stands after an error: at the start, or at the completion step that waits for a host event. -/
theorem raiseErr_pos (k : OpKind) (e : Err) (info : BitVec 16) (s : State) :
    (raiseErr k e info s).pos = .start ∨ (raiseErr k e info s).pos = .fail e info := by
  simp only [raiseErr]
  split
  · exact .inr rfl
  · split <;> exact .inl rfl

/-! ### The steps an operation is made of -/

/-- The steps of SELECT and of the page and block operations other than the status poll's read. -/
def isPageStep : Micro → Bool
  | .select _ | .cmd _ | .addr _ | .zeroPolls | .waitRnb | .eccStart | .strideRead _ _ | .strideWrite _ _ | .eccCompute _
  | .spareRead | .extractEcc | .buildSpare | .spareWrite | .eccCorrect _ _ => true
  | .statusRead _ | .delay | .readMaker | .readDevice | .loadGeometry | .release => false

theorem addressPhase_isPageStep (g : Geometry) (idx : Word32) (withCol : Bool) :
    ∀ m ∈ addressPhase g idx withCol, isPageStep m = true := by
  simp [addressPhase, isPageStep]

theorem readStartSteps_isPageStep (c : Config) (g : Geometry) : ∀ m ∈ readStartSteps c g, isPageStep m = true := by
  simp only [readStartSteps]
  split <;> simp [isPageStep]

theorem strideReadSteps_isPageStep (c : Config) (buf : Word64) (k : Nat) :
    ∀ m ∈ strideReadSteps c buf k, isPageStep m = true := by
  simp only [strideReadSteps]
  split <;> simp [isPageStep]

theorem strideWriteSteps_isPageStep (c : Config) (buf : Word64) (k : Nat) :
    ∀ m ∈ strideWriteSteps c buf k, isPageStep m = true := by
  simp only [strideWriteSteps]
  split <;> simp [isPageStep]

theorem correctionSteps_isPageStep (c : Config) (g : Geometry) (buf : Word64) :
    ∀ m ∈ correctionSteps c g buf, isPageStep m = true := by
  simp only [correctionSteps]
  split <;> simp [isPageStep]

theorem transferRead_isPageStep (c : Config) (g : Geometry) (buf : Word64) :
    ∀ m ∈ transferRead c g buf, isPageStep m = true := by
  simp only [transferRead, List.forall_mem_append, List.forall_mem_flatMap]
  exact ⟨⟨fun k _ => strideReadSteps_isPageStep c buf k, by simp [isPageStep]⟩, correctionSteps_isPageStep c g buf⟩

theorem transferWrite_isPageStep (c : Config) (g : Geometry) (buf : Word64) :
    ∀ m ∈ transferWrite c g buf, isPageStep m = true := by
  simp only [transferWrite, List.forall_mem_append, List.forall_mem_flatMap]
  exact ⟨fun k _ => strideWriteSteps_isPageStep c buf k, by simp [isPageStep]⟩

/-- Every operation but IDENTIFY and DETACH is a body of page steps, with a status poll at its end or none. -/
theorem stepsOf_eq_body {i : Instr} {s : State} {ms : List Micro} (h : stepsOf i s = some ms) (hid : i ≠ .identify)
    (hdet : i ≠ .detach) :
    ∃ body, (∀ m ∈ body, isPageStep m = true) ∧ (ms = body ∨ ms = body ++ statusPoll s.cfg true) := by
  cases i with
  | identify => exact absurd rfl hid
  | detach => exact absurd rfl hdet
  | select en => cases h; exact ⟨[.select en], by simp [isPageStep], .inl rfl⟩
  | pageRead page buf =>
    obtain ⟨d, -, rfl⟩ := Option.map_eq_some_iff.1 h
    refine ⟨_, ?_, .inl rfl⟩
    simp only [pageReadSteps, List.forall_mem_append]
    exact ⟨⟨⟨⟨by simp [isPageStep], addressPhase_isPageStep _ _ _⟩, readStartSteps_isPageStep _ _⟩,
      by simp [waitRnb, isPageStep]⟩, transferRead_isPageStep _ _ _⟩
  | pageProgram page buf =>
    obtain ⟨d, -, rfl⟩ := Option.map_eq_some_iff.1 h
    refine ⟨_, ?_, .inr rfl⟩
    simp only [List.forall_mem_append]
    exact ⟨⟨⟨by simp [isPageStep], addressPhase_isPageStep _ _ _⟩, transferWrite_isPageStep _ _ _⟩, by simp [isPageStep]⟩
  | blockErase block =>
    obtain ⟨d, -, rfl⟩ := Option.map_eq_some_iff.1 h
    refine ⟨_, ?_, .inr rfl⟩
    simp only [List.forall_mem_append]
    exact ⟨⟨by simp [isPageStep], addressPhase_isPageStep _ _ _⟩, by simp [isPageStep]⟩

/-- A step of an operation's own belongs to its sequence, or is the delay of a status poll. -/
theorem mem_ownSteps {i : Instr} {s : State} {m : Micro} :
    m ∈ ownSteps i s ↔ (∃ ms, stepsOf i s = some ms ∧ m ∈ ms) ∨ m = .delay := by
  cases h : stepsOf i s <;> simp [ownSteps, h]

/-- Only IDENTIFY and DETACH load or release the device (R143, R147). -/
theorem lifecycle_of_mem_ownSteps {i : Instr} {s : State} {m : Micro} (hm : m = .loadGeometry ∨ m = .release)
    (h : m ∈ ownSteps i s) : i = .identify ∨ i = .detach := by
  by_contra hi
  rw [not_or] at hi
  rcases mem_ownSteps.1 h with ⟨ms, hms, hmem⟩ | rfl
  · obtain ⟨body, hbody, rfl | rfl⟩ := stepsOf_eq_body hms hi.1 hi.2
    · rcases hm with rfl | rfl <;> cases hbody _ hmem
    · rcases List.mem_append.1 hmem with hmem | hmem
      · rcases hm with rfl | rfl <;> cases hbody _ hmem
      · rcases hm with rfl | rfl <;> simp [statusPoll] at hmem
  · simp at hm

/-- IDENTIFY reads status only in its reset wait, without checking the FAIL bit (R120, R149). -/
theorem statusRead_mem_identifySteps {c : Config} {check : Bool} (h : .statusRead check ∈ identifySteps c) :
    check = false ∧ .cmd c.bus.cmdStatus ∈ identifySteps c := by
  have hbracket : ∀ b, .statusRead check ∉ bracketSelect c b := fun b => by
    simp only [bracketSelect]
    split <;> simp
  have hwait : .statusRead check ∈ resetWaitSteps c := by simpa [identifySteps, hbracket] using h
  cases hw : c.resetWait with
  | rnb => simp [resetWaitSteps, hw, waitRnb] at hwait
  | status =>
    rw [resetWaitSteps, hw] at hwait
    exact ⟨by simpa [statusPoll] using hwait, by simp [identifySteps, resetWaitSteps, hw, statusPoll]⟩

/-- A status read stands in a sequence only after its status command (R114). -/
theorem cmdStatus_mem_ownSteps {i : Instr} {s : State} {check : Bool} (h : .statusRead check ∈ ownSteps i s) :
    .cmd s.cfg.bus.cmdStatus ∈ ownSteps i s := by
  rcases mem_ownSteps.1 h with ⟨ms, hms, hmem⟩ | hd
  · refine mem_ownSteps.2 (.inl ⟨ms, hms, ?_⟩)
    by_cases hid : i = .identify
    · subst hid; cases hms
      exact (statusRead_mem_identifySteps hmem).2
    by_cases hdet : i = .detach
    · subst hdet; cases hms; simp at hmem
    obtain ⟨body, hbody, rfl | rfl⟩ := stepsOf_eq_body hms hid hdet
    · cases hbody _ hmem
    · exact List.mem_append_right _ (by simp [statusPoll])
  · cases hd

/-! ### The position stays in the sequence -/

/-- The sequence of an operation depends on the configuration and the geometry alone. -/
theorem stepsOf_congr {s t : State} (hcfg : t.cfg = s.cfg) (hgeom : t.dev.map (·.geom) = s.dev.map (·.geom)) (i : Instr) :
    stepsOf i t = stepsOf i s := by
  have hdev : ∀ f : Geometry → List Micro, t.dev.map (fun d => f d.geom) = s.dev.map (fun d => f d.geom) := fun f => by
    simpa [Option.map_map, Function.comp_def] using congrArg (Option.map f) hgeom
  cases i <;> simp only [stepsOf, hcfg, hdev]

/-- A step keeps the geometry unless it loads or releases the device (R23). -/
theorem perform_geom {k : OpKind} {m : Micro} {s : State} (h : ¬ (m = .loadGeometry ∨ m = .release)) :
    (flowState (perform k m s)).dev.map (·.geom) = s.dev.map (·.geom) := by
  rcases perform_dev k m s with ⟨hdev, -⟩ | ⟨hm, -⟩ | ⟨hm, -⟩ | ⟨-, d, d', hd, hd', hgeom, -⟩
  · rw [hdev]
  · exact absurd (.inr hm) h
  · exact absurd (.inl hm) h
  · rw [hd, hd']; exact congrArg some hgeom

/-- A step of the operation's own leaves its sequence as it is: only IDENTIFY and DETACH change the device in flight, and
theirs does not depend on it. -/
theorem perform_stepsOf {k : OpKind} {i : Instr} {m : Micro} {s : State} (h : m ∈ ownSteps i s) :
    stepsOf i (flowState (perform k m s)) = stepsOf i s := by
  have hcfg := (perform_control k m s).cfg
  by_cases hm : m = .loadGeometry ∨ m = .release
  · rcases lifecycle_of_mem_ownSteps hm h with rfl | rfl
    · simp only [stepsOf, hcfg]
    · rfl
  · exact stepsOf_congr hcfg (perform_geom hm) i

theorem perform_ownSteps {k : OpKind} {i : Instr} {m : Micro} {s : State} (h : m ∈ ownSteps i s) :
    ownSteps i (flowState (perform k m s)) = ownSteps i s := by
  rw [ownSteps, perform_stepsOf h, ownSteps]

/-- The steps a not-ready answer to `m` leaves to do: the ready-wait again, or a delay, the status command and the status
read (R114, R116). -/
inductive WaitLoop (c : Config) : Micro → List Micro → Prop where
  | ready : WaitLoop c .waitRnb [.waitRnb]
  | status (check : Bool) : WaitLoop c (.statusRead check) [.delay, .cmd c.bus.cmdStatus, .statusRead check]

/-- How a step may end: only a checked status read records a status byte, and then it is done or raises IoError (R119);
only UncorrectableEcc carries a DETAIL (R170); only a wait goes on with its loop. -/
def FlowEnds (m : Micro) (s : State) : Flow → Prop
  | .done s' => s'.resultStatus = s.resultStatus ∨ m = .statusRead true
  | .again loop s' => s'.resultStatus = s.resultStatus ∧ WaitLoop s.cfg m loop
  | .raised e info s' => (info ≠ 0 → e = .uncorrectableEcc) ∧ (s'.resultStatus = s.resultStatus ∨ e = .ioError)

theorem busAck_ends (k : OpKind) (ev : Bool → Event) (m : Micro) (s : State) : FlowEnds m s (busAck k ev s) := by
  simp only [busAck]
  split
  · exact .inl rfl
  · exact ⟨absurd rfl, .inl rfl⟩

theorem notReady_ends {m : Micro} {loop : List Micro} {s s' : State} (hs : s'.resultStatus = s.resultStatus)
    (hl : WaitLoop s.cfg m loop) : FlowEnds m s (notReady loop s') := by
  simp only [notReady]
  split
  · exact ⟨absurd rfl, .inl hs⟩
  · exact ⟨hs, hl⟩

theorem perform_ends (k : OpKind) (m : Micro) (s : State) : FlowEnds m s (perform k m s) := by
  cases m <;> simp only [perform]
  case select b =>
    simp only [doSelect, busAck]
    cases (busAnswer s).ok
    · exact ⟨absurd rfl, .inl rfl⟩
    · exact .inl rfl
  case cmd | addr | spareWrite => exact busAck_ends _ _ _ _
  case waitRnb =>
    simp only [doWaitRnb]
    split
    · exact .inl rfl
    · exact notReady_ends rfl .ready
  case statusRead check =>
    simp only [doStatusRead, statusCheck]
    split
    · exact ⟨absurd rfl, .inl rfl⟩
    split
    · split
      · next hc =>
        split
        · exact ⟨absurd rfl, .inr rfl⟩
        · exact .inr (by rw [hc])
      · exact .inl rfl
    · exact notReady_ends rfl (.status check)
  case eccCorrect buf i =>
    simp only [doEccCorrect]
    split
    · exact .inl rfl
    · exact ⟨fun _ => rfl, .inl rfl⟩
  case strideRead | strideWrite =>
    simp only [doStrideRead, doStrideWrite]
    split
    · exact .inl (by simp)
    · exact ⟨absurd rfl, .inl rfl⟩
  case readMaker | readDevice | loadGeometry =>
    simp only [doReadMaker, doReadDevice, doLoadGeometry]
    split
    · exact ⟨absurd rfl, .inl rfl⟩
    · exact .inl rfl
  case eccStart | eccCompute | spareRead =>
    simp only [doEccStart, doEccCompute, doSpareRead]
    split
    · exact .inl rfl
    · exact ⟨absurd rfl, .inl rfl⟩
  case zeroPolls | delay | extractEcc | buildSpare | release => exact .inl rfl

theorem perform_again {k : OpKind} {m : Micro} {s s' : State} {loop : List Micro} (h : perform k m s = .again loop s') :
    s'.resultStatus = s.resultStatus ∧ WaitLoop s.cfg m loop := by
  have hends := perform_ends k m s
  rwa [h] at hends

/-- The steps of a wait loop are the operation's own. -/
theorem perform_again_ownSteps {k : OpKind} {i : Instr} {m : Micro} {s s' : State} {loop : List Micro}
    (hm : m ∈ ownSteps i s) (h : perform k m s = .again loop s') : ∀ x ∈ loop, x ∈ ownSteps i s := by
  obtain ⟨-, hl⟩ := perform_again h
  cases hl with
  | ready => simpa using hm
  | status check => simpa using ⟨mem_ownSteps.2 (.inr rfl), cmdStatus_mem_ownSteps hm, hm⟩

theorem atOwnSteps_of_run {i : Instr} {s : State} {ms : List Micro} (h : ∀ m ∈ ms, m ∈ ownSteps i s) :
    AtOwnSteps i { s with pos := .run ms } := by
  intro ms' hms'
  cases hms'
  exact h

theorem atOwnSteps_of_pos_ne_run {i : Instr} {s : State} (h : ∀ ms, s.pos ≠ .run ms) : AtOwnSteps i s :=
  fun ms hms => absurd hms (h ms)

theorem raiseErr_atOwnSteps (i : Instr) (k : OpKind) (e : Err) (info : BitVec 16) (s : State) :
    AtOwnSteps i (raiseErr k e info s) :=
  atOwnSteps_of_pos_ne_run fun ms hms => by
    rcases raiseErr_pos k e info s with h | h <;> rw [h] at hms <;> cases hms

/-- The steps still to do of a run stay the operation's own. -/
theorem runRule_atOwnSteps (k : OpKind) (i : Instr) :
    RunRule k (fun ms s => ∀ m ∈ ms, m ∈ ownSteps i s) (AtOwnSteps i) where
  complete s hs := by
    simp only [completeOk]
    split
    · exact atOwnSteps_of_run hs
    · exact atOwnSteps_of_pos_ne_run (by simp)
  pause _ _ _ hs := atOwnSteps_of_run hs
  done m ms s s' hs hp := by
    rw [List.forall_mem_cons] at hs
    have hown := perform_ownSteps (k := k) hs.1
    rw [hp, flowState_done] at hown
    exact hown ▸ hs.2
  again m ms s loop s' hs hp := by
    rw [List.forall_mem_cons] at hs
    have hown := perform_ownSteps (k := k) hs.1
    rw [hp, flowState_again] at hown
    refine atOwnSteps_of_run ?_
    rw [hown, List.forall_mem_append]
    exact ⟨perform_again_ownSteps hs.1 hp, hs.2⟩
  raised _ _ _ e info s' _ _ := raiseErr_atOwnSteps i k e info s'

theorem stepsOf_subset_ownSteps {i : Instr} {s : State} {ms : List Micro} (h : stepsOf i s = some ms) :
    ∀ m ∈ ms, m ∈ ownSteps i s :=
  fun _ hm => mem_ownSteps.2 (.inl ⟨ms, h, hm⟩)

/-- An operation keeps its position inside its own sequence (R21). -/
theorem exec_atOwnSteps {i : Instr} {s t : State} (hs : AtOwnSteps i s) (h : exec i s = .next t) : AtOwnSteps i t := by
  have run := (runRule_atOwnSteps (kindOf i) i).run
  rcases exec_cases h with ⟨-, ⟨e, rfl, -⟩ | ⟨ms, hms, rfl | rfl⟩⟩ | ⟨ms, hms, rfl⟩ | ⟨e, info, -, rfl⟩
  · exact raiseErr_atOwnSteps _ _ _ _ _
  · exact run ms (stepsOf_subset_ownSteps hms)
  · exact run ms (s := { s with cellWidth := 8 }) (stepsOf_subset_ownSteps hms)
  · exact run ms (hs ms hms)
  · exact raiseErr_atOwnSteps _ _ _ _ _

end Sys2Proof.Machine

namespace Sys2Proof

open Sys2Proof.Machine

/-- Settles O57: a host event that moves the position abandons or issues, and an operation keeps its own. -/
theorem stepKeepsSequenceInv : Obligations.StepKeepsSequenceInv := by
  unfold Obligations.StepKeepsSequenceInv
  intro s t hs hstep
  obtain ⟨-, ⟨e, rest, -, he⟩ | ⟨hbusy, -, i, hi, hx⟩ | ⟨-, -, -, rfl⟩ | ⟨-, rfl⟩⟩ := step_cases hstep
  · rcases hostStep_cases he with ⟨-, rfl⟩ | ⟨v, -, -, rfl⟩ | ⟨v, -, hidle, rfl⟩ | ⟨m, r, n, seen, rfl, -⟩
    · exact fun _ _ _ => atOwnSteps_of_pos_ne_run (by simp)
    · exact fun _ _ _ => atOwnSteps_of_pos_ne_run (by simp)
    · exact fun hbusy => absurd (hidle.symm.trans hbusy) (by decide)
    · exact hs
  · intro _ j hj
    rw [(exec_sameDescriptor hx).cur, hi] at hj
    cases hj
    exact exec_atOwnSteps (hs hbusy i hi) hx
  · exact fun _ _ _ => raiseErr_atOwnSteps _ _ _ _ _
  · exact hs

end Sys2Proof

/-! ### RESULT stays legal -/

namespace Sys2Proof.Machine

theorem errCode_toNat_le (e : Err) : (errCode e).toNat ≤ 8 := by
  cases e <;> decide

/-- The RESULT of a completion is legal if only UncorrectableEcc comes with a DETAIL and only OK and IoError with a status
byte. -/
theorem resultLegal_resultWord {e : Err} {status : Byte} {info : BitVec 16} (hinfo : info ≠ 0 → e = .uncorrectableEcc)
    (hstatus : status ≠ 0 → e = .ok ∨ e = .ioError) : ResultLegal (resultWord (errCode e) status info) := by
  refine ⟨?_, ?_, ?_⟩
  · rw [resultErr_resultWord]
    exact errCode_toNat_le e
  · rw [resultDetail_resultWord, resultErr_resultWord]
    exact fun h => congrArg errCode (hinfo h)
  · rw [resultStatusOf_resultWord, resultErr_resultWord]
    exact fun h => (hstatus h).imp (congrArg errCode) (congrArg errCode)

theorem completion_resultLegal {s : State} {e : Err} {info : BitVec 16} (hinfo : info ≠ 0 → e = .uncorrectableEcc)
    (hstatus : s.resultStatus ≠ none → e = .ok ∨ e = .ioError) : ResultLegal (completion e info s).result :=
  resultLegal_resultWord hinfo fun hne => hstatus fun hnone => hne (by rw [hnone]; rfl)

/-- What every end of a run gives RESULT: it is legal, and while BUSY the position will leave it so. -/
def ResultSound (t : State) : Prop := ResultLegal t.result ∧ (t.phase = .busy → PosLegal t)

theorem resultSound_of_idle {t : State} (hr : ResultLegal t.result) (hp : t.phase = .idle) : ResultSound t :=
  ⟨hr, fun hb => absurd (hp.symm.trans hb) (by decide)⟩

theorem raiseErr_resultSound {s : State} {e : Err} {info : BitVec 16} (k : OpKind) (hr : ResultLegal s.result)
    (hinfo : info ≠ 0 → e = .uncorrectableEcc) (hstatus : s.resultStatus ≠ none → e = .ioError) :
    ResultSound (raiseErr k e info s) := by
  have hdone : ResultLegal (completion e info s).result := completion_resultLegal hinfo fun h => .inr (hstatus h)
  simp only [raiseErr]
  split
  · exact ⟨hr, fun _ => ⟨hinfo, hstatus⟩⟩
  split
  · exact resultSound_of_idle hdone rfl
  · exact resultSound_of_idle hdone rfl

theorem completeOk_resultSound {s : State} (hr : ResultLegal s.result) : ResultSound (completeOk s) := by
  simp only [completeOk]
  split
  · exact ⟨hr, fun _ => ⟨trivial, fun _ => rfl⟩⟩
  · exact resultSound_of_idle (completion_resultLegal (absurd rfl) fun _ => .inl rfl) rfl

theorem statusLast_append {ms ms' : List Micro} (h : ∀ m ∈ ms, m ≠ .statusRead true) (h' : statusLast ms') :
    statusLast (ms ++ ms') := by
  induction ms with
  | nil => exact h'
  | cons m ms ih =>
    rw [List.forall_mem_cons] at h
    exact ⟨fun hm => absurd hm h.1, ih h.2⟩

theorem statusLast_of_forall {ms : List Micro} (h : ∀ m ∈ ms, m ≠ .statusRead true) : statusLast ms :=
  List.append_nil ms ▸ statusLast_append h (ms' := []) trivial

theorem statusLast_statusPoll (c : Config) : statusLast (statusPoll c true) := by
  simp [statusPoll, statusLast]

/-- In the sequence of every operation the checked status read, if any, stands last (R119, R196, R199). -/
theorem statusLast_stepsOf {i : Instr} {s : State} {ms : List Micro} (h : stepsOf i s = some ms) : statusLast ms := by
  by_cases hid : i = .identify
  · subst hid; cases h
    refine statusLast_of_forall fun m hm => ?_
    rintro rfl
    cases (statusRead_mem_identifySteps hm).1
  by_cases hdet : i = .detach
  · subst hdet; cases h
    exact statusLast_of_forall (by simp)
  obtain ⟨body, hbody, rfl | rfl⟩ := stepsOf_eq_body h hid hdet
  · exact statusLast_of_forall fun m hm hstatus => by cases hstatus ▸ hbody m hm
  · exact statusLast_append (fun m hm hstatus => by cases hstatus ▸ hbody m hm) (statusLast_statusPoll _)

/-- The steps of a wait loop keep the checked status read last. -/
theorem WaitLoop.statusLast {c : Config} {m : Micro} {loop ms : List Micro} (h : WaitLoop c m loop)
    (hs : statusLast (m :: ms)) : statusLast (loop ++ ms) := by
  cases h with
  | ready => exact hs
  | status check => exact ⟨by simp, by simp, hs⟩

/-- Wherever steps are still to do, RESULT is legal, the checked status read stands last, and no status byte is recorded. -/
structure RunLegal (ms : List Micro) (s : State) : Prop where
  result : ResultLegal s.result
  statusLast : statusLast ms
  unrecorded : s.resultStatus ≠ none → ms = []

theorem RunLegal.resultStatus {m : Micro} {ms : List Micro} {s : State} (h : RunLegal (m :: ms) s) :
    s.resultStatus = none := by
  by_contra hne
  cases h.unrecorded hne

theorem runRule_resultSound (k : OpKind) : RunRule k RunLegal ResultSound where
  complete s hs := completeOk_resultSound hs.result
  pause m ms s hs := ⟨hs.result, fun _ => ⟨hs.statusLast, hs.unrecorded⟩⟩
  done m ms s s' hs hp := by
    have hends := perform_ends k m s
    have hctl := perform_control k m s
    rw [hp] at hends hctl
    refine ⟨hctl.result ▸ hs.result, hs.statusLast.2, fun hne => ?_⟩
    rcases hends with hkeep | hm
    · exact absurd (hkeep.trans hs.resultStatus) hne
    · exact hs.statusLast.1 hm
  again m ms s loop s' hs hp := by
    have hctl := perform_control k m s
    rw [hp] at hctl
    obtain ⟨hkeep, hloop⟩ := perform_again hp
    exact ⟨hctl.result ▸ hs.result, fun _ => ⟨hloop.statusLast hs.statusLast,
      fun hne => absurd (hkeep.trans hs.resultStatus) hne⟩⟩
  raised m ms s e info s' hs hp := by
    have hends := perform_ends k m s
    have hctl := perform_control k m s
    rw [hp] at hends hctl
    exact raiseErr_resultSound k (hctl.result ▸ hs.result) hends.1 fun hne =>
      hends.2.resolve_left fun hkeep => hne (hkeep.trans hs.resultStatus)

/-- An operation leaves RESULT legal and positioned to stay so. -/
theorem exec_resultSound {i : Instr} {s t : State} (hr : ResultLegal s.result) (hpos : PosLegal s)
    (h : exec i s = .next t) : ResultSound t := by
  have run := (runRule_resultSound (kindOf i)).run
  rcases exec_cases h with ⟨hp, hstart⟩ | ⟨ms, hp, rfl⟩ | ⟨e, info, hp, rfl⟩
  · have hnone : s.resultStatus = none := by simpa [PosLegal, hp] using hpos
    rcases hstart with ⟨e, rfl, -⟩ | ⟨ms, hms, rfl | rfl⟩
    · exact raiseErr_resultSound _ hr (absurd rfl) (absurd hnone)
    · exact run ms ⟨hr, statusLast_stepsOf hms, absurd hnone⟩
    · exact run ms ⟨hr, statusLast_stepsOf hms, absurd hnone⟩
  · have hlegal : statusLast ms ∧ (s.resultStatus ≠ none → ms = []) := by simpa only [PosLegal, hp] using hpos
    exact run ms ⟨hr, hlegal.1, hlegal.2⟩
  · have hlegal : (info ≠ 0 → e = .uncorrectableEcc) ∧ (s.resultStatus ≠ none → e = .ioError) := by
      simpa only [PosLegal, hp] using hpos
    exact raiseErr_resultSound _ hr hlegal.1 hlegal.2

theorem raiseErr_resultStatus (k : OpKind) (e : Err) (info : BitVec 16) (s : State) :
    (raiseErr k e info s).resultStatus = s.resultStatus := by
  simp only [raiseErr]
  split
  · rfl
  · split <;> rfl

theorem resultLegal_zero : ResultLegal 0 := by
  unfold ResultLegal
  decide

theorem resetNpe_resultInv (s : State) : ResultInv (resetNpe s) where
  result := resultLegal_zero
  position hb := nomatch hb
  invalid hb := nomatch hb

end Sys2Proof.Machine

namespace Sys2Proof

open Sys2Proof.Machine

/-- Settles O56: issue clears the status byte, and an operation leaves RESULT legal at each end its run can have. -/
theorem stepKeepsResultInv : Obligations.StepKeepsResultInv := by
  unfold Obligations.StepKeepsResultInv
  intro s t hs hstep
  obtain ⟨-, ⟨e, rest, -, he⟩ | ⟨hbusy, -, i, hi, hx⟩ | ⟨hbusy, -, ⟨w, hw⟩, rfl⟩ | ⟨-, rfl⟩⟩ := step_cases hstep
  · rcases hostStep_cases he with ⟨-, rfl⟩ | ⟨v, -, -, rfl⟩ | ⟨v, -, hidle, rfl⟩ | ⟨m, r, n, seen, rfl, -⟩
    · exact resetNpe_resultInv _
    · exact ⟨hs.result, fun _ => rfl, fun _ _ => rfl⟩
    · exact ⟨hs.result, hs.position, fun hb => absurd (hidle.symm.trans hb) (by decide)⟩
    · exact ⟨hs.result, hs.position, hs.invalid⟩
  · obtain ⟨hr, hpos⟩ := exec_resultSound hs.result (hs.position hbusy) hx
    exact ⟨hr, hpos, fun _ hno => absurd (by rw [(exec_sameDescriptor hx).cur, hi]) (hno i)⟩
  · have hnone : s.resultStatus = none := hs.invalid hbusy fun i hi => by rw [hw] at hi; cases hi
    obtain ⟨hr, hpos⟩ := raiseErr_resultSound .other hs.result (info := 0) (absurd rfl) (absurd hnone)
    exact ⟨hr, hpos, fun _ _ => (raiseErr_resultStatus _ _ _ _).trans hnone⟩
  · exact hs

end Sys2Proof

/-! ### The machine's data stays well-formed -/

namespace Sys2Proof.Machine

/-- What `MachineInv` says of memory and the device, under an admitted configuration. -/
structure DataInv (s : State) : Prop where
  admitted : s.cfg.wf = true
  memory : Memory.wf s.mem
  unidentifiedId : s.dev = none → s.idReg = 0
  device : DeviceFromCatalog s
  buffers : BuffersSized s

theorem DataInv.of_machineInv {s : State} (h : MachineInv s) (hw : s.cfg.wf = true) : DataInv s :=
  ⟨hw, h.memory, h.unidentifiedId, h.device, h.buffers⟩

/-- Forgetting the device leaves nothing to say of it (R146, R147). -/
theorem DataInv.forget {s : State} (h : DataInv s) : DataInv (forgetDevice s) where
  admitted := h.admitted
  memory := h.memory
  unidentifiedId _ := rfl
  device _ hd := nomatch hd
  buffers _ hd := nomatch hd

theorem controlFree_dataInv : ControlFree DataInv where
  pos _ _ h := ⟨h.admitted, h.memory, h.unidentifiedId, h.device, h.buffers⟩
  completion _ _ _ h := ⟨h.admitted, h.memory, h.unidentifiedId, h.device, h.buffers⟩
  forget _ h := h.forget

theorem catalogMatch_mem {c : Config} {maker device : Byte} {e : ChipDesc} (h : catalogMatch c maker device = some e) :
    e ∈ c.catalog :=
  List.mem_of_find?_eq_some h

/-- An admitted ECC descriptor lists one offset for each byte of its codes (R160). -/
theorem eccPositions_length {c : Config} {e : ChipDesc} (hw : c.wf = true) (he : e ∈ c.catalog) :
    (eccPositions c).length = eccSize c := by
  cases hecc : c.ecc with
  | none => simp [eccPositions, eccSize, hecc]
  | some x =>
    obtain ⟨-, -, -, -, -, hlength, -⟩ := ((config_wf_iff c).1 hw).2 e he |>.2 x hecc
    simpa [eccPositions, eccSize, hecc] using hlength

theorem perform_memory_wf {k : OpKind} {m : Micro} {s : State} (h : Memory.wf s.mem) :
    Memory.wf (flowState (perform k m s)).mem := by
  rcases perform_mem k m s with hmem | ⟨buf, i, x, -, -, hmem⟩
  · exact hmem ▸ h
  · exact hmem ▸ memWriteBytes_wf _ _ h

theorem perform_dataInv {k : OpKind} {m : Micro} {s : State} (h : DataInv s) : DataInv (flowState (perform k m s)) := by
  have hcfg := (perform_control k m s).cfg
  have hmem := perform_memory_wf (k := k) (m := m) h.memory
  rcases perform_dev k m s with ⟨hdev, hid⟩ | ⟨-, hforget⟩ | ⟨-, e, he, hdev, hid⟩ |
    ⟨hid, d, d', hd, hd', hgeom, hcalc, hoob, hread⟩
  · exact ⟨hcfg ▸ h.admitted, hmem, by rw [hdev, hid]; exact h.unidentifiedId,
      by unfold DeviceFromCatalog; rw [hdev, hid, hcfg]; exact h.device,
      by unfold BuffersSized; rw [hdev, hcfg]; exact h.buffers⟩
  · exact hforget ▸ h.forget
  · refine ⟨hcfg ▸ h.admitted, hmem, fun hnone => ?_, fun x hx => ?_, fun x hx => ?_⟩
    · rw [hdev] at hnone; cases hnone
    · rw [hdev] at hx; cases hx
      exact ⟨e, hcfg ▸ catalogMatch_mem he, rfl, hid⟩
    · rw [hdev] at hx; cases hx
      rw [hcfg]
      simp [loadedDevice]
  · obtain ⟨e, he, hde, hids⟩ := h.device d hd
    obtain ⟨hoobLen, hcalcLen, hreadLen⟩ := h.buffers d hd
    refine ⟨hcfg ▸ h.admitted, hmem, fun hnone => ?_, fun x hx => ?_, fun x hx => ?_⟩
    · rw [hd'] at hnone; cases hnone
    · rw [hd'] at hx; cases hx
      exact ⟨e, hcfg ▸ he, hgeom.trans hde, hid.trans hids⟩
    · rw [hd'] at hx; cases hx
      rw [hcfg, hgeom]
      refine ⟨?_, hcalc.trans hcalcLen, ?_⟩
      · exact hoob.elim (fun heq => heq ▸ hoobLen) id
      · exact hread.elim (fun heq => heq ▸ hreadLen) fun hlen => hlen.trans (eccPositions_length h.admitted he)

theorem exec_dataInv {i : Instr} {s t : State} (hs : DataInv s) (h : exec i s = .next t) : DataInv t :=
  exec_keeps controlFree_dataInv (fun _ _ h => ⟨h.admitted, h.memory, h.unidentifiedId, h.device, h.buffers⟩)
    (fun _ _ _ _ _ h => perform_dataInv h) h hs

/-- A step that leaves the latched descriptor and its registers keeps them in agreement while BUSY. -/
theorem DataInv.machineInv {s t : State} (h : DataInv t) (hsame : SameDescriptor s t) (hbusy : s.phase = .busy)
    (hs : MachineInv s) : MachineInv t :=
  ⟨h.memory, h.unidentifiedId, h.device, h.buffers, fun _ => by
    rw [hsame.cur, hsame.desc0, hsame.desc1]
    exact hs.latched hbusy⟩

end Sys2Proof.Machine

namespace Sys2Proof

open Sys2Proof.Machine

/-- Settles O54: an issue latches what the registers hold, and every step of an operation keeps memory and device. -/
theorem stepKeepsMachineInv : Obligations.StepKeepsMachineInv := by
  unfold Obligations.StepKeepsMachineInv
  intro s t hs hstep
  obtain ⟨hw, ⟨e, rest, -, he⟩ | ⟨hbusy, -, i, -, hx⟩ | ⟨hbusy, -, -, rfl⟩ | ⟨-, rfl⟩⟩ := step_cases hstep
  · rcases hostStep_cases he with ⟨-, rfl⟩ | ⟨v, -, -, rfl⟩ | ⟨v, -, hidle, rfl⟩ | ⟨m, r, n, seen, rfl, hm⟩
    · exact ⟨hs.memory, fun _ => rfl, (fun _ hd => nomatch hd), (fun _ hd => nomatch hd), (fun hb => nomatch hb)⟩
    · exact ⟨hs.memory, hs.unidentifiedId, hs.device, hs.buffers, fun _ => rfl⟩
    · exact ⟨hs.memory, hs.unidentifiedId, hs.device, hs.buffers, fun hb => absurd (hidle.symm.trans hb) (by decide)⟩
    · refine ⟨?_, hs.unidentifiedId, hs.device, hs.buffers, hs.latched⟩
      rcases hm with rfl | ⟨a, v, b, -, rfl⟩
      · exact hs.memory
      · exact memWrite_wf a b hs.memory
  · exact (exec_dataInv (.of_machineInv hs hw) hx).machineInv (exec_sameDescriptor hx) hbusy hs
  · exact (raiseErr_keeps controlFree_dataInv _ _ _ (.of_machineInv hs hw)).machineInv (raiseErr_sameDescriptor _ _ _ _) hbusy hs
  · exact hs

end Sys2Proof

/-! ### Reading and writing the registers -/

namespace Sys2Proof.Machine

/-- A host event other than a completion wait lands at once (R30, R250). -/
theorem step_host {s : State} {e : HostEvent} {rest : List Input} (hw : s.cfg.wf = true)
    (hi : s.inputs = .host e :: rest) (he : e ≠ .wait) : step s = hostStep e { s with inputs := rest } := by
  cases e <;> simp_all [step, advance]

/-- While BUSY with no host event due the operation in flight moves (R21). -/
theorem step_busy {s : State} (hw : s.cfg.wf = true) (hp : s.phase = .busy) (hd : hostDue s = false) :
    step s = runCurrent s := by
  simp only [step, advance, hw, if_true, hp]
  split
  · rfl
  · next e rest hn hi =>
    cases e <;> simp_all [hostDue, hostFirst]
  · rfl
  · simp_all

/-- A write of any register but DESC0 and DESC1 changes nothing (R32, R36). -/
theorem step_writeReg_readOnly {s : State} {n : Nat} {v : Word64} {rest : List Input} (hw : s.cfg.wf = true)
    (hn : 2 ≤ n) (hi : s.inputs = .host (.writeReg n v) :: rest) : step s = .next { s with inputs := rest } := by
  rw [step_host hw hi (by simp)]
  obtain ⟨n, rfl⟩ := Nat.exists_eq_add_of_le' hn
  rfl

theorem step_writeReg_busy {s : State} {n : Nat} {v : Word64} {rest : List Input} (hw : s.cfg.wf = true)
    (hn : n = 0 ∨ n = 1) (hi : s.inputs = .host (.writeReg n v) :: rest) (hp : s.phase = .busy) :
    step s = .refused .descWriteWhileBusy := by
  rw [step_host hw hi (by simp)]
  rcases hn with rfl | rfl <;> simp [hostStep, writeReg, hp]

theorem step_writeDesc0_idle {s : State} {v : Word64} {rest : List Input} (hw : s.cfg.wf = true)
    (hi : s.inputs = .host (.writeReg 0 v) :: rest) (hp : s.phase = .idle) :
    step s = .next (issue v { s with inputs := rest }) := by
  rw [step_host hw hi (by simp)]
  simp [hostStep, writeReg, hp]

theorem step_writeDesc1_idle {s : State} {v : Word64} {rest : List Input} (hw : s.cfg.wf = true)
    (hi : s.inputs = .host (.writeReg 1 v) :: rest) (hp : s.phase = .idle) :
    step s = .next { s with inputs := rest, desc1 := v } := by
  rw [step_host hw hi (by simp)]
  simp [hostStep, writeReg, hp]

end Sys2Proof.Machine

namespace Sys2Proof

open Sys2Proof.Machine

/-- Settles O3: the two writes by their landing, and what else a step can be leaves both registers. -/
theorem descriptorWritesIssueOrStore : Obligations.DescriptorWritesIssueOrStore := by
  unfold Obligations.DescriptorWritesIssueOrStore
  refine ⟨fun s v rest hw => ⟨fun hi hp => ?_, fun hi hp => ?_, fun hi hp => ?_, fun hi hp => ?_⟩,
    fun s t hstep => ?_⟩
  · exact ⟨_, step_writeDesc0_idle hw hi hp, rfl, rfl, rfl, rfl, rfl, rfl, rfl, rfl, rfl, rfl, rfl, rfl⟩
  · exact ⟨_, step_writeDesc1_idle hw hi hp, rfl, rfl⟩
  · exact step_writeReg_busy hw (.inl rfl) hi hp
  · exact step_writeReg_busy hw (.inr rfl) hi hp
  · obtain ⟨-, ⟨e, rest, hi, he⟩ | ⟨-, -, i, -, hx⟩ | ⟨-, -, -, rfl⟩ | ⟨-, rfl⟩⟩ := step_cases hstep
    · refine ⟨fun h0 => ⟨e, rest, hi, ?_⟩, fun h1 => ⟨e, rest, hi, ?_⟩, rfl, rfl⟩
      · rcases hostStep_cases he with ⟨rfl, -⟩ | ⟨v, rfl, -, -⟩ | ⟨v, -, -, rfl⟩ | ⟨m, r, n, seen, rfl, -⟩
        · exact .inr rfl
        · exact .inl ⟨v, rfl⟩
        · exact absurd rfl h0
        · exact absurd rfl h0
      · rcases hostStep_cases he with ⟨rfl, -⟩ | ⟨v, -, -, rfl⟩ | ⟨v, rfl, -, -⟩ | ⟨m, r, n, seen, rfl, -⟩
        · exact .inr rfl
        · exact absurd rfl h1
        · exact .inl ⟨v, rfl⟩
        · exact absurd rfl h1
    · have hsame := exec_sameDescriptor hx
      exact ⟨absurd hsame.desc0, absurd hsame.desc1, rfl, rfl⟩
    · have hsame := raiseErr_sameDescriptor .other .notSupported 0 s
      exact ⟨absurd hsame.desc0, absurd hsame.desc1, rfl, rfl⟩
    · exact ⟨absurd rfl, absurd rfl, rfl, rfl⟩

/-- Settles O13: with no host event due a BUSY step moves the operation in flight. -/
theorem stepRunsDecodedInstruction : Obligations.StepRunsDecodedInstruction := by
  unfold Obligations.StepRunsDecodedInstruction
  intro s i hw hp hd hi
  rw [step_busy hw hp hd, runCurrent, hi]

/-- Settles O50: neither the host's acts nor an operation's steps write the configuration. -/
theorem noStepWritesConfiguration : Obligations.NoStepWritesConfiguration := by
  unfold Obligations.NoStepWritesConfiguration
  intro s t hstep
  obtain ⟨-, ⟨e, rest, -, he⟩ | ⟨-, -, i, -, hx⟩ | ⟨-, -, -, rfl⟩ | ⟨-, rfl⟩⟩ := step_cases hstep
  · rcases hostStep_cases he with ⟨-, rfl⟩ | ⟨v, -, -, rfl⟩ | ⟨v, -, -, rfl⟩ | ⟨m, r, n, seen, rfl, -⟩ <;> rfl
  · exact (exec_sameDescriptor hx).cfg
  · exact (raiseErr_sameDescriptor _ _ _ _).cfg
  · rfl

end Sys2Proof

namespace Sys2Proof.Machine

/-! ### RESULT moves only with the phase, the geometry only with the device -/

/-- The completion step alone writes RESULT, and it sets IDLE. -/
theorem controlFree_result (r : Word32) : ControlFree fun t => t.phase = .idle ∨ t.result = r where
  pos _ _ h := h
  completion _ _ _ _ := .inl rfl
  forget _ h := h

theorem exec_result {i : Instr} {s t : State} (h : exec i s = .next t) : t.phase = .idle ∨ t.result = s.result :=
  exec_keeps (controlFree_result s.result) (fun _ _ hx => hx)
    (fun k m x _ _ hx => by
      have hctl := perform_control k m x
      rwa [hctl.phase, hctl.result])
    h (.inr rfl)

theorem completeOk_dev (s : State) : (completeOk s).dev = s.dev := by
  simp only [completeOk]
  split <;> rfl

/-- Only an error of IDENTIFY rolls the device back (R146). -/
theorem raiseErr_other_dev (e : Err) (info : BitVec 16) (s : State) : (raiseErr .other e info s).dev = s.dev := by
  simp only [raiseErr]
  split
  · rfl
  · simp

/-- A run of steps that neither load nor release the device keeps the geometry and whether there is one. -/
theorem runRule_geom (g : Option Geometry) :
    RunRule .other (fun ms s => (∀ m ∈ ms, ¬ (m = .loadGeometry ∨ m = .release)) ∧ s.dev.map (·.geom) = g)
      (fun t => t.dev.map (·.geom) = g) where
  complete s hs := by rw [completeOk_dev]; exact hs.2
  pause m ms s hs := hs.2
  done m ms s s' hs hp := by
    rw [List.forall_mem_cons] at hs
    have hgeom := perform_geom (k := .other) (s := s) hs.1.1
    rw [hp] at hgeom
    exact ⟨hs.1.2, hgeom.trans hs.2⟩
  again m ms s loop s' hs hp := by
    have hgeom := perform_geom (k := .other) (s := s) (hs.1 m List.mem_cons_self)
    rw [hp] at hgeom
    exact hgeom.trans hs.2
  raised m ms s e info s' hs hp := by
    have hgeom := perform_geom (k := .other) (s := s) (hs.1 m List.mem_cons_self)
    rw [hp] at hgeom
    rw [raiseErr_other_dev]
    exact hgeom.trans hs.2

theorem kindOf_other {i : Instr} (h : i ≠ .identify) : kindOf i = .other := by
  cases i with
  | identify => exact absurd rfl h
  | _ => rfl

/-- An operation other than IDENTIFY and DETACH keeps the geometry and whether there is one (R22, R23). -/
theorem exec_geom {i : Instr} {s t : State} (hid : i ≠ .identify) (hdet : i ≠ .detach) (hs : AtOwnSteps i s)
    (h : exec i s = .next t) : t.dev.map (·.geom) = s.dev.map (·.geom) := by
  have run : ∀ ms (x : State), (∀ m ∈ ms, m ∈ ownSteps i s) → x.dev = s.dev →
      (runSteps .other ms x).dev.map (·.geom) = s.dev.map (·.geom) := fun ms x hms hx =>
    (runRule_geom (s.dev.map (·.geom))).run ms
      ⟨fun m hm hlife => (lifecycle_of_mem_ownSteps hlife (hms m hm)).elim hid hdet, by rw [hx]⟩
  have hx := exec_cases h
  rw [kindOf_other hid] at hx
  rcases hx with ⟨-, ⟨e, rfl, -⟩ | ⟨ms, hms, rfl | rfl⟩⟩ | ⟨ms, hms, rfl⟩ | ⟨e, info, -, rfl⟩
  · rw [raiseErr_other_dev]
  · exact run ms s (stepsOf_subset_ownSteps hms) rfl
  · exact run ms _ (stepsOf_subset_ownSteps hms) rfl
  · exact run ms s (hs ms hms) rfl
  · rw [raiseErr_other_dev]

theorem identified_congr {s t : State} (h : t.dev.map (·.geom) = s.dev.map (·.geom)) : identified t = identified s := by
  simpa [identified] using congrArg Option.isSome h

theorem geometry_eq (s : State) : geometry s = (s.dev.map (·.geom)).getD Geometry.none := by
  cases h : s.dev <;> simp [geometry, h]

end Sys2Proof.Machine

namespace Sys2Proof

open Sys2Proof.Machine

/-- Settles O6: an operation that has not completed has left RESULT, and of the host's acts only reset writes it. -/
theorem resultChangesOnlyAtCompletion : Obligations.ResultChangesOnlyAtCompletion := by
  unfold Obligations.ResultChangesOnlyAtCompletion
  intro s t hstep hne
  obtain ⟨-, ⟨e, rest, hi, he⟩ | ⟨hbusy, -, i, -, hx⟩ | ⟨hbusy, -, -, rfl⟩ | ⟨-, rfl⟩⟩ := step_cases hstep
  · rcases hostStep_cases he with ⟨rfl, -⟩ | ⟨v, -, -, rfl⟩ | ⟨v, -, -, rfl⟩ | ⟨m, r, n, seen, rfl, -⟩
    · exact .inl ⟨rest, hi⟩
    · exact absurd rfl hne
    · exact absurd rfl hne
    · exact absurd rfl hne
  · exact .inr ⟨hbusy, (exec_result hx).resolve_right hne⟩
  · exact .inr ⟨hbusy, (raiseErr_keeps (controlFree_result s.result) _ _ _ (.inr rfl)).resolve_right hne⟩
  · exact absurd rfl hne

/-- Settles O51: inside its own sequence an operation other than IDENTIFY and DETACH keeps the geometry, and of the host's
acts only reset forgets it. -/
theorem onlyLifecycleChangesGeometry : Obligations.OnlyLifecycleChangesGeometry := by
  unfold Obligations.OnlyLifecycleChangesGeometry
  intro s t hs hstep hne
  have changed : ¬ t.dev.map (·.geom) = s.dev.map (·.geom) := fun h =>
    hne.elim (absurd (identified_congr h)) (absurd (by rw [geometry_eq, geometry_eq, h]))
  obtain ⟨-, ⟨e, rest, hi, he⟩ | ⟨hbusy, -, i, hi, hx⟩ | ⟨-, -, -, rfl⟩ | ⟨-, rfl⟩⟩ := step_cases hstep
  · rcases hostStep_cases he with ⟨rfl, -⟩ | ⟨v, -, -, rfl⟩ | ⟨v, -, -, rfl⟩ | ⟨m, r, n, seen, rfl, -⟩
    · exact .inl ⟨rest, hi⟩
    · exact absurd rfl changed
    · exact absurd rfl changed
    · exact absurd rfl changed
  · refine .inr ⟨hbusy, ?_⟩
    by_contra hno
    rw [hi, Decoded.valid.injEq, Decoded.valid.injEq, not_or] at hno
    exact changed (exec_geom hno.1 hno.2 (hs hbusy i hi) hx)
  · exact absurd (by rw [raiseErr_other_dev]) changed
  · exact absurd rfl changed

end Sys2Proof

namespace Sys2Proof

open Sys2Proof.Machine

/-! ### The encoded descriptor decodes to its operation -/

/-- The fields of an operation's descriptor: its operands, and nothing in the reserved bits (R80, R95). -/
theorem fieldsOfWords_encode (i : Instr) :
    fieldsOfWords (encodeDesc0 i) (encodeDesc1 i) =
      { op := i.opcode.setWidth 4, en := i.enOperand, rsvd := 0, arg := i.argOperand, buf := i.bufOperand } := by
  have hop : i.opcode = (i.opcode.setWidth 4).setWidth 64 := by cases i <;> rfl
  have hword := fieldsOfWords_word i.argOperand i.enOperand (i.opcode.setWidth 4) i.bufOperand
  rwa [← hop] at hword

theorem decodeFields_encode (i : Instr) : decodeFields (fieldsOfWords (encodeDesc0 i) (encodeDesc1 i)) = .valid i := by
  rw [fieldsOfWords_encode]
  cases i with
  | select en => cases en <;> rfl
  | _ => rfl

/-- A run whose first step answers a next state goes on from there. -/
theorem run_succ (M : Host.Core) {s t : M.State} (h : M.step s = .next t) (k : Nat) : M.run (k + 1) s = M.run k t := by
  rw [Host.Core.run, h]

/-- Settles O19: the first write stores DESC1, the second issues, and the latched words are the operation's encoding. -/
theorem assembledLineIssuesItsOperation : Obligations.AssembledLineIssuesItsOperation := by
  unfold Obligations.AssembledLineIssuesItsOperation
  intro i s rest hw hp hi
  have hstore := step_writeDesc1_idle hw hi hp
  have hissue := step_writeDesc0_idle (v := encodeDesc0 i) (rest := rest)
    (s := { s with inputs := .host (.writeReg 0 (encodeDesc0 i)) :: rest, desc1 := encodeDesc1 i }) hw rfl hp
  refine ⟨issue (encodeDesc0 i) { s with inputs := rest, desc1 := encodeDesc1 i }, ?_, rfl, rfl,
    decodeFields_encode i, rfl⟩
  calc Host.Core.run core 2 s
      = Host.Core.run core 1 _ := run_succ core hstore 1
    _ = Host.Core.run core 0 _ := run_succ core hissue 0
    _ = _ := rfl

end Sys2Proof

namespace Sys2Proof.Machine

/-! ### The bits of ENGSTAT and of the geometry registers -/

/-- Bit `i` of ENGSTAT (R32). -/
theorem engstat_getLsbD (s : State) (i : Nat) : (engstat s).getLsbD i =
    ((decide (i = 0) && decide (s.phase = .busy)) || (decide (i = 1) && identified s) || (decide (i = 2) && s.ce) ||
      (decide (i = 3) && s.cfg.ecc.isSome)) := by
  simp only [engstat, BitVec.getLsbD_or, fieldAt_getLsbD, BitVec.getLsbD_ofBool]
  rcases i with _ | _ | _ | _ | i <;> simp

/-- Bit `i` of GEOM_ADDR (R30). -/
theorem geomAddr_getLsbD (g : Geometry) (i : Nat) : (geomAddr g).getLsbD i =
    ((BitVec.ofNat 4 g.colCycles).getLsbD i || (decide (4 ≤ i) && (BitVec.ofNat 4 g.rowCycles).getLsbD (i - 4)) ||
      (decide (8 ≤ i) && (BitVec.ofNat 8 g.cellWidth).getLsbD (i - 8)) || (decide (i = 16) && g.readStart)) := by
  simp only [geomAddr, BitVec.getLsbD_or, fieldAt_getLsbD, BitVec.getLsbD_ofBool]
  by_cases hi : i < 32
  · simp [hi, show i = 16 ↔ 16 ≤ i ∧ i - 16 = 0 by omega, ← decide_not, Bool.and_assoc]
  · have hcol : (BitVec.ofNat 4 g.colCycles).getLsbD i = false := BitVec.getLsbD_of_ge _ _ (by omega)
    have hrow : (BitVec.ofNat 4 g.rowCycles).getLsbD (i - 4) = false := BitVec.getLsbD_of_ge _ _ (by omega)
    have hcell : (BitVec.ofNat 8 g.cellWidth).getLsbD (i - 8) = false := BitVec.getLsbD_of_ge _ _ (by omega)
    simp [hi, hcol, hrow, hcell, show i ≠ 16 by omega]

/-- A register that shows a 32-bit size in 64 bits. -/
theorem toNat_setWidth_ofNat32 {n : Nat} (h : n < 2 ^ 32) : ((BitVec.ofNat 32 n).setWidth 64).toNat = n := by
  rw [BitVec.toNat_setWidth, BitVec.toNat_ofNat, Nat.mod_eq_of_lt h, Nat.mod_eq_of_lt (by omega)]

theorem geomAddr_colCycles (g : Geometry) : ((geomAddr g).setWidth 64).extractLsb' 0 4 = BitVec.ofNat 4 g.colCycles := by
  apply BitVec.eq_of_getLsbD_eq
  intro i hi
  simp [geomAddr_getLsbD, hi, show i < 64 by omega, show ¬ 4 ≤ i by omega, show ¬ 8 ≤ i by omega, show i ≠ 16 by omega]

theorem geomAddr_rowCycles (g : Geometry) : ((geomAddr g).setWidth 64).extractLsb' 4 4 = BitVec.ofNat 4 g.rowCycles := by
  apply BitVec.eq_of_getLsbD_eq
  intro i hi
  simp [geomAddr_getLsbD, hi, show 4 + i < 64 by omega, show ¬ 8 ≤ 4 + i by omega, show 4 + i ≠ 16 by omega]

theorem geomAddr_cellWidth (g : Geometry) : ((geomAddr g).setWidth 64).extractLsb' 8 8 = BitVec.ofNat 8 g.cellWidth := by
  apply BitVec.eq_of_getLsbD_eq
  intro i hi
  have hcol : (BitVec.ofNat 4 g.colCycles).getLsbD (8 + i) = false := BitVec.getLsbD_of_ge _ _ (by omega)
  have hrow : (BitVec.ofNat 4 g.rowCycles).getLsbD (8 + i - 4) = false := BitVec.getLsbD_of_ge _ _ (by omega)
  simp [geomAddr_getLsbD, hcol, hrow, hi, show 8 + i < 64 by omega, show 8 + i ≠ 16 by omega]

theorem geomAddr_from_sixteen (g : Geometry) {i : Nat} (h : 16 ≤ i) :
    ((geomAddr g).setWidth 64).getLsbD i = (decide (i = 16) && g.readStart) := by
  have hcol : (BitVec.ofNat 4 g.colCycles).getLsbD i = false := BitVec.getLsbD_of_ge _ _ (by omega)
  have hrow : (BitVec.ofNat 4 g.rowCycles).getLsbD (i - 4) = false := BitVec.getLsbD_of_ge _ _ (by omega)
  have hcell : (BitVec.ofNat 8 g.cellWidth).getLsbD (i - 8) = false := BitVec.getLsbD_of_ge _ _ (by omega)
  simp only [BitVec.getLsbD_setWidth, geomAddr_getLsbD, hcol, hrow, hcell]
  by_cases hi : i = 16 <;> simp [hi]

theorem readReg_unidentified {s : State} (h : s.dev = none) {n : Nat} (h5 : 5 ≤ n) (h10 : n ≤ 10) : readReg s n = 0 := by
  have hg : geometry s = Geometry.none := by rw [geometry, h]
  interval_cases n <;> simp only [readReg, hg] <;> decide

theorem readReg_above {s : State} {n : Nat} (h : 10 < n) : readReg s n = 0 := by
  obtain ⟨n, rfl⟩ := Nat.exists_eq_add_of_le' h
  rfl

end Sys2Proof.Machine

namespace Sys2Proof

open Sys2Proof.Machine

/-- Settles O4: the bits of ENGSTAT at each place, and a write of register 3 lands as no change. -/
theorem engstatShowsInternalState : Obligations.EngstatShowsInternalState := by
  unfold Obligations.EngstatShowsInternalState
  intro s
  refine ⟨rfl, ?_, ?_, ?_, ?_, fun i hi => ?_, fun v rest hw hi => step_writeReg_readOnly hw (by decide) hi⟩
  · rw [engstat_getLsbD]; simp
  · rw [engstat_getLsbD]; simp
  · rw [engstat_getLsbD]; simp
  · rw [engstat_getLsbD]; simp
  · simp [engstat_getLsbD, show i ≠ 0 by omega, show i ≠ 1 by omega, show i ≠ 2 by omega, show i ≠ 3 by omega]

/-- Settles O5: an admitted geometry fits the fields of GEOM_ADDR, and each size its register where it is below 2^32. -/
theorem geometryRegistersReadGeometry : Obligations.GeometryRegistersReadGeometry := by
  unfold Obligations.GeometryRegistersReadGeometry
  intro s
  refine ⟨rfl, rfl, fun d hd hwf => ?_, fun hd n => readReg_unidentified hd, fun n => readReg_above,
    fun n v rest hw hn hi => step_writeReg_readOnly hw hn hi⟩
  obtain ⟨-, -, -, -, -, hcol, -, hrow, hcell⟩ := (geometry_wf_iff d.geom).1 hwf
  have hg : geometry s = d.geom := by rw [geometry, hd]
  simp only [readReg, hg]
  refine ⟨toNat_setWidth_ofNat32, toNat_setWidth_ofNat32, toNat_setWidth_ofNat32, toNat_setWidth_ofNat32,
    toNat_setWidth_ofNat32, ?_, ?_, ?_, ?_, fun i hi => ?_⟩
  · rw [geomAddr_colCycles, BitVec.toNat_ofNat, Nat.mod_eq_of_lt (by omega)]
  · rw [geomAddr_rowCycles, BitVec.toNat_ofNat, Nat.mod_eq_of_lt (by omega)]
  · rw [geomAddr_cellWidth, BitVec.toNat_ofNat, Nat.mod_eq_of_lt (by omega)]
  · rw [geomAddr_from_sixteen _ (le_refl 16)]; simp
  · simp [geomAddr_from_sixteen _ (show 16 ≤ i by omega), show i ≠ 16 by omega]

end Sys2Proof

namespace Sys2Proof.Machine

/-! ### The page-buffer access that is not admitted (R63) -/

theorem admits_iff (c : Config) (a : Nat) :
    admits c a = true ↔ a < 2 ^ 64 ∧ ∃ r ∈ c.hostMem, r.base ≤ a ∧ a < r.base + r.size := by
  simp [admits]

theorem pageAdmitted_iff (s : State) (buf : Word64) :
    pageAdmitted s buf = true ↔ ∀ i < (geometry s).pageSize, admits s.cfg (buf.toNat + i) = true := by
  simp [pageAdmitted, admitsRange]

theorem runOperation_stuck {k : OpKind} {start : State → State} {s : State} {ms : List Micro} (hpos : s.pos = .run ms)
    (h : stuckAt ms s = true) : runOperation k start s = .fault .bufferNotAdmitted := by
  simp [runOperation, hpos, h]

theorem exec_stuck (i : Instr) {s : State} {ms : List Micro} (hpos : s.pos = .run ms) (h : stuckAt ms s = true) :
    exec i s = .fault .bufferNotAdmitted := by
  cases i <;> exact runOperation_stuck hpos h

theorem stuckAt_cons {m : Micro} {s : State} (ms : List Micro) (hh : hostDue s = false) (hb : blocked s m = true) :
    stuckAt (m :: ms) s = true := by
  simp [stuckAt, hh, hb]

/-- A run stops before a blocked step (R63). -/
theorem runSteps_blocked {k : OpKind} {m : Micro} {ms : List Micro} {s : State} (hb : blocked s m = true) :
    runSteps k (m :: ms) s = { s with pos := .run (m :: ms) } := by
  simp [runSteps, hb]

/-! ### The steps that write the page buffer (R61) -/

/-- The steps whose bytes land in the page buffer: a stride of a read and its correction (R163, R169). -/
def landsInPage : Micro → Bool
  | .strideRead _ _ | .eccCorrect _ _ => true
  | .select _ | .cmd _ | .addr _ | .zeroPolls | .waitRnb | .statusRead _ | .delay | .readMaker | .readDevice
  | .loadGeometry | .eccStart | .strideWrite _ _ | .eccCompute _ | .spareRead | .extractEcc | .buildSpare | .spareWrite
  | .release => false

theorem perform_mem_of_not_landsInPage {k : OpKind} {m : Micro} {s : State} (h : landsInPage m = false) :
    (flowState (perform k m s)).mem = s.mem := by
  rcases perform_mem k m s with hmem | ⟨buf, i, x, rfl | rfl, -⟩
  · exact hmem
  · cases h
  · cases h

theorem identifySteps_not_landsInPage (c : Config) : ∀ m ∈ identifySteps c, landsInPage m = false := by
  have hbracket : ∀ b, ∀ m ∈ bracketSelect c b, landsInPage m = false := fun b => by
    simp only [bracketSelect]
    split <;> simp [landsInPage]
  have hwait : ∀ m ∈ resetWaitSteps c, landsInPage m = false := by
    simp only [resetWaitSteps]
    split <;> simp [waitRnb, statusPoll, landsInPage]
  simp only [identifySteps, List.forall_mem_append]
  exact ⟨⟨⟨⟨⟨hbracket true, by simp [landsInPage]⟩, hwait⟩, by simp [landsInPage]⟩, hbracket false⟩, by simp [landsInPage]⟩

theorem addressPhase_not_landsInPage (g : Geometry) (idx : Word32) (withCol : Bool) :
    ∀ m ∈ addressPhase g idx withCol, landsInPage m = false := by
  simp [addressPhase, landsInPage]

theorem strideWriteSteps_not_landsInPage (c : Config) (buf : Word64) (k : Nat) :
    ∀ m ∈ strideWriteSteps c buf k, landsInPage m = false := by
  simp only [strideWriteSteps]
  split <;> simp [landsInPage]

theorem pageProgramSteps_not_landsInPage (c : Config) (page : Word32) (buf : Word64) (g : Geometry) :
    ∀ m ∈ pageProgramSteps c page buf g, landsInPage m = false := by
  simp only [pageProgramSteps, transferWrite, List.forall_mem_append, List.forall_mem_flatMap]
  exact ⟨⟨⟨⟨by simp [landsInPage], addressPhase_not_landsInPage _ _ _⟩,
    fun k _ => strideWriteSteps_not_landsInPage _ _ _, by simp [landsInPage]⟩, by simp [landsInPage]⟩,
    by simp [statusPoll, landsInPage]⟩

theorem blockEraseSteps_not_landsInPage (c : Config) (block : Word32) (g : Geometry) :
    ∀ m ∈ blockEraseSteps c block g, landsInPage m = false := by
  simp only [blockEraseSteps, List.forall_mem_append]
  exact ⟨⟨⟨by simp [landsInPage], addressPhase_not_landsInPage _ _ _⟩, by simp [landsInPage]⟩,
    by simp [statusPoll, landsInPage]⟩

/-- Of the operations only PAGE_READ has a step that writes the page buffer (R61). -/
theorem ownSteps_not_landsInPage {i : Instr} {s : State} (hi : ∀ page buf, i ≠ .pageRead page buf) :
    ∀ m ∈ ownSteps i s, landsInPage m = false := by
  intro m hm
  rcases mem_ownSteps.1 hm with ⟨ms, hms, hmem⟩ | rfl
  · cases i with
    | identify => cases hms; exact identifySteps_not_landsInPage _ m hmem
    | select en => cases hms; rw [List.mem_singleton.1 hmem]; rfl
    | detach => cases hms; rw [List.mem_singleton.1 hmem]; rfl
    | pageRead page buf => exact absurd rfl (hi page buf)
    | pageProgram page buf =>
      obtain ⟨d, -, rfl⟩ := Option.map_eq_some_iff.1 hms
      exact pageProgramSteps_not_landsInPage _ _ _ _ m hmem
    | blockErase block =>
      obtain ⟨d, -, rfl⟩ := Option.map_eq_some_iff.1 hms
      exact blockEraseSteps_not_landsInPage _ _ _ m hmem
  · rfl

/-! ### What the steps of an operation's own keep, the operation keeps -/

/-- A property that the control and every step of a kind `M` keep is kept by a run of steps of that kind. -/
theorem runRule_keeps {P : State → Prop} {M : Micro → Prop} (h : ControlFree P) (k : OpKind)
    (hstep : ∀ m s, M m → P s → P (flowState (perform k m s))) :
    RunRule k (fun ms s => (∀ m ∈ ms, M m) ∧ P s) P where
  complete _ hs := completeOk_keeps h hs.2
  pause _ _ _ hs := h.pos _ _ hs.2
  done m ms s s' hs hp := by
    obtain ⟨hm, hms⟩ := List.forall_mem_cons.1 hs.1
    have hkeep := hstep m s hm hs.2
    rw [hp] at hkeep
    exact ⟨hms, hkeep⟩
  again m ms s loop s' hs hp := by
    have hkeep := hstep m s (hs.1 m List.mem_cons_self) hs.2
    rw [hp] at hkeep
    exact h.pos _ _ hkeep
  raised m ms s e info s' hs hp := by
    have hkeep := hstep m s (hs.1 m List.mem_cons_self) hs.2
    rw [hp] at hkeep
    exact raiseErr_keeps h _ _ _ hkeep

/-- A property that the control, the cell width and the steps of the operation's own keep is kept by `exec` from inside
its sequence. -/
theorem exec_keeps_of_ownSteps {P : State → Prop} {M : Micro → Prop} {i : Instr} {s t : State} (h : ControlFree P)
    (hw : ∀ s w, P s → P { s with cellWidth := w }) (hown : ∀ m ∈ ownSteps i s, M m)
    (hstep : ∀ k m s, M m → P s → P (flowState (perform k m s))) (hat : AtOwnSteps i s) (he : exec i s = .next t)
    (hs : P s) : P t := by
  have run : ∀ ms (x : State), (∀ m ∈ ms, m ∈ ownSteps i s) → P x → P (runSteps (kindOf i) ms x) :=
    fun ms x hms hx => (runRule_keeps h _ (hstep _)).run ms ⟨fun m hm => hown m (hms m hm), hx⟩
  rcases exec_cases he with ⟨-, ⟨e, rfl, -⟩ | ⟨ms, hms, rfl | rfl⟩⟩ | ⟨ms, hms, rfl⟩ | ⟨e, info, -, rfl⟩
  · exact raiseErr_keeps h _ _ _ hs
  · exact run ms s (stepsOf_subset_ownSteps hms) hs
  · exact run ms _ (stepsOf_subset_ownSteps hms) (hw _ _ hs)
  · exact run ms s (hat ms hms) hs
  · exact raiseErr_keeps h _ _ _ hs

/-- The control of the sequencer writes no host memory. -/
theorem controlFree_mem (m : Memory) : ControlFree fun t => t.mem = m where
  pos _ _ h := h
  completion _ _ _ h := h
  forget _ h := h

/-- An operation other than PAGE_READ leaves host memory as it is (R61). -/
theorem exec_mem {i : Instr} {s t : State} (hi : ∀ page buf, i ≠ .pageRead page buf) (hat : AtOwnSteps i s)
    (he : exec i s = .next t) : t.mem = s.mem :=
  exec_keeps_of_ownSteps (controlFree_mem s.mem) (fun _ _ h => h) (ownSteps_not_landsInPage hi)
    (fun _ _ _ hm h => (perform_mem_of_not_landsInPage hm).trans h) hat he rfl

/-! ### A page program up to its first stride (R196) -/

/-- The opening of a page program or a block erase, every primitive answered ok: select, command, address phase (R113). -/
theorem runsTo_commandOpening {k : OpKind} {s : State} {rest : List Input} (c : Byte) (g : Geometry) (idx : Word32)
    (withCol : Bool) (sel cmd : Answer) (cycles : List Answer)
    (h : s.inputs = .answer sel :: .answer cmd :: (cycles.map Input.answer ++ rest))
    (hlen : cycles.length = (addressBytes g idx withCol).length) (hsel : sel.ok = true) (hcmd : cmd.ok = true)
    (hok : ∀ a ∈ cycles, a.ok = true) :
    RunsTo k ([.select true, .cmd c] ++ addressPhase g idx withCol) s
      { s with
        ce := true, inputs := rest, draws := s.draws + 2 + cycles.length
        trace := s.trace ++ [.sel true true, .cmd c true] ++ addressEvents g idx withCol } := by
  have commanded := (runsTo_select (k := k) true h hsel).append (runsTo_cmd c rfl hcmd)
  have cycled := commanded.append (runsTo_addrs (addressBytes g idx withCol) cycles rfl hlen hok)
  simpa [received, addressPhase, addressEvents, hlen] using cycled

/-- What a stride does before its transfer: `EccStart` under the ECC option (R163), nothing without (R165). -/
def strideStartSteps (c : Config) : List Micro := if c.ecc.isSome then [.eccStart] else []

theorem strideWriteSteps_eq (c : Config) (buf : Word64) (k : Nat) :
    ∃ ms, strideWriteSteps c buf k = strideStartSteps c ++ .strideWrite buf k :: ms := by
  cases h : c.ecc <;> simp [strideWriteSteps, strideStartSteps, h]

/-- A transfer of at least one stride begins with stride 0 (R161). -/
theorem transferWrite_eq {c : Config} {g : Geometry} (h : 1 ≤ strideCount c g) (buf : Word64) :
    ∃ ms, transferWrite c g buf = strideStartSteps c ++ .strideWrite buf 0 :: ms := by
  obtain ⟨n, hn⟩ := Nat.exists_eq_add_of_le' h
  obtain ⟨ms, hms⟩ := strideWriteSteps_eq c buf 0
  simp [transferWrite, hn, List.range_succ_eq_map, hms]

theorem pageProgramSteps_eq {c : Config} {g : Geometry} (h : 1 ≤ strideCount c g) (page : Word32) (buf : Word64) :
    ∃ ms, pageProgramSteps c page buf g =
      [.select true, .cmd c.bus.cmdProgram] ++ addressPhase g page true ++ strideStartSteps c ++ .strideWrite buf 0 :: ms := by
  obtain ⟨ms, hms⟩ := transferWrite_eq h buf
  simp [pageProgramSteps, hms]

theorem runsTo_strideStart {k : OpKind} {s : State} {rest : List Input} (acks : List Answer)
    (h : s.inputs = acks.map Input.answer ++ rest) (hlen : acks.length = if s.cfg.ecc.isSome then 1 else 0)
    (hok : ∀ a ∈ acks, a.ok = true) :
    RunsTo k (strideStartSteps s.cfg) s
      { s with
        eccAcc := if s.cfg.ecc.isSome then [] else s.eccAcc, inputs := rest, draws := s.draws + acks.length
        trace := s.trace ++ if s.cfg.ecc.isSome then [.eccstart true] else [] } := by
  cases hecc : s.cfg.ecc.isSome with
  | false =>
    obtain rfl : acks = [] := by simpa [hecc] using hlen
    obtain rfl : s.inputs = rest := by simpa using h
    simpa [strideStartSteps, hecc] using RunsTo.nil k s
  | true =>
    obtain ⟨a, rfl⟩ : ∃ a, acks = [a] := List.length_eq_one_iff.1 (by simpa [hecc] using hlen)
    simpa [strideStartSteps, hecc, received] using runsTo_eccStart h (hok a (by simp))

/-- A page program of an identified chip begins by running its steps (R196). -/
theorem exec_pageProgram_start {s : State} {d : Device} (hpos : s.pos = .start) (hdev : s.dev = some d) (page : Word32)
    (buf : Word64) :
    exec (.pageProgram page buf) s = .next (runSteps .other (pageProgramSteps s.cfg page buf d.geom) s) := by
  simp [exec, execPageProgram, runOperation, startIdentified, hpos, hdev]

/-- The answers up to the first stride of a page program: select, command, the address cycles, and the stride's start. -/
theorem programAcks_split {g : Geometry} {n : Nat} {acks : List Answer} (page : Word32)
    (hlen : acks.length = 2 + g.colCycles + g.rowCycles + n) :
    ∃ sel cmd cycles start, acks = sel :: cmd :: (cycles ++ start) ∧
      cycles.length = (addressBytes g page true).length ∧ start.length = n := by
  match acks, hlen with
  | sel :: cmd :: acks, hlen =>
    refine ⟨sel, cmd, acks.take (g.colCycles + g.rowCycles), acks.drop (g.colCycles + g.rowCycles), by simp, ?_, ?_⟩ <;>
      simp [addressBytes_length] at hlen ⊢ <;> omega
  | [_], hlen => simp at hlen; omega
  | [], hlen => simp at hlen; omega

end Sys2Proof.Machine

namespace Sys2Proof

open Sys2Proof.Machine

/-- Settles O26: admission unfolds to the regions of HOST_MEM, and a blocked stride at the head of the position is stuck. -/
theorem unadmittedPageBufferIsStuck : Obligations.UnadmittedPageBufferIsStuck := by
  unfold Obligations.UnadmittedPageBufferIsStuck
  constructor
  · intro s buf
    simp only [pageAdmitted_iff, admits_iff]
  · intro i s buf ms hadm hhost hpos
    rcases hpos with hpos | hpos
    · exact exec_stuck i hpos (stuckAt_cons ms hhost (by simp [blocked, hadm]))
    · exact exec_stuck i hpos (stuckAt_cons ms hhost (by simp [blocked, hadm]))

/-- Settles O27: the opening and the stride's start are all done, and the run stops before the blocked stride-0 write. -/
theorem programStopsBeforeUnadmittedBuffer : Obligations.ProgramStopsBeforeUnadmittedBuffer := by
  unfold Obligations.ProgramStopsBeforeUnadmittedBuffer
  intro s page buf d acks rest hissued hdev hadm hcount hanswered hok hlen
  obtain ⟨sel, cmd, cycles, start, rfl, hcycles, hstart⟩ := programAcks_split page hlen
  obtain ⟨ms, hsteps⟩ := pageProgramSteps_eq hcount page buf
  have opened := runsTo_commandOpening (k := .other) (rest := start.map Input.answer ++ rest) s.cfg.bus.cmdProgram d.geom
    page true sel cmd cycles (by simpa using hanswered.1) hcycles (hok sel (by simp)) (hok cmd (by simp))
    (fun a ha => hok a (by simp [ha]))
  have started := opened.append (runsTo_strideStart start rfl hstart (fun a ha => hok a (by simp [ha])))
  have hrun := exec_pageProgram_start hissued.pos hdev page buf
  rw [hsteps, started, runSteps_blocked] at hrun
  · exact ⟨_, ms, hrun, hissued.phase, rfl, rfl, rfl, rfl, rfl⟩
  · simpa [blocked, pageAdmitted, geometry] using hadm

/-- Settles O52: inside its own sequence an operation other than PAGE_READ has no step that writes host memory, and of the
host's acts only a memory write moves it. -/
theorem onlyPageReadWritesHostMemory : Obligations.OnlyPageReadWritesHostMemory := by
  unfold Obligations.OnlyPageReadWritesHostMemory
  intro s t hs hstep hne
  obtain ⟨-, ⟨e, rest, hi, he⟩ | ⟨hbusy, -, i, hi, hx⟩ | ⟨-, -, -, rfl⟩ | ⟨-, rfl⟩⟩ := step_cases hstep
  · rcases hostStep_cases he with ⟨-, rfl⟩ | ⟨v, -, -, rfl⟩ | ⟨v, -, -, rfl⟩ | ⟨m, r, n, seen, rfl, hm | ⟨a, v, b, rfl, -⟩⟩
    · exact absurd rfl hne
    · exact absurd rfl hne
    · exact absurd rfl hne
    · exact absurd hm hne
    · exact .inl ⟨a, v, rest, hi⟩
  · refine .inr ⟨hbusy, ?_⟩
    by_contra hno
    exact hne (exec_mem (fun page buf h => hno ⟨page, buf, h ▸ hi⟩) (hs hbusy i hi) hx)
  · exact absurd (raiseErr_keeps (controlFree_mem s.mem) _ _ _ rfl) hne
  · exact absurd rfl hne

end Sys2Proof

namespace Sys2Proof

open Sys2Proof.Machine

/-! ### What a valid descriptor decodes to (R80 to R84) -/

/-- Settles O15: `encode` pairs the two words whose fields `decodeFields_encode` decodes. -/
theorem decodeOfEncodeIsIdentity : Obligations.DecodeOfEncodeIsIdentity := by
  unfold Obligations.DecodeOfEncodeIsIdentity
  exact decodeFields_encode

/-- The operands of an operation are those of the fields that it uses (R82, R83). -/
def Instr.OperandsFrom (f : Fields) : Instr → Prop
  | .identify | .detach => True
  | .select en => en = f.en
  | .pageRead page buf | .pageProgram page buf => page = f.arg ∧ buf = f.buf
  | .blockErase block => block = f.arg

theorem opcodeMap_eq_some_iff (f : Fields) (i : Instr) :
    opcodeMap f = some i ↔ f.op = i.opcode.setWidth 4 ∧ i.OperandsFrom f := by
  constructor
  · intro h
    simp only [opcodeMap] at h
    split at h <;> cases h <;>
      exact ⟨BitVec.eq_of_toNat_eq (by simpa [Instr.opcode]), by simp [Instr.OperandsFrom]⟩
  · rintro ⟨hop, hargs⟩
    cases i <;> simp_all [opcodeMap, Instr.opcode, Instr.OperandsFrom]

/-- OP selects a row of the opcode map exactly where it is 1 to 6 (R83, R84). -/
theorem exists_opcodeMap_iff (f : Fields) : (∃ i, opcodeMap f = some i) ↔ 1 ≤ f.op.toNat ∧ f.op.toNat ≤ 6 := by
  constructor
  · rintro ⟨i, h⟩
    obtain ⟨hop, -⟩ := (opcodeMap_eq_some_iff f i).1 h
    rw [hop]
    cases i <;> simp [Instr.opcode]
  · rintro ⟨hlow, hhigh⟩
    simp only [opcodeMap]
    interval_cases f.op.toNat <;> exact ⟨_, rfl⟩

/-- The three checks of R84, operation by operation. -/
theorem decodeFields_eq_valid_iff (f : Fields) (i : Instr) :
    decodeFields f = .valid i ↔ opcodeMap f = some i ∧ f.rsvd = 0 ∧ (f.op ≠ 2 → f.en = false) := by
  have hrsvd : f.rsvdOk = true ↔ f.rsvd = 0 := by simp [Fields.rsvdOk]
  have hen : f.enOk = true ↔ (f.op ≠ 2 → f.en = false) := by
    simp only [Fields.enOk, Bool.or_eq_true, Bool.not_eq_true', beq_iff_eq]; tauto
  rw [← hrsvd, ← hen]
  cases hop : opcodeMap f with
  | none => simp [decodeFields, hop]
  | some j => cases hr : f.rsvdOk <;> cases he : f.enOk <;> simp [decodeFields, hop, hr, he]

/-- A descriptor that decodes carries its operation's code, select level and operands, and no reserved bit (R80, R84). -/
theorem fields_of_valid {f : Fields} {i : Instr} (h : decodeFields f = .valid i) :
    f.op = i.opcode.setWidth 4 ∧ f.en = i.enOperand ∧ f.rsvd = 0 ∧ i.OperandsFrom f := by
  obtain ⟨hmap, hrsvd, hen⟩ := (decodeFields_eq_valid_iff f i).1 h
  obtain ⟨hop, hargs⟩ := (opcodeMap_eq_some_iff f i).1 hmap
  refine ⟨hop, ?_, hrsvd, hargs⟩
  cases i with
  | select en => exact hargs.symm
  | _ => exact hen (by simp [hop, Instr.opcode])

/-- The low 32 bits of DESC0 are RSVD, EN and OP, one after the other (R80). -/
theorem desc0_low (d0 d1 : Word64) :
    d0.extractLsb' 0 32 = (fieldsOfWords d0 d1).rsvd ++ BitVec.ofBool (fieldsOfWords d0 d1).en ++ (fieldsOfWords d0 d1).op := by
  apply BitVec.eq_of_getLsbD_eq
  intro b hb
  simp only [fieldsOfWords, BitVec.getLsbD_append, BitVec.getLsbD_extractLsb', BitVec.getLsbD_ofBool]
  by_cases h4 : b < 4
  · simp [hb, h4]
  · by_cases h5 : b = 4
    · simp [h5]
    · simp [hb, h4, show ¬ b - 4 < 1 by omega, show b - 4 - 1 < 27 by omega, show 5 + (b - 4 - 1) = b by omega]

theorem invalid_of_not_valid {f : Fields} (h : ∀ i, decodeFields f ≠ .valid i) : ∃ w, decodeFields f = .invalid w := by
  cases hf : decodeFields f with
  | valid i => exact absurd hf (h i)
  | invalid w => exact ⟨w, rfl⟩

/-- Settles O14: validity is the three checks of the decoder, and an invalid descriptor's step is the completion step. -/
theorem invalidDescriptorCompletesNotSupported : Obligations.InvalidDescriptorCompletesNotSupported := by
  unfold Obligations.InvalidDescriptorCompletesNotSupported
  constructor
  · intro f
    simp only [decodeFields_eq_valid_iff, exists_and_right, exists_opcodeMap_iff]
  · intro s hw hissued hd hinvalid
    obtain ⟨w, hf⟩ := invalid_of_not_valid hinvalid
    have hstep : step s = .next (completion .notSupported 0 s) := by
      rw [step_busy hw hissued.phase hd, runCurrent, hf]
      simp [raiseErr, hd]
    refine ⟨_, hstep, ?_, by simp, by simp [hissued.resultStatus], by simp⟩
    simp [completion, hissued.pos]

/-- Settles O16: the encoding and the descriptor have the same OP, EN and RSVD, and the operands are the descriptor's. -/
theorem encodeOfDecodeKeepsDecodedBits : Obligations.EncodeOfDecodeKeepsDecodedBits := by
  unfold Obligations.EncodeOfDecodeKeepsDecodedBits
  intro d0 d1 i h
  obtain ⟨hop, hen, hrsvd, hargs⟩ := fields_of_valid h
  refine ⟨?_, ?_, ?_⟩
  · rw [desc0_low d0 d1, desc0_low (encodeDesc0 i) (encodeDesc1 i), fieldsOfWords_encode, hop, hen, hrsvd]
  · rintro page buf (rfl | rfl) <;> exact hargs
  · rintro block rfl
    exact hargs

/-- Settles O18: each word is evaluated by the decoder. -/
theorem vectorWordsDecode : Obligations.VectorWordsDecode := by
  unfold Obligations.VectorWordsDecode
  decide

end Sys2Proof

namespace Sys2Proof.Machine

/-! ### The bytes of the address phase (R90) -/

theorem rowByte_eq (idx : Word32) (r : Nat) : rowByte idx r = BitVec.ofNat 8 (idx.toNat / 256 ^ r) := by
  apply BitVec.eq_of_toNat_eq
  have hidx : (idx.setWidth 64).toNat = idx.toNat := BitVec.toNat_setWidth_of_le (by decide)
  have hpow : 2 ^ (8 * r) = 256 ^ r := by rw [Nat.pow_mul]
  rw [rowByte, BitVec.toNat_setWidth, BitVec.toNat_ushiftRight, hidx, Nat.shiftRight_eq_div_pow, hpow,
    BitVec.toNat_ofNat]

/-- A row index has four bytes: the row cycles after them carry 0. -/
theorem rowByte_of_four_le (idx : Word32) {r : Nat} (h : 4 ≤ r) : rowByte idx r = 0 := by
  have hsmall : idx.toNat < 256 ^ r := idx.isLt.trans_le (Nat.pow_le_pow_right (n := 256) (by decide) h)
  rw [rowByte_eq, Nat.div_eq_of_lt hsmall]
  rfl

/-- The row cycle `r` depends only on the index bits below `8 * (r + 1)`. -/
theorem rowByte_congr {idx idx' : Word32} {n r : Nat} (hr : r < n) (h : idx.toNat % 256 ^ n = idx'.toNat % 256 ^ n) :
    rowByte idx r = rowByte idx' r := by
  have hdvd : 256 ^ (r + 1) ∣ 256 ^ n := pow_dvd_pow 256 hr
  have low : ∀ x : Nat, x / 256 ^ r % 256 = x % 256 ^ n % 256 ^ (r + 1) / 256 ^ r := fun x => by
    rw [Nat.mod_mod_of_dvd x hdvd, Nat.pow_succ, Nat.mod_mul_right_div_self]
  apply BitVec.eq_of_toNat_eq
  rw [rowByte_eq, rowByte_eq, BitVec.toNat_ofNat, BitVec.toNat_ofNat, low, low, h]

/-- The row cycles follow the column cycles asked for. -/
theorem addressBytes_row (g : Geometry) (idx : Word32) (withCol : Bool) {r : Nat} (h : r < g.rowCycles) :
    (addressBytes g idx withCol)[(if withCol then g.colCycles else 0) + r]? = some (rowByte idx r) := by
  have hrow : ((List.range g.rowCycles).map (rowByte idx))[r]? = some (rowByte idx r) := by simp [h]
  rw [addressBytes, List.getElem?_append_right (by cases withCol <;> simp), ← hrow]
  congr 1
  cases withCol <;> simp

theorem addressBytes_col (g : Geometry) (idx : Word32) {c : Nat} (h : c < g.colCycles) :
    (addressBytes g idx true)[c]? = some 0 := by
  simp [addressBytes, List.getElem?_append_left, h]

/-! ### The spare image (R93, R94) -/

theorem placeCodes_getElem?_of_not_mem {pos : List Nat} {j : Nat} (h : j ∉ pos) (oob codes : List Byte) :
    (placeCodes oob pos codes)[j]? = oob[j]? := by
  induction pos generalizing oob codes with
  | nil => simp [placeCodes]
  | cons p pos ih =>
    obtain ⟨hp, hpos⟩ := List.ne_and_not_mem_of_not_mem_cons h
    cases codes with
    | nil => rfl
    | cons b codes => rw [placeCodes, ih hpos, List.getElem?_set_ne hp.symm]

/-- The code byte of the last index that names an offset stands there. -/
theorem placeCodes_getElem?_last {pos : List Nat} {oob codes : List Byte} {i j : Nat} {b : Byte} (hj : j < oob.length)
    (hpos : pos[i]? = some j) (hcode : codes[i]? = some b) (hlast : ∀ i', i < i' → pos[i']? ≠ some j) :
    (placeCodes oob pos codes)[j]? = some b := by
  induction pos generalizing oob codes i with
  | nil => simp at hpos
  | cons p pos ih =>
    cases codes with
    | nil => simp at hcode
    | cons c codes =>
      rw [placeCodes]
      cases i with
      | succ i => exact ih (by simpa using hj) hpos hcode fun i' hi' => hlast (i' + 1) (Nat.succ_lt_succ hi')
      | zero =>
        obtain rfl : p = j := by simpa using hpos
        obtain rfl : c = b := by simpa using hcode
        have hnot : p ∉ pos := fun hmem => by
          obtain ⟨i', hi'⟩ := List.mem_iff_getElem?.1 hmem
          exact hlast (i' + 1) (Nat.succ_pos i') hi'
        rw [placeCodes_getElem?_of_not_mem hnot, List.getElem?_set_self hj]

theorem eccPositions_some {c : Config} {x : EccDesc} (h : c.ecc = some x) : eccPositions c = x.pos := by
  simp [eccPositions, h]

theorem spareImage_noEcc {c : Config} (h : c.ecc = none) (g : Geometry) (codes : List Byte) :
    spareImage c g codes = List.replicate g.spareSize blankByte := by
  simp [spareImage, eccPositions, h, placeCodes]

theorem spareImage_of_not_mem {c : Config} {g : Geometry} {j : Nat} (hj : j < g.spareSize) (h : j ∉ eccPositions c)
    (codes : List Byte) : (spareImage c g codes)[j]? = some blankByte := by
  rw [spareImage, placeCodes_getElem?_of_not_mem h]
  simp [hj]

theorem spareImage_last {c : Config} {g : Geometry} {codes : List Byte} {i j : Nat} {b : Byte} (hj : j < g.spareSize)
    (hpos : (eccPositions c)[i]? = some j) (hcode : codes[i]? = some b)
    (hlast : ∀ i', i < i' → (eccPositions c)[i']? ≠ some j) : (spareImage c g codes)[j]? = some b :=
  placeCodes_getElem?_last (by simpa using hj) hpos hcode hlast

end Sys2Proof.Machine

namespace Sys2Proof

open Sys2Proof.Machine

/-- Settles O21: column and row cycles by their places, each row byte as `rowByte_eq` gives it. -/
theorem addressPhaseBytes : Obligations.AddressPhaseBytes := by
  unfold Obligations.AddressPhaseBytes
  intro g idx withCol
  refine ⟨addressBytes_length g idx withCol, ?_, fun r hr => ?_, fun r h4 hr => ?_, fun idx' h => ?_⟩
  · rintro c rfl hc
    exact addressBytes_col g idx hc
  · rw [addressBytes_row g idx withCol hr, rowByte_eq]
  · rw [addressBytes_row g idx withCol hr, rowByte_of_four_le idx h4]
  · have hrows : (List.range g.rowCycles).map (rowByte idx) = (List.range g.rowCycles).map (rowByte idx') :=
      List.map_congr_left fun r hr => rowByte_congr (List.mem_range.1 hr) h
    rw [addressBytes, addressBytes, hrows]

/-- Settles O42: the image without ECC, the byte the last index places, and the bytes no index names. -/
theorem spareImageLayout : Obligations.SpareImageLayout := by
  unfold Obligations.SpareImageLayout
  intro c g codes
  refine ⟨spareImage_length c g codes, fun h => spareImage_noEcc h g codes, fun x hx _ j hj => ?_⟩
  rw [← eccPositions_some hx]
  exact ⟨fun i b hpos hcode hlast => spareImage_last hj hpos hcode hlast, fun hnot => spareImage_of_not_mem hj hnot codes⟩

/-- Settles O43: for distinct offsets every index is the last that names its offset, so its code byte stands there. -/
theorem extractionUndoesPlacement : Obligations.ExtractionUndoesPlacement := by
  unfold Obligations.ExtractionUndoesPlacement
  intro c g x codes hecc hnodup hfit hlen
  rw [← eccPositions_some hecc] at hnodup hfit hlen
  refine List.ext_getElem (by simp [hlen]) fun i hi hcode => ?_
  have hpos : i < (eccPositions c).length := hlen ▸ hcode
  have hlast : ∀ i', i < i' → (eccPositions c)[i']? ≠ some (eccPositions c)[i] := fun i' hlt heq => by
    obtain ⟨hi', heq⟩ := List.getElem?_eq_some_iff.1 heq
    exact hlt.ne' (hnodup.getElem_inj_iff.1 heq)
  have himage := spareImage_last (hfit _ (List.getElem_mem hpos)) (List.getElem?_eq_getElem hpos)
    (List.getElem?_eq_getElem hcode) hlast
  simp [extractCodes, List.getD_eq_getElem?_getD, himage]

end Sys2Proof

namespace Sys2Proof.Machine

/-! ### The latched ARG and BUF are not read while an operation runs (R85) -/

/-- A step's end with its state changed. -/
def Flow.map (f : State → State) : Flow → Flow
  | .done s => .done (f s)
  | .again loop s => .again loop (f s)
  | .raised e info s => .raised e info (f s)

section
variable (k : OpKind) (arg : Word32) (buf : Word64) (s : State)

theorem completeOk_withArgBuf : completeOk (withArgBuf arg buf s) = withArgBuf arg buf (completeOk s) := by
  have hdue : hostDue (withArgBuf arg buf s) = hostDue s := rfl
  rw [completeOk, completeOk, hdue]
  split <;> rfl

theorem raiseErr_withArgBuf (e : Err) (info : BitVec 16) :
    raiseErr k e info (withArgBuf arg buf s) = withArgBuf arg buf (raiseErr k e info s) := by
  have hdue : hostDue (withArgBuf arg buf s) = hostDue s := rfl
  rw [raiseErr, raiseErr, hdue]
  split
  · rfl
  · split <;> rfl

theorem busAck_withArgBuf (ev : Bool → Event) :
    busAck k ev (withArgBuf arg buf s) = (busAck k ev s).map (withArgBuf arg buf) := by
  have hans : busAnswer (withArgBuf arg buf s) = busAnswer s := rfl
  rw [busAck, busAck, hans]
  split <;> rfl

theorem notReady_withArgBuf (loop : List Micro) :
    notReady loop (withArgBuf arg buf s) = (notReady loop s).map (withArgBuf arg buf) := by
  rw [notReady, notReady, apply_ite (Flow.map _)]
  rfl

theorem accumulate_withArgBuf (x : List Byte) :
    accumulate x (withArgBuf arg buf s) = withArgBuf arg buf (accumulate x s) := by
  rw [accumulate, accumulate, apply_ite (withArgBuf arg buf)]
  rfl

theorem statusCheck_withArgBuf (b : Byte) :
    statusCheck b (withArgBuf arg buf s) = (statusCheck b s).map (withArgBuf arg buf) := by
  rw [statusCheck, statusCheck, apply_ite (Flow.map _)]
  rfl

theorem doStatusRead_withArgBuf (check : Bool) :
    doStatusRead k check (withArgBuf arg buf s) = (doStatusRead k check s).map (withArgBuf arg buf) := by
  have hread : read1Byte (withArgBuf arg buf s) = read1Byte s := rfl
  simp only [doStatusRead, hread]
  cases read1Byte s with
  | none => rfl
  | some b =>
    simp only [apply_ite (Flow.map _), ← statusCheck_withArgBuf, ← notReady_withArgBuf]
    rfl

/-- No step of the sequencer reads the latched ARG and BUF. -/
theorem perform_withArgBuf (m : Micro) :
    perform k m (withArgBuf arg buf s) = (perform k m s).map (withArgBuf arg buf) := by
  have hread : read1Byte (withArgBuf arg buf s) = read1Byte s := rfl
  cases m with
  | cmd c => exact busAck_withArgBuf k arg buf s _
  | addr a => exact busAck_withArgBuf k arg buf s _
  | spareWrite => exact busAck_withArgBuf k arg buf s _
  | select b =>
    rw [perform, perform, doSelect, doSelect, busAck_withArgBuf]
    cases busAck k (Event.sel b) s <;> rfl
  | zeroPolls => rfl
  | delay => rfl
  | extractEcc => rfl
  | buildSpare => rfl
  | release => rfl
  | waitRnb =>
    rw [perform, perform, doWaitRnb, doWaitRnb, apply_ite (Flow.map _), ← notReady_withArgBuf]
    rfl
  | statusRead check => exact doStatusRead_withArgBuf k arg buf s check
  | readMaker =>
    simp only [perform, doReadMaker, hread]
    cases read1Byte s <;> rfl
  | readDevice =>
    simp only [perform, doReadDevice, hread]
    cases read1Byte s <;> rfl
  | loadGeometry =>
    have hmatch : catalogMatch (withArgBuf arg buf s).cfg (withArgBuf arg buf s).idMaker (withArgBuf arg buf s).idDevice =
      catalogMatch s.cfg s.idMaker s.idDevice := rfl
    simp only [perform, doLoadGeometry, hmatch]
    cases catalogMatch s.cfg s.idMaker s.idDevice <;> rfl
  | eccStart => rw [perform, perform, doEccStart, doEccStart, apply_ite (Flow.map _)]; rfl
  | eccCompute i => rw [perform, perform, doEccCompute, doEccCompute, apply_ite (Flow.map _)]; rfl
  | spareRead => rw [perform, perform, doSpareRead, doSpareRead, apply_ite (Flow.map _)]; rfl
  | eccCorrect b i => rw [perform, perform, doEccCorrect, doEccCorrect, apply_ite (Flow.map _)]; rfl
  | strideRead b i =>
    rw [perform, perform, doStrideRead, doStrideRead, apply_ite (Flow.map _), Flow.map, ← accumulate_withArgBuf]
    rfl
  | strideWrite b i =>
    rw [perform, perform, doStrideWrite, doStrideWrite, apply_ite (Flow.map _), Flow.map, ← accumulate_withArgBuf]
    rfl

theorem blocked_withArgBuf (m : Micro) : blocked (withArgBuf arg buf s) m = blocked s m := by
  cases m <;> rfl

theorem stuckAt_withArgBuf (ms : List Micro) : stuckAt ms (withArgBuf arg buf s) = stuckAt ms s := by
  cases ms with
  | nil => rfl
  | cons m ms => simp only [stuckAt, blocked_withArgBuf]; rfl

theorem runSteps_withArgBuf (ms : List Micro) :
    runSteps k ms (withArgBuf arg buf s) = withArgBuf arg buf (runSteps k ms s) := by
  induction ms generalizing s with
  | nil => exact completeOk_withArgBuf arg buf s
  | cons m ms ih =>
    have hdue : hostDue (withArgBuf arg buf s) = hostDue s := rfl
    rw [runSteps, runSteps, hdue, blocked_withArgBuf, perform_withArgBuf]
    split
    · rfl
    · cases perform k m s with
      | done s' => exact ih s'
      | again loop s' => rfl
      | raised e info s' => exact raiseErr_withArgBuf k arg buf s' e info

end

/-- An operation whose start does not read the latched ARG and BUF never reads them. -/
theorem runOperation_withArgBuf {k : OpKind} {start start' : State → State} {s t : State} {arg : Word32} {buf : Word64}
    (hstart : start' (withArgBuf arg buf s) = withArgBuf arg buf (start s)) (h : runOperation k start s = .next t) :
    runOperation k start' (withArgBuf arg buf s) = .next (withArgBuf arg buf t) := by
  have hpos : (withArgBuf arg buf s).pos = s.pos := rfl
  rw [runOperation] at h ⊢
  rw [hpos]
  cases hp : s.pos with
  | start =>
    rw [hp] at h
    cases h
    exact congrArg Host.Outcome.next hstart
  | fail e info =>
    rw [hp] at h
    cases h
    exact congrArg Host.Outcome.next (raiseErr_withArgBuf k arg buf s e info)
  | run ms =>
    simp only [hp, stuckAt_withArgBuf, runSteps_withArgBuf] at h ⊢
    split at h
    · cases h
    · next hstuck =>
      cases h
      rw [if_neg hstuck]

theorem startIdentified_withArgBuf (steps : Geometry → List Micro) (s : State) (arg : Word32) (buf : Word64) :
    startIdentified steps (withArgBuf arg buf s) = withArgBuf arg buf (startIdentified steps s) := by
  have hdev : (withArgBuf arg buf s).dev = s.dev := rfl
  rw [startIdentified, startIdentified, hdev]
  cases s.dev with
  | none => exact raiseErr_withArgBuf _ arg buf s _ _
  | some d => exact runSteps_withArgBuf _ arg buf s _

theorem startIdentify_withArgBuf (s : State) (arg : Word32) (buf : Word64) :
    startIdentify (withArgBuf arg buf s) = withArgBuf arg buf (startIdentify s) := by
  rw [startIdentify, startIdentify, apply_ite (withArgBuf arg buf), apply_ite (withArgBuf arg buf),
    ← raiseErr_withArgBuf, ← raiseErr_withArgBuf, ← runSteps_withArgBuf]
  rfl

/-- No operation reads the latched ARG and BUF: it has its own operands (R85). -/
theorem exec_withArgBuf {i : Instr} {s t : State} (arg : Word32) (buf : Word64) (h : exec i s = .next t) :
    exec i (withArgBuf arg buf s) = .next (withArgBuf arg buf t) := by
  cases i with
  | identify => exact runOperation_withArgBuf (startIdentify_withArgBuf s arg buf) h
  | select en => exact runOperation_withArgBuf (runSteps_withArgBuf _ arg buf s _) h
  | detach => exact runOperation_withArgBuf (runSteps_withArgBuf _ arg buf s _) h
  | pageRead page b => exact runOperation_withArgBuf (startIdentified_withArgBuf _ s arg buf) h
  | pageProgram page b => exact runOperation_withArgBuf (startIdentified_withArgBuf _ s arg buf) h
  | blockErase block => exact runOperation_withArgBuf (startIdentified_withArgBuf _ s arg buf) h

/-- Only a page transfer owns host bytes (R61, R263). -/
theorem owned_eq_false {s : State} (hread : ∀ page buf, decodeFields s.cur ≠ .valid (.pageRead page buf))
    (hprogram : ∀ page buf, decodeFields s.cur ≠ .valid (.pageProgram page buf)) (a : Nat) : owned s a = false := by
  have htransfer : transferring s = false := by
    simp only [transferring]
    split
    · next h => exact absurd h (hread _ _)
    · next h => exact absurd h (hprogram _ _)
    · rfl
  rw [owned, htransfer]
  rfl

end Sys2Proof.Machine

namespace Sys2Proof

open Sys2Proof.Machine

/-- Decoding looks at OP, EN, RSVD and the operands the operation uses, and at nothing else (R85). -/
theorem decodeFields_congr {f g : Fields} {i : Instr} (hop : g.op = f.op) (hen : g.en = f.en) (hrsvd : g.rsvd = f.rsvd)
    (hargs : i.OperandsFrom f → i.OperandsFrom g) (h : decodeFields f = .valid i) : decodeFields g = .valid i := by
  rw [decodeFields_eq_valid_iff, opcodeMap_eq_some_iff] at h ⊢
  obtain ⟨⟨hcode, hused⟩, hchecks⟩ := h
  rw [hop, hen, hrsvd]
  exact ⟨⟨hcode, hargs hused⟩, hchecks⟩

/-- Settles O17: the sequencer commutes with another latched ARG and BUF, and decoding looks at the used operands only. -/
theorem ignoredFieldsDoNotMatter : Obligations.IgnoredFieldsDoNotMatter := by
  unfold Obligations.IgnoredFieldsDoNotMatter
  refine ⟨fun i s t arg buf h => exec_withArgBuf arg buf h, fun s a hread hprogram => owned_eq_false hread hprogram a,
    fun f arg buf => ⟨?_, fun en => ?_, ?_, fun block => ?_⟩⟩
  all_goals exact decodeFields_congr rfl rfl rfl id

end Sys2Proof

namespace Sys2Proof.Machine

/-! ### An operation that goes on from the steps it still has -/

theorem runOperation_run {k : OpKind} {start : State → State} {s : State} {ms : List Micro} (hpos : s.pos = .run ms)
    (h : stuckAt ms s = false) : runOperation k start s = .next (runSteps k ms s) := by
  simp [runOperation, hpos, h]

/-- At a step that is not blocked an operation runs the steps it still has (R21). -/
theorem exec_run_cons (i : Instr) {s : State} {m : Micro} {ms : List Micro} (hpos : s.pos = .run (m :: ms))
    (hb : blocked s m = false) : exec i s = .next (runSteps (kindOf i) (m :: ms) s) := by
  have hstuck : stuckAt (m :: ms) s = false := by simp [stuckAt, hb]
  cases i <;> exact runOperation_run hpos hstuck

/-- `t` is the completion of `s` with the error `e`: of the fields named here only RESULT and the phase are written
(R222). -/
structure CompletedWith (e : Err) (info : BitVec 16) (s t : State) : Prop where
  phase : t.phase = .idle
  err : resultErr t.result = errCode e
  detail : resultDetail t.result = info
  inputs : t.inputs = s.inputs
  mem : t.mem = s.mem
  ce : t.ce = s.ce
  trace : t.trace = s.trace

theorem raiseErr_completedWith (k : OpKind) (e : Err) (info : BitVec 16) {s : State} (hh : hostDue s = false) :
    CompletedWith e info s (raiseErr k e info s) := by
  rw [raiseErr, hh, if_neg Bool.false_ne_true]
  split <;> constructor <;> simp

/-- Outside IDENTIFY an error is its completion step alone: nothing is rolled back (R222). -/
theorem raiseErr_other (e : Err) (info : BitVec 16) {s : State} (hh : hostDue s = false) :
    raiseErr .other e info s = completion e info s := by
  simp [raiseErr, hh]

/-- An operation whose next step raises an error completes with it (R222). -/
theorem exec_raised (i : Instr) {s s' : State} {m : Micro} {ms : List Micro} {e : Err} {info : BitVec 16}
    (hpos : s.pos = .run (m :: ms)) (hh : hostDue s = false) (hb : blocked s m = false)
    (hp : perform (kindOf i) m s = .raised e info s') (hh' : hostDue s' = false) :
    ∃ t, exec i s = .next t ∧ CompletedWith e info s' t := by
  rw [exec_run_cons i hpos hb, runSteps_raised hh hb hp]
  exact ⟨_, rfl, raiseErr_completedWith _ _ _ hh'⟩

theorem errCode_busErr_kindOf (i : Instr) :
    errCode (busErr (kindOf i)) = if i = .identify then errCode .ioError else errCode .busError := by
  cases i <;> rfl

/-- A primitive that raises an error with its failed event logged ends the operation there (R110). -/
theorem exec_failedPrimitive {i : Instr} {s : State} {m : Micro} {ms : List Micro} {err : Err} {rest : List Input}
    (hpos : s.pos = .run (m :: ms)) (hh : hostDue s = false) (hb : blocked s m = false) (hrest : hostFirst rest = false)
    (hfails : ∃ e, failedEvents s m = [e] ∧ perform (kindOf i) m s = .raised err 0 (received e rest s)) :
    ∃ t, exec i s = .next t ∧ t.phase = .idle ∧ resultErr t.result = errCode err ∧ resultDetail t.result = 0 ∧
      t.inputs = rest ∧ t.mem = s.mem ∧ t.ce = s.ce ∧ t.trace = s.trace ++ failedEvents s m := by
  obtain ⟨e, he, hp⟩ := hfails
  obtain ⟨t, ht, done⟩ := exec_raised i hpos hh hb hp hrest
  rw [he]
  exact ⟨t, ht, done.phase, done.err, done.detail, done.inputs, done.mem, done.ce, done.trace⟩

/-! ### A status byte or a ready line that is read (R114, R116, R119) -/

section
variable {k : OpKind} {s : State} {a : Answer} {rest : List Input}

theorem perform_waitRnb_notReady (h : s.inputs = .answer a :: rest) (hr : a.ready = false) :
    perform k .waitRnb s = notReady [.waitRnb] (received (.waitrdy false) rest s) := by
  rw [perform, doWaitRnb, busAnswer_listed h, hr, logged_drawn h]
  rfl

theorem perform_statusRead_notReady {b : Byte} (check : Bool) (h : s.inputs = .answer a :: rest) (hok : a.ok = true)
    (hb : a.bytes.head? = some b) (hr : statusReady s.cfg b = false) :
    perform k (.statusRead check) s =
      notReady [.delay, .cmd s.cfg.bus.cmdStatus, .statusRead check] (received (.read1 (some b)) rest s) := by
  simp [perform, doStatusRead, read1Byte_listed h hok hb, hr, logged_drawn h]

theorem perform_statusRead_checked {b : Byte} (h : s.inputs = .answer a :: rest) (hok : a.ok = true)
    (hb : a.bytes.head? = some b) (hr : statusReady s.cfg b = true) :
    perform k (.statusRead true) s = statusCheck b (received (.read1 (some b)) rest s) := by
  simp [perform, doStatusRead, read1Byte_listed h hok hb, hr, logged_drawn h]

end

theorem notReady_below {s : State} (h : pollLimitReached s.cfg (s.polls + 1) = false) (loop : List Micro) :
    notReady loop s = .again loop { s with polls := s.polls + 1 } := by
  simp [notReady, h]

theorem notReady_atLimit {s : State} (h : pollLimitReached s.cfg (s.polls + 1) = true) (loop : List Micro) :
    notReady loop s = .raised .timeout 0 { s with polls := s.polls + 1 } := by
  simp [notReady, h]

theorem pollLimitReached_unbounded {c : Config} (h : c.pollLimit = .unbounded) (polls : Nat) :
    pollLimitReached c polls = false := by
  simp [pollLimitReached, h]

theorem pollLimitReached_bounded {c : Config} {n : Nat} (h : c.pollLimit = .bounded n) (polls : Nat) :
    pollLimitReached c polls = decide (n ≤ polls) := by
  simp [pollLimitReached, h]

theorem statusCheck_fail {s : State} {b : Byte} (h : statusFail s.cfg b = true) :
    statusCheck b s = .raised .ioError 0 { s with resultStatus := some b } := by
  simp [statusCheck, h]

theorem statusCheck_pass {s : State} {b : Byte} (h : statusFail s.cfg b = false) :
    statusCheck b s = .done { s with resultStatus := some b } := by
  simp [statusCheck, h]

/-- The state a wait loop goes on from after a not-ready answer: the answer counted and logged, these steps to do. -/
def waitingOn (e : Event) (rest : List Input) (ms : List Micro) (s : State) : State :=
  { s with
    pos := .run ms, polls := s.polls + 1, inputs := rest, draws := s.draws + 1, trace := s.trace ++ [e] }

/-- Below the limit a not-ready answer ends the run with the loop still to do (R114, R116). -/
theorem runSteps_notReady {k : OpKind} {s : State} {m : Micro} {ms loop : List Micro} {e : Event} {rest : List Input}
    (hh : hostDue s = false) (hb : blocked s m = false) (hp : perform k m s = notReady loop (received e rest s))
    (hlimit : pollLimitReached s.cfg (s.polls + 1) = false) :
    runSteps k (m :: ms) s = waitingOn e rest (loop ++ ms) s := by
  rw [runSteps_again hh hb (hp.trans (notReady_below (s := received e rest s) hlimit loop))]
  rfl

/-- At the limit a not-ready answer completes the operation with Timeout, the answer its last event (R115). -/
theorem exec_timeout (i : Instr) {s : State} {n : Nat} {m : Micro} {ms loop : List Micro} {e : Event} {rest : List Input}
    (hpos : s.pos = .run (m :: ms)) (hh : hostDue s = false) (hb : blocked s m = false) (hrest : hostFirst rest = false)
    (hp : perform (kindOf i) m s = notReady loop (received e rest s)) (hlimit : s.cfg.pollLimit = .bounded n)
    (hn : n ≤ s.polls + 1) :
    ∃ t, exec i s = .next t ∧ t.phase = .idle ∧ resultErr t.result = errCode .timeout ∧ t.inputs = rest ∧
      t.trace = s.trace ++ [e] := by
  have hreached : pollLimitReached s.cfg (s.polls + 1) = true := by simpa [pollLimitReached_bounded hlimit] using hn
  have hraised := hp.trans (notReady_atLimit (s := received e rest s) hreached loop)
  obtain ⟨t, ht, done⟩ := exec_raised i hpos hh hb hraised hrest
  exact ⟨t, ht, done.phase, done.err, done.inputs, done.trace⟩

/-- The last step of a sequence, a status read that is checked: its FAIL bit alone decides the completion (R119). -/
theorem runSteps_statusCheck {s : State} {a : Answer} {b : Byte} {rest : List Input} (h : s.inputs = .answer a :: rest)
    (hrest : hostFirst rest = false) (hok : a.ok = true) (hb : a.bytes.head? = some b)
    (hr : statusReady s.cfg b = true) :
    runSteps .other [.statusRead true] s =
      completion (if statusFail s.cfg b then .ioError else .ok) 0
        { received (.read1 (some b)) rest s with resultStatus := some b } := by
  have hh := hostDue_listed h
  have hp : perform .other (.statusRead true) s = _ := perform_statusRead_checked h hok hb hr
  cases hfail : statusFail s.cfg b with
  | true =>
    rw [runSteps_raised hh rfl (hp.trans (statusCheck_fail hfail)), raiseErr_other, if_pos rfl]
    exact hrest
  | false =>
    rw [(RunsTo.step hh rfl (hp.trans (statusCheck_pass hfail))).complete hrest, if_neg Bool.false_ne_true]

/-! ### A wait that hangs (R117) -/

/-- `t` stands at the wait of `s`: configuration, phase, position, latched descriptor and RESULT are those of `s`. -/
structure StillWaiting (s t : State) : Prop where
  cfg : t.cfg = s.cfg
  phase : t.phase = s.phase
  pos : t.pos = s.pos
  cur : t.cur = s.cur
  result : t.result = s.result

theorem StillWaiting.refl (s : State) : StillWaiting s s := ⟨rfl, rfl, rfl, rfl, rfl⟩

theorem StillWaiting.trans {s t u : State} (h : StillWaiting s t) (h' : StillWaiting t u) : StillWaiting s u :=
  ⟨h'.cfg.trans h.cfg, h'.phase.trans h.phase, h'.pos.trans h.pos, h'.cur.trans h.cur, h'.result.trans h.result⟩

/-- Where each not-ready answer `x`, given by the inputs `feed x`, is one step of the machine that leaves it at the wait,
so is every list of them. -/
theorem run_stillWaiting {α : Type} {feed : α → List Input} {unready : α → Prop} {s : State}
    (hstep : ∀ x t more, unready x → StillWaiting s t → t.inputs = feed x ++ more →
      ∃ t', step t = .next t' ∧ StillWaiting t t' ∧ t'.inputs = more)
    (xs : List α) {t : State} {rest : List Input} (hxs : ∀ x ∈ xs, unready x) (ht : StillWaiting s t)
    (hin : t.inputs = xs.flatMap feed ++ rest) :
    ∃ t', Host.Core.run core xs.length t = .next t' ∧ StillWaiting s t' ∧ t'.inputs = rest := by
  induction xs generalizing t with
  | nil => exact ⟨t, rfl, ht, hin⟩
  | cons x xs ih =>
    obtain ⟨hx, hxs⟩ := List.forall_mem_cons.1 hxs
    obtain ⟨t', hone, hwait, hmore⟩ := hstep x t (xs.flatMap feed ++ rest) hx ht (by simpa using hin)
    rw [List.length_cons, run_succ core hone]
    exact ih hxs (ht.trans hwait) hmore

/-- A not-ready line leaves a ready wait below its limit where it is (R116). -/
theorem exec_waitRnb_again (i : Instr) {s : State} {ms : List Micro} {a : Answer} {rest : List Input}
    (hpos : s.pos = .run (.waitRnb :: ms)) (h : s.inputs = .answer a :: rest) (hr : a.ready = false)
    (hlimit : pollLimitReached s.cfg (s.polls + 1) = false) :
    exec i s = .next (waitingOn (.waitrdy false) rest (.waitRnb :: ms) s) := by
  rw [exec_run_cons i hpos rfl, runSteps_notReady (hostDue_listed h) rfl (perform_waitRnb_notReady h hr) hlimit]
  rfl

/-- A not-ready status byte leaves a status poll below its limit with a delay, the status command and the status read to do
(R114). -/
theorem runSteps_statusRead_again {k : OpKind} {s : State} {ms : List Micro} {a : Answer} {b : Byte} {rest : List Input}
    (check : Bool) (h : s.inputs = .answer a :: rest) (hok : a.ok = true) (hb : a.bytes.head? = some b)
    (hr : statusReady s.cfg b = false) (hlimit : pollLimitReached s.cfg (s.polls + 1) = false) :
    runSteps k (.statusRead check :: ms) s =
      waitingOn (.read1 (some b)) rest (.delay :: .cmd s.cfg.bus.cmdStatus :: .statusRead check :: ms) s :=
  runSteps_notReady (hostDue_listed h) rfl (perform_statusRead_notReady check h hok hb hr) hlimit

/-- One turn of a status poll below its limit: the delay, the status command answered ok, a byte that is not ready. -/
theorem exec_statusPoll_again (i : Instr) {s : State} {check : Bool} {ms : List Micro} {c a : Answer} {b : Byte}
    {rest : List Input} (hpos : s.pos = .run (.delay :: .cmd s.cfg.bus.cmdStatus :: .statusRead check :: ms))
    (h : s.inputs = .answer c :: .answer a :: rest) (hc : c.ok = true) (hok : a.ok = true)
    (hb : a.bytes.head? = some b) (hr : statusReady s.cfg b = false)
    (hlimit : pollLimitReached s.cfg (s.polls + 1) = false) :
    exec i s = .next (waitingOn (.read1 (some b)) rest (.delay :: .cmd s.cfg.bus.cmdStatus :: .statusRead check :: ms)
      (received (.cmd s.cfg.bus.cmdStatus true) (.answer a :: rest) (logged .delay s))) := by
  have commanded := (runsTo_delay (k := kindOf i) (hostDue_listed h)).append
    (runsTo_cmd s.cfg.bus.cmdStatus (s := logged .delay s) h hc)
  rw [exec_run_cons i hpos rfl]
  exact congrArg Host.Outcome.next
    ((commanded (.statusRead check :: ms)).trans (runSteps_statusRead_again check rfl hok hb hr hlimit))

end Sys2Proof.Machine

namespace Sys2Proof

open Sys2Proof.Machine

/-- Settles O20: the failed primitive raises its error with its own event logged, and the error completes the operation. -/
theorem failedPrimitiveEndsTheOperation : Obligations.FailedPrimitiveEndsTheOperation := by
  unfold Obligations.FailedPrimitiveEndsTheOperation
  intro i s m ms a rest hpos hb hin hrest ha
  have hh := hostDue_listed hin
  rw [← errCode_busErr_kindOf]
  exact ⟨fun hm => exec_failedPrimitive hpos hh hb hrest (perform_bus_fails hm hin ha),
    fun hm => exec_failedPrimitive hpos hh hb hrest (perform_ecc_fails hm hin ha)⟩

/-- Settles O22: each wait's not-ready answer below the limit, with the loop it leaves to do. -/
theorem notReadyAnswerKeepsWaiting : Obligations.NotReadyAnswerKeepsWaiting := by
  unfold Obligations.NotReadyAnswerKeepsWaiting
  intro i s ms a rest hin hlimit
  refine ⟨fun check b hpos hok hb hr => ?_, fun hpos hr => ?_⟩
  · rw [exec_run_cons i hpos rfl, runSteps_statusRead_again check hin hok hb hr hlimit]
    rfl
  · rw [exec_waitRnb_again i hpos hin hr hlimit, waitingOn, ← hpos]

/-- Settles O23: each wait's not-ready answer at the limit raises Timeout with that answer logged. -/
theorem pollLimitRaisesTimeout : Obligations.PollLimitRaisesTimeout := by
  unfold Obligations.PollLimitRaisesTimeout
  intro i s n ms a rest hlimit hn hin hrest
  have hh := hostDue_listed hin
  exact ⟨fun check b hpos hok hb hr =>
      exec_timeout i hpos hh rfl hrest (perform_statusRead_notReady check hin hok hb hr) hlimit hn,
    fun hpos hr => exec_timeout i hpos hh rfl hrest (perform_waitRnb_notReady hin hr) hlimit hn⟩

/-- Settles O24: a not-ready answer, in a status poll with the answer to the status command before it, is one step that
leaves the machine at the wait, and so are n of them. -/
theorem unboundedWaitHangs : Obligations.UnboundedWaitHangs := by
  unfold Obligations.UnboundedWaitHangs
  intro i s ms rest hw hlimit hbusy hi
  have unlimited : ∀ {t}, StillWaiting s t → pollLimitReached t.cfg (t.polls + 1) = false := fun ht =>
    pollLimitReached_unbounded (ht.cfg ▸ hlimit) _
  have moves : ∀ {t}, StillWaiting s t → hostDue t = false → step t = exec i t := fun ht hd =>
    stepRunsDecodedInstruction _ i (ht.cfg ▸ hw) (ht.phase.trans hbusy) hd (ht.cur ▸ hi)
  refine ⟨fun answers hpos hanswers hin => ?_, fun check answers hpos hanswers hin => ?_⟩
  · have turn : ∀ (a : Answer) t more, a.ready = false → StillWaiting s t → t.inputs = [.answer a] ++ more →
        ∃ t', step t = .next t' ∧ StillWaiting t t' ∧ t'.inputs = more := fun a t more ha ht hmore => by
      have hpos' := ht.pos.trans hpos
      have hexec := exec_waitRnb_again i hpos' hmore ha (unlimited ht)
      exact ⟨_, (moves ht (hostDue_listed hmore)).trans hexec, ⟨rfl, rfl, hpos'.symm, rfl, rfl⟩, rfl⟩
    obtain ⟨t, ht, hwait, hrest⟩ :=
      run_stillWaiting turn answers hanswers (.refl s) (hin.trans (by rw [List.map_eq_flatMap]))
    exact ⟨t, ht, hwait.phase.trans hbusy, hwait.pos, hwait.result, hrest⟩
  · have turn : ∀ (p : Answer × Answer) t more,
        (p.1.ok = true ∧ p.2.ok = true ∧ ∃ b, p.2.bytes.head? = some b ∧ statusReady s.cfg b = false) →
        StillWaiting s t → t.inputs = [.answer p.1, .answer p.2] ++ more →
        ∃ t', step t = .next t' ∧ StillWaiting t t' ∧ t'.inputs = more := fun p t more hp ht hmore => by
      obtain ⟨hc, hok, b, hb, hr⟩ := hp
      have hpos' := ht.pos.trans hpos
      rw [← ht.cfg] at hpos' hr
      have hexec := exec_statusPoll_again i hpos' hmore hc hok hb hr (unlimited ht)
      exact ⟨_, (moves ht (hostDue_listed hmore)).trans hexec, ⟨rfl, rfl, hpos'.symm, rfl, rfl⟩, rfl⟩
    obtain ⟨t, ht, hwait, hrest⟩ := run_stillWaiting turn answers hanswers (.refl s) hin
    exact ⟨t, ht, hwait.phase.trans hbusy, hwait.pos, hwait.result, hrest⟩

/-- Settles O25: `runSteps_statusCheck` gives the completion, and its RESULT carries the byte read. -/
theorem statusCheckDecidesTheResult : Obligations.StatusCheckDecidesTheResult := by
  unfold Obligations.StatusCheckDecidesTheResult
  intro i s a b rest hpos hanswered hok hb hr hi
  obtain ⟨hin, hrest⟩ := hanswered
  rw [exec_run_cons i hpos rfl, kindOf_other hi, runSteps_statusCheck hin hrest hok hb hr, ← apply_ite errCode]
  rfl

end Sys2Proof

/-! ### IDENTIFY and DETACH up to their first primitive (R145, R147, R148) -/

namespace Sys2Proof.Machine

/-- All seven bus capabilities, and under ECC all three of its own (R145). -/
theorem capabilitiesPresent_iff (c : Config) : capabilitiesPresent c = true ↔
    (c.busCaps.select ∧ c.busCaps.command ∧ c.busCaps.address ∧ c.busCaps.read ∧ c.busCaps.readSingle ∧
      c.busCaps.write ∧ c.busCaps.waitReady) ∧
    (c.ecc ≠ none → c.eccCaps.startStride ∧ c.eccCaps.compute ∧ c.eccCaps.correct) := by
  cases h : c.ecc <;> simp [capabilitiesPresent, h, and_assoc]

/-- The completion of an operation that has recorded no status byte and has not left its start. -/
theorem completion_justIssued {s : State} (h : JustIssued s) (e : Err) (info : BitVec 16) :
    completion e info s = { s with phase := .idle, result := resultWord (errCode e) 0 info } := by
  obtain ⟨-, hpos, hstatus, -⟩ := h
  rw [completion, hstatus, ← hpos]
  rfl

/-- An error of IDENTIFY other than NotSupported is its completion step and the rollback of R146. -/
theorem raiseErr_identify {e : Err} (he : e ≠ .notSupported) (info : BitVec 16) {s : State} (hh : hostDue s = false) :
    raiseErr .identify e info s = forgetDevice (completion e info s) := by
  simp [raiseErr, hh, he]

/-- NotSupported is its completion step alone, in IDENTIFY too (R146, R148). -/
theorem raiseErr_notSupported (k : OpKind) (info : BitVec 16) {s : State} (hh : hostDue s = false) :
    raiseErr k .notSupported info s = completion .notSupported info s := by
  simp [raiseErr, hh]

theorem exec_identify_start {s : State} (hpos : s.pos = .start) : exec .identify s = .next (startIdentify s) := by
  simp [exec, execIdentify, runOperation, hpos]

theorem startIdentify_identified {s : State} (h : identified s = true) :
    startIdentify s = raiseErr .identify .notSupported 0 s := by
  simp [startIdentify, h]

theorem startIdentify_incapable {s : State} (h : identified s = false) (hcaps : capabilitiesPresent s.cfg = false) :
    startIdentify s = raiseErr .identify .missingCapability 0 s := by
  simp [startIdentify, h, hcaps]

theorem startIdentify_capable {s : State} (h : identified s = false) (hcaps : capabilitiesPresent s.cfg = true) :
    startIdentify s = runSteps .identify (identifySteps s.cfg) { s with cellWidth := 8 } := by
  simp [startIdentify, h, hcaps]

theorem exec_detach_start {s : State} (hpos : s.pos = .start) :
    exec .detach s = .next (runSteps .other [.release] s) := by
  simp [exec, execDetach, runOperation, hpos]

theorem runsTo_release {k : OpKind} {s : State} (hh : hostDue s = false) : RunsTo k [.release] s (forgetDevice s) :=
  .step hh rfl rfl

/-! ### The catalog scan (R141) -/

/-- The scan answers an entry exactly where it is the first one with the two ids. -/
theorem catalogMatch_eq_some_iff (c : Config) (maker device : Byte) (e : ChipDesc) :
    catalogMatch c maker device = some e ↔
      ∃ before after, c.catalog = before ++ e :: after ∧ e.makerId = maker ∧ e.deviceId = device ∧
        ∀ e' ∈ before, ¬ (e'.makerId = maker ∧ e'.deviceId = device) := by
  rw [catalogMatch, List.find?_eq_some_iff_append]
  constructor
  · rintro ⟨hids, before, after, hsplit, hbefore⟩
    obtain ⟨hmaker, hdevice⟩ := by simpa using hids
    exact ⟨before, after, hsplit, hmaker, hdevice, by simpa [imp_iff_not_or] using hbefore⟩
  · rintro ⟨before, after, hsplit, hmaker, hdevice, hbefore⟩
    exact ⟨by simp [hmaker, hdevice], before, after, hsplit, by simpa [imp_iff_not_or] using hbefore⟩

/-- The scan answers none exactly where no entry has the two ids. -/
theorem catalogMatch_eq_none_iff (c : Config) (maker device : Byte) :
    catalogMatch c maker device = none ↔ ∀ e ∈ c.catalog, ¬ (e.makerId = maker ∧ e.deviceId = device) := by
  simp [catalogMatch]

theorem catalogMatch_ids {c : Config} {maker device : Byte} {e : ChipDesc} (h : catalogMatch c maker device = some e) :
    e.makerId = maker ∧ e.deviceId = device := by
  simpa using List.find?_some h

end Sys2Proof.Machine

namespace Sys2Proof

open Sys2Proof.Machine

/-- Settles O31: the scan is the first element of a list with a property. -/
theorem catalogScanTakesFirstMatch : Obligations.CatalogScanTakesFirstMatch := by
  unfold Obligations.CatalogScanTakesFirstMatch
  exact fun c maker device => ⟨catalogMatch_eq_some_iff c maker device, catalogMatch_eq_none_iff c maker device⟩

/-- Settles O30: each check before the sequence completes from the issue, and only MissingCapability rolls back. -/
theorem identifyIsTurnedAway : Obligations.IdentifyIsTurnedAway := by
  unfold Obligations.IdentifyIsTurnedAway
  refine ⟨capabilitiesPresent_iff, fun s hissued hh => ⟨fun hid => ?_, fun hid hcaps => ?_⟩⟩
  · rw [exec_identify_start hissued.pos, startIdentify_identified hid, raiseErr_notSupported _ _ hh,
      completion_justIssued hissued]
  · rw [exec_identify_start hissued.pos, startIdentify_incapable hid hcaps, raiseErr_identify (by decide) _ hh,
      completion_justIssued hissued]
    rfl

/-- Settles O32: OP 6 decodes whatever the ignored fields hold, and the release is followed by the completion step. -/
theorem detachCompletes : Obligations.DetachCompletes := by
  unfold Obligations.DetachCompletes
  refine ⟨fun arg buf => rfl, fun s hissued hh => ?_⟩
  have hforgotten : JustIssued (forgetDevice s) := ⟨hissued.phase, hissued.pos, hissued.resultStatus, hissued.raced⟩
  rw [exec_detach_start hissued.pos, (runsTo_release hh).complete hh, completion_justIssued hforgotten]
  rfl

end Sys2Proof

/-! ### The sequence of IDENTIFY, its primitives all answered well (R140) -/

namespace Sys2Proof.Machine

theorem RunsTo.congr {k : OpKind} {ms : List Micro} {s s' s'' : State} (h : RunsTo k ms s s') (heq : s' = s'') :
    RunsTo k ms s s'' := heq ▸ h

/-- The state once these primitives have been answered: `received` for a list of events. -/
def receivedAll (es : List Event) (rest : List Input) (s : State) : State :=
  { s with inputs := rest, draws := s.draws + es.length, trace := s.trace ++ es }

/-- What `bracketSelect` leaves in the trace (R17). -/
def bracketEvents (c : Config) (b : Bool) : List Event := if c.idSelect = .bracket then [.sel b true] else []

/-- What `resetWaitSteps` leaves in the trace, where the status byte read is `ready` (R17, R120). -/
def resetWaitEvents (c : Config) (ready : Byte) : List Event :=
  if c.resetWait = .status then [.cmd c.bus.cmdStatus true, .read1 (some ready)] else [.waitrdy true]

theorem runsTo_bracketSelect {k : OpKind} {s : State} {a : Answer} {rest : List Input} (b : Bool)
    (h : s.inputs = List.replicate (if s.cfg.idSelect = .bracket then 1 else 0) (.answer a) ++ rest) (hok : a.ok = true) :
    RunsTo k (bracketSelect s.cfg b) s
      { receivedAll (bracketEvents s.cfg b) rest s with ce := if s.cfg.idSelect = .bracket then b else s.ce } := by
  cases hsel : s.cfg.idSelect with
  | none =>
    obtain rfl : s.inputs = rest := by simpa [hsel] using h
    simpa [bracketSelect, bracketEvents, receivedAll, hsel] using RunsTo.nil k s
  | bracket =>
    have hin : s.inputs = .answer a :: rest := by simpa [hsel] using h
    simpa [bracketSelect, bracketEvents, receivedAll, received, hsel] using runsTo_select b hin hok

/-- The wait after the reset command: a ready line, or a status byte that is ready whatever its FAIL bit (R120, R149). -/
theorem runsTo_resetWait {k : OpKind} {s : State} {a : Answer} {ready : Byte} {rest : List Input}
    (h : s.inputs = List.replicate (if s.cfg.resetWait = .status then 2 else 1) (.answer a) ++ rest) (hok : a.ok = true)
    (hline : a.ready = true)
    (hstatus : s.cfg.resetWait = .status → a.bytes.head? = some ready ∧ statusReady s.cfg ready = true) :
    RunsTo k (resetWaitSteps s.cfg) s { receivedAll (resetWaitEvents s.cfg ready) rest s with polls := 0 } := by
  cases hwait : s.cfg.resetWait with
  | rnb =>
    have hin : s.inputs = .answer a :: rest := by simpa [hwait] using h
    have waited := (runsTo_zeroPolls (k := k) (hostDue_listed hin)).append (runsTo_waitRnb hin hline)
    simpa [resetWaitSteps, waitRnb, resetWaitEvents, receivedAll, received, hwait] using waited
  | status =>
    have hin : s.inputs = .answer a :: .answer a :: rest := by simpa [hwait, List.replicate_succ] using h
    obtain ⟨hbyte, hready⟩ := hstatus hwait
    have commanded := (runsTo_zeroPolls (k := k) (hostDue_listed hin)).append (runsTo_cmd s.cfg.bus.cmdStatus hin hok)
    have polled := commanded.append (runsTo_statusRead rfl hok hbyte hready)
    simpa [resetWaitSteps, statusPoll, resetWaitEvents, receivedAll, received, hwait] using polled

/-- The read-id command, its address byte and the two identification bytes (R140). -/
theorem runsTo_readIds {k : OpKind} {s : State} {a : Answer} {maker device : Byte} {rest : List Input}
    (h : s.inputs = .answer a :: .answer a :: .answer (goodAnswer [maker]) :: .answer (goodAnswer [device]) :: rest)
    (hok : a.ok = true) :
    RunsTo k [.cmd s.cfg.bus.cmdReadId, .addr s.cfg.bus.idAddr, .readMaker, .readDevice] s
      { receivedAll [.cmd s.cfg.bus.cmdReadId true, .addr s.cfg.bus.idAddr true, .read1 (some maker),
          .read1 (some device)] rest s with
        idMaker := maker, idDevice := device } := by
  have addressed := (runsTo_cmd (k := k) s.cfg.bus.cmdReadId h hok).append (runsTo_addr s.cfg.bus.idAddr rfl hok)
  have madeBy := addressed.append (runsTo_readMaker (b := maker) rfl rfl rfl)
  have named := madeBy.append (runsTo_readDevice (b := device) rfl rfl rfl)
  simpa [receivedAll, received] using named

/-- The steps of IDENTIFY before its catalog scan (R140). -/
def identifyReads (c : Config) : List Micro :=
  bracketSelect c true ++ [.cmd c.bus.cmdReset] ++ resetWaitSteps c ++
    [.cmd c.bus.cmdReadId, .addr c.bus.idAddr, .readMaker, .readDevice] ++ bracketSelect c false

theorem identifySteps_eq (c : Config) : identifySteps c = identifyReads c ++ [.loadGeometry] := rfl

/-- The events of IDENTIFY, every primitive answered well (R17, R140). -/
def identifyEvents (c : Config) (ready maker device : Byte) : List Event :=
  bracketEvents c true ++ [.cmd c.bus.cmdReset true] ++ resetWaitEvents c ready ++
    [.cmd c.bus.cmdReadId true, .addr c.bus.idAddr true, .read1 (some maker), .read1 (some device)] ++
    bracketEvents c false

theorem identifyEvents_default {c : Config} (hsel : c.idSelect = .none) (hwait : c.resetWait = .rnb)
    (ready maker device : Byte) :
    identifyEvents c ready maker device = [.cmd c.bus.cmdReset true, .waitrdy true, .cmd c.bus.cmdReadId true,
      .addr c.bus.idAddr true, .read1 (some maker), .read1 (some device)] := by
  simp [identifyEvents, bracketEvents, resetWaitEvents, hsel, hwait]

/-- The answers `identifyReads` takes: `a` up to the two identification bytes, and a good one for a closing select. -/
def identifyAnswers (c : Config) (a : Answer) (maker device : Byte) : List Answer :=
  List.replicate ((if c.idSelect = .bracket then 1 else 0) + 1 + (if c.resetWait = .status then 2 else 1) + 2) a ++
    [goodAnswer [maker], goodAnswer [device]] ++ List.replicate (if c.idSelect = .bracket then 1 else 0) (goodAnswer [])

theorem identifyAnswers_default {c : Config} (hsel : c.idSelect = .none) (hwait : c.resetWait = .rnb) (a : Answer)
    (maker device : Byte) :
    identifyAnswers c a maker device = List.replicate 4 a ++ [goodAnswer [maker], goodAnswer [device]] := by
  simp [identifyAnswers, hsel, hwait]

/-- The state at the catalog scan: the two bytes read, and the select released where ID_SELECT brackets. -/
def idsRead (ready maker device : Byte) (rest : List Input) (s : State) : State :=
  { receivedAll (identifyEvents s.cfg ready maker device) rest s with
    ce := if s.cfg.idSelect = .bracket then false else s.ce
    polls := 0, idMaker := maker, idDevice := device }

theorem runsTo_identifyReads {k : OpKind} {s : State} {a : Answer} {ready maker device : Byte} {rest : List Input}
    (h : s.inputs = (identifyAnswers s.cfg a maker device).map Input.answer ++ rest) (hok : a.ok = true)
    (hline : a.ready = true)
    (hstatus : s.cfg.resetWait = .status → a.bytes.head? = some ready ∧ statusReady s.cfg ready = true) :
    RunsTo k (identifyReads s.cfg) s (idsRead ready maker device rest s) := by
  simp only [identifyAnswers, List.replicate_add, List.map_append, List.map_replicate, List.append_assoc] at h
  have selected := runsTo_bracketSelect (k := k) true h hok
  have reset := selected.append (runsTo_cmd s.cfg.bus.cmdReset rfl hok)
  have waited := reset.append (runsTo_resetWait rfl hok hline hstatus)
  have named := waited.append (runsTo_readIds rfl hok)
  have released := named.append (runsTo_bracketSelect false rfl rfl)
  refine released.congr ?_
  simp only [receivedAll, received, idsRead, identifyEvents, List.append_assoc, List.length_append]
  congr 1
  · split <;> rfl
  · simp only [List.length_cons, List.length_nil]
    omega

/-- The state `load_geometry` leaves for a matched entry (R143, R144). -/
def chipLoaded (e : ChipDesc) (s : State) : State :=
  { s with dev := some (loadedDevice s.cfg s.draws e), idReg := idWord e.makerId e.deviceId, draws := s.draws + 1 }

theorem perform_loadGeometry_match {k : OpKind} {s : State} {e : ChipDesc}
    (h : catalogMatch s.cfg s.idMaker s.idDevice = some e) :
    perform k .loadGeometry s = .done (chipLoaded e s) := by
  simp [perform, doLoadGeometry, chipLoaded, h]

theorem perform_loadGeometry_noMatch {k : OpKind} {s : State} (h : catalogMatch s.cfg s.idMaker s.idDevice = none) :
    perform k .loadGeometry s = .raised .unsupportedDevice 0 s := by
  simp [perform, doLoadGeometry, h]

/-- A freshly loaded device has its buffers at the sizes of R24 and R25. -/
theorem chipLoaded_buffersSized (e : ChipDesc) (s : State) : BuffersSized (chipLoaded e s) := by
  intro d hd
  cases hd
  simp [loadedDevice, chipLoaded]

/-- IDENTIFY from its issue, its primitives answered well: the catalog scan is what is left to do (R140). -/
theorem exec_identify_reads {s : State} {a : Answer} {ready maker device : Byte} {rest : List Input}
    (hissued : JustIssued s) (hdev : s.dev = none) (hcaps : capabilitiesPresent s.cfg = true)
    (h : s.inputs = (identifyAnswers s.cfg a maker device).map Input.answer ++ rest) (hok : a.ok = true)
    (hline : a.ready = true)
    (hstatus : s.cfg.resetWait = .status → a.bytes.head? = some ready ∧ statusReady s.cfg ready = true) :
    exec .identify s =
      .next (runSteps .identify [.loadGeometry] (idsRead ready maker device rest { s with cellWidth := 8 })) := by
  have reads := runsTo_identifyReads (k := .identify) (s := { s with cellWidth := 8 }) h hok hline hstatus
  rw [exec_identify_start hissued.pos, startIdentify_capable (by simp [identified, hdev]) hcaps, identifySteps_eq, reads]

end Sys2Proof.Machine

namespace Sys2Proof

open Sys2Proof.Machine

/-- Settles O28: the sequence runs to the catalog scan, whose match is loaded and followed by the completion step. -/
theorem identifyLoadsMatchedChip : Obligations.IdentifyLoadsMatchedChip := by
  unfold Obligations.IdentifyLoadsMatchedChip
  intro s ready maker device e rest hissued hdev hcaps hready hmatch ⟨hin, hrest⟩
  have hexec := exec_identify_reads (a := goodAnswer [ready]) hissued hdev hcaps hin rfl rfl fun _ => ⟨rfl, hready⟩
  have loaded := RunsTo.step (k := .identify) (s := idsRead ready maker device rest { s with cellWidth := 8 }) hrest rfl
    (perform_loadGeometry_match hmatch)
  obtain ⟨hmaker, hdevice⟩ := catalogMatch_ids hmatch
  rw [hexec, loaded.complete hrest, ← hmaker, ← hdevice]
  exact ⟨_, rfl, rfl, completion_ok_result hissued.resultStatus, rfl, rfl, rfl, idWord_maker _ _, idWord_device _ _,
    idWord_above _ _, chipLoaded_buffersSized e _, rfl, rfl, rfl, rfl,
    fun hsel hwait => congrArg (s.trace ++ ·) (identifyEvents_default hsel hwait ready _ _)⟩

/-- Settles O29: the sequence runs to the catalog scan, whose UnsupportedDevice completes and rolls back. -/
theorem identifyWithoutMatchFails : Obligations.IdentifyWithoutMatchFails := by
  unfold Obligations.IdentifyWithoutMatchFails
  intro s maker device rest hissued hdev hcaps hsel hwait hnone ⟨hin, hrest⟩
  rw [← identifyAnswers_default hsel hwait] at hin
  have hexec := exec_identify_reads (ready := 0) hissued hdev hcaps hin rfl rfl (by simp [hwait])
  have hh : hostDue (idsRead 0 maker device rest { s with cellWidth := 8 }) = false := hrest
  rw [hexec, runSteps_raised hh rfl (perform_loadGeometry_noMatch ((catalogMatch_eq_none_iff _ _ _).2 hnone)),
    raiseErr_identify (by decide) _ hh]
  refine ⟨_, rfl, rfl, ?_, rfl, rfl, if_neg (by simp [hsel])⟩
  simp [idsRead, receivedAll, hissued.resultStatus]

end Sys2Proof

/-! ### What IDENTIFY and DETACH leave unchanged (R140, R147) -/

namespace Sys2Proof.Machine

/-- The steps that write the ECC Backend's accumulator: its start and the strides that pass it (R29, R163). -/
def feedsEcc : Micro → Bool
  | .eccStart | .strideRead _ _ | .strideWrite _ _ => true
  | .select _ | .cmd _ | .addr _ | .zeroPolls | .waitRnb | .statusRead _ | .delay | .readMaker | .readDevice
  | .loadGeometry | .eccCompute _ | .spareRead | .extractEcc | .buildSpare | .spareWrite | .eccCorrect _ _
  | .release => false

/-- The step that alone writes each of these fields: a checked status read the status byte (R119), a select `ce` (R26),
an ECC start or a stride the accumulator (R29). -/
structure OwnWrites (m : Micro) (s t : State) : Prop where
  resultStatus : m ≠ .statusRead true → t.resultStatus = s.resultStatus
  ce : (∀ b, m ≠ .select b) → t.ce = s.ce
  eccAcc : feedsEcc m = false → t.eccAcc = s.eccAcc

theorem OwnWrites.of_eq {m : Micro} {s t : State} (hstatus : t.resultStatus = s.resultStatus) (hce : t.ce = s.ce)
    (hecc : t.eccAcc = s.eccAcc) : OwnWrites m s t := ⟨fun _ => hstatus, fun _ => hce, fun _ => hecc⟩

theorem perform_ownWrites (k : OpKind) (m : Micro) (s : State) : OwnWrites m s (flowState (perform k m s)) := by
  cases m <;> simp only [perform]
  case select b => rw [doSelect_state]; exact ⟨fun _ => rfl, fun h => absurd rfl (h b), fun _ => rfl⟩
  case cmd => rw [doCmd, busAck_state]; exact .of_eq rfl rfl rfl
  case addr => rw [doAddr, busAck_state]; exact .of_eq rfl rfl rfl
  case spareWrite => rw [doSpareWrite, busAck_state]; exact .of_eq rfl rfl rfl
  case waitRnb => rw [doWaitRnb_state]; exact .of_eq rfl rfl rfl
  case statusRead check =>
    simp only [doStatusRead, statusCheck]
    split
    · exact .of_eq rfl rfl rfl
    split
    · split
      · next hcheck => split <;> exact ⟨fun h => absurd (by rw [hcheck]) h, fun _ => rfl, fun _ => rfl⟩
      · exact .of_eq rfl rfl rfl
    · rw [notReady_state]; exact .of_eq rfl rfl rfl
  case eccStart =>
    simp only [doEccStart]
    split <;> exact ⟨fun _ => rfl, fun _ => rfl, fun h => absurd h (by simp [feedsEcc])⟩
  case strideRead | strideWrite =>
    simp only [doStrideRead, doStrideWrite]
    split <;> exact ⟨fun _ => by simp, fun _ => by simp, fun h => absurd h (by simp [feedsEcc])⟩
  case readMaker | readDevice | loadGeometry =>
    simp only [doReadMaker, doReadDevice, doLoadGeometry]
    split <;> exact .of_eq rfl rfl rfl
  case eccCompute | spareRead | eccCorrect =>
    simp only [doEccCompute, doSpareRead, doEccCorrect]
    split <;> exact .of_eq rfl rfl rfl
  case zeroPolls | delay | extractEcc | buildSpare | release => exact .of_eq rfl rfl rfl

/-- A step that leaves the status byte and the accumulator, and `ce` too where ID_SELECT does not bracket. -/
def IdentifyStep (c : Config) (m : Micro) : Prop :=
  m ≠ .statusRead true ∧ feedsEcc m = false ∧ (c.idSelect = .none → ∀ b, m ≠ .select b)

/-- IDENTIFY is made of such steps: it uses no ECC, its status read is unchecked (R149), its selects are the bracket's. -/
theorem identifySteps_identifyStep (c : Config) : ∀ m ∈ identifySteps c, IdentifyStep c m := by
  have hbracket : ∀ b, ∀ m ∈ bracketSelect c b, IdentifyStep c m := fun b => by
    cases hsel : c.idSelect <;> simp [bracketSelect, hsel, IdentifyStep, feedsEcc]
  have hwait : ∀ m ∈ resetWaitSteps c, IdentifyStep c m := by
    cases hmode : c.resetWait <;> simp [resetWaitSteps, hmode, waitRnb, statusPoll, IdentifyStep, feedsEcc]
  simp only [identifySteps, List.forall_mem_append]
  exact ⟨⟨⟨⟨⟨hbracket true, by simp [IdentifyStep, feedsEcc]⟩, hwait⟩, by simp [IdentifyStep, feedsEcc]⟩,
    hbracket false⟩, by simp [IdentifyStep, feedsEcc]⟩

theorem ownSteps_identifyStep {s : State} : ∀ m ∈ ownSteps .identify s, IdentifyStep s.cfg m := by
  simp only [ownSteps, stepsOf, Option.getD_some, List.forall_mem_append]
  exact ⟨identifySteps_identifyStep s.cfg, by simp [IdentifyStep, feedsEcc]⟩

/-- What IDENTIFY leaves besides the descriptor and host memory (R140). -/
structure IdentifyKept (s t : State) : Prop where
  raced : t.raced = s.raced
  hostSeen : t.hostSeen = s.hostSeen
  resultStatus : t.resultStatus = s.resultStatus
  eccAcc : t.eccAcc = s.eccAcc
  ce : s.cfg.idSelect = .none → t.ce = s.ce

theorem controlFree_identifyKept (s : State) : ControlFree (IdentifyKept s) where
  pos _ _ h := ⟨h.raced, h.hostSeen, h.resultStatus, h.eccAcc, h.ce⟩
  completion _ _ _ h := ⟨h.raced, h.hostSeen, h.resultStatus, h.eccAcc, h.ce⟩
  forget _ h := ⟨h.raced, h.hostSeen, h.resultStatus, h.eccAcc, h.ce⟩

theorem perform_identifyKept {k : OpKind} {m : Micro} {s x : State} (hm : IdentifyStep s.cfg m) (h : IdentifyKept s x) :
    IdentifyKept s (flowState (perform k m x)) := by
  have hctl := perform_control k m x
  have hown := perform_ownWrites k m x
  obtain ⟨hcheck, hecc, hselect⟩ := hm
  exact ⟨hctl.raced.trans h.raced, hctl.hostSeen.trans h.hostSeen, (hown.resultStatus hcheck).trans h.resultStatus,
    (hown.eccAcc hecc).trans h.eccAcc, fun hsel => (hown.ce (hselect hsel)).trans (h.ce hsel)⟩

/-- IDENTIFY from inside its sequence leaves the status byte and the accumulator, and `ce` unless ID_SELECT brackets. -/
theorem exec_identify_kept {s t : State} (hat : AtOwnSteps .identify s) (h : exec .identify s = .next t) :
    IdentifyKept s t :=
  exec_keeps_of_ownSteps (controlFree_identifyKept s)
    (fun _ _ hx => ⟨hx.raced, hx.hostSeen, hx.resultStatus, hx.eccAcc, hx.ce⟩) ownSteps_identifyStep
    (fun _ _ _ hm hx => perform_identifyKept hm hx) hat h ⟨rfl, rfl, rfl, rfl, fun _ => rfl⟩

/-- A property that the control, the operation's start and its steps still to do keep is kept by the operation. -/
theorem runOperation_keeps {P : State → Prop} {M : Micro → Prop} {k : OpKind} {start : State → State} {s t : State}
    (h : ControlFree P) (hstep : ∀ m x, M m → P x → P (flowState (perform k m x))) (hstart : P s → P (start s))
    (hat : ∀ ms, s.pos = .run ms → ∀ m ∈ ms, M m) (he : runOperation k start s = .next t) (hs : P s) : P t := by
  rcases runOperation_cases he with ⟨-, rfl⟩ | ⟨ms, hms, rfl⟩ | ⟨e, info, -, rfl⟩
  · exact hstart hs
  · exact (runRule_keeps h k hstep).run ms ⟨hat ms hms, hs⟩
  · exact raiseErr_keeps h _ _ _ hs

/-- `t` is `s` but for the position, what completes the operation, the device and ID, and the trace (R147). -/
def DetachChanges (s t : State) : Prop :=
  ∃ phase pos result dev idReg trace,
    t = { s with phase := phase, pos := pos, result := result, dev := dev, idReg := idReg, trace := trace }

theorem controlFree_detachChanges (s : State) : ControlFree (DetachChanges s) where
  pos := by rintro _ p ⟨_, _, _, _, _, _, rfl⟩; exact ⟨_, _, _, _, _, _, rfl⟩
  completion := by rintro _ e i ⟨_, _, _, _, _, _, rfl⟩; exact ⟨_, _, _, _, _, _, rfl⟩
  forget := by rintro _ ⟨_, _, _, _, _, _, rfl⟩; exact ⟨_, _, _, _, _, _, rfl⟩

theorem perform_detachChanges {k : OpKind} {m : Micro} {s x : State} (hm : m = .release ∨ m = .delay)
    (h : DetachChanges s x) : DetachChanges s (flowState (perform k m x)) := by
  obtain ⟨_, _, _, _, _, _, rfl⟩ := h
  rcases hm with rfl | rfl <;> exact ⟨_, _, _, _, _, _, rfl⟩

/-- DETACH from inside its sequence performs no primitive: all it can do is release the device and complete (R147). -/
theorem exec_detach_changes {s t : State} (hat : AtOwnSteps .detach s) (h : exec .detach s = .next t) :
    DetachChanges s t := by
  have hown : ∀ m ∈ ownSteps .detach s, m = .release ∨ m = .delay := by simp [ownSteps, stepsOf]
  have hfree := controlFree_detachChanges s
  have hstep : ∀ m x, (m = .release ∨ m = .delay) → DetachChanges s x →
      DetachChanges s (flowState (perform .other m x)) := fun _ _ hm hx => perform_detachChanges hm hx
  exact runOperation_keeps hfree hstep
    (fun hs => (runRule_keeps hfree .other hstep).run [.release] ⟨by simp, hs⟩)
    (fun ms hms m hm => hown m (hat ms hms m hm)) h ⟨_, _, _, _, _, _, rfl⟩

end Sys2Proof.Machine

namespace Sys2Proof

open Sys2Proof.Machine

/-- Settles O48: what no operation writes, what no step of IDENTIFY's own writes, and that only PAGE_READ writes memory. -/
theorem identifyFrame : Obligations.IdentifyFrame := by
  unfold Obligations.IdentifyFrame
  intro s t hat h
  have hsame := exec_sameDescriptor h
  have hkept := exec_identify_kept hat h
  have hmem := exec_mem (i := .identify) (fun _ _ => nofun) hat h
  exact ⟨hsame.cfg, hsame.cur, hsame.desc0, hsame.desc1, hkept.raced, hkept.hostSeen, hkept.resultStatus, hkept.eccAcc,
    hkept.ce, fun a => by rw [hmem]⟩

/-- Settles O49: the state DETACH leaves, written out. -/
theorem detachFrame : Obligations.DetachFrame := by
  unfold Obligations.DetachFrame
  intro s t hat h
  obtain ⟨phase, pos, result, dev, idReg, trace, rfl⟩ := exec_detach_changes hat h
  exact ⟨rfl, rfl, rfl, rfl, rfl, rfl, rfl, rfl, rfl, rfl, rfl, rfl, rfl, rfl, fun _ => rfl⟩

end Sys2Proof

/-! ### A page read whose correction fails (R170, R171), and an ECC descriptor that does not fit (R160) -/

namespace Sys2Proof.Machine

/-- No host event is due where listed answers come before inputs with none due. -/
theorem hostFirst_answers {rest : List Input} (h : hostFirst rest = false) (answers : List Answer) :
    hostFirst (answers.map Input.answer ++ rest) = false := by
  cases answers with
  | nil => exact h
  | cons a answers => rfl

/-- Steps that are all done, then a step that raises: whatever follows is not reached (R222). -/
theorem RunsTo.raised {k : OpKind} {ms ms' : List Micro} {m : Micro} {s s' s'' : State} {e : Err} {info : BitVec 16}
    (h : RunsTo k ms s s') (hh : hostDue s' = false) (hb : blocked s' m = false)
    (hp : perform k m s' = .raised e info s'') : runSteps k (ms ++ m :: ms') s = raiseErr k e info s'' :=
  (h (m :: ms')).trans (runSteps_raised hh hb hp)

/-- A correction answered with a non-zero code raises UncorrectableEcc with the code's low 16 bits and writes nothing
(R170, R171). -/
theorem perform_eccCorrect_nonZero {k : OpKind} {s : State} {a : Answer} {rest : List Input} (buf : Word64) (i : Nat)
    (h : s.inputs = .answer a :: rest) (hcode : a.code ≠ 0) :
    perform k (.eccCorrect buf i) s =
      .raised .uncorrectableEcc (a.code.setWidth 16) (received (.ecccorrect i a.code) rest s) := by
  simp only [perform, doEccCorrect, correctAnswer, answerOf_listed h, if_neg hcode, logged_drawn h]

/-- An admitted page buffer does not hold a correction up (R63). -/
theorem TransferReady.correction_not_blocked {s : State} {d : Device} {buf : Word64} (h : TransferReady s d buf) (i : Nat) :
    blocked s (.eccCorrect buf i) = false := by
  rw [blocked, h.pageAdmitted, Bool.not_true]

/-- A correction pass over more than `n` strides: `n` corrections, then that of stride `n`, then the later ones (R169). -/
theorem corrections_split {n count : Nat} (h : n < count) (buf : Word64) :
    ∃ later, (List.range count).map (Micro.eccCorrect buf) =
      (List.range n).map (Micro.eccCorrect buf) ++ .eccCorrect buf n :: later := by
  obtain ⟨j, rfl⟩ := Nat.exists_eq_add_of_lt h
  refine ⟨(List.range' (n + 1) j).map (Micro.eccCorrect buf), ?_⟩
  rw [List.range_eq_range', List.range_eq_range', Nat.add_assoc, ← List.range'_append_1, List.map_append, Nat.zero_add,
    List.range'_succ, List.map_cons]

/-- The state a PAGE_READ under ECC has reached once its first `fixed.length` corrections have answered 0: the page as read
with the corrected strides `fixed` over it (R169). -/
def pageCorrected (d : Device) (page : Word32) (buf : Word64) (strides : List (List Byte × List Byte)) (spare : List Byte)
    (fixed : List (List Byte)) (s : State) : State :=
  { pageFetched d page buf strides spare s with
    mem := memWriteBytes (memWriteBytes s.mem buf.toNat (strides.map (·.1)).flatten) buf.toNat fixed.flatten
    draws := (pageFetched d page buf strides spare s).draws + 2 * fixed.length
    trace := (pageFetched d page buf strides spare s).trace ++ (List.range fixed.length).map fun j => .ecccorrect j 0 }

/-- PAGE_READ under ECC through its first `fixed.length` corrections, every primitive answered well (R193, R169). -/
theorem runsTo_pageCorrected {k : OpKind} {s : State} {d : Device} {x : EccDesc} {rest : List Input} {buf : Word64}
    (page : Word32) (strides : List (List Byte × List Byte)) (spare : List Byte) (fixed : List (List Byte))
    (hecc : s.cfg.ecc = some x) (hready : TransferReady s d buf) (hfit : StridesFit s.cfg d.geom strides)
    (hspare : spare.length = d.geom.spareSize) (hsizes : ∀ f ∈ fixed, f.length = strideLen s.cfg d.geom)
    (h : s.inputs = (readAnswers d.geom strides spare).map Input.answer ++ ((fixed.map goodAnswer).map Input.answer ++ rest))
    (hrest : hostFirst rest = false) :
    RunsTo k (pageReadFetch s.cfg page buf d.geom ++ (List.range fixed.length).map (Micro.eccCorrect buf)) s
      { pageCorrected d page buf strides spare fixed s with inputs := rest } := by
  have fetched := runsTo_pageReadFetch (k := k) page strides spare hecc hready hfit hspare h (hostFirst_answers hrest _)
  have corrected := fetched.append (runsTo_corrections fixed 0 ⟨rfl, hready.admitted, hready.raced⟩ hsizes rfl)
  simpa [pageCorrected, pageFetched, List.range_eq_range'] using corrected

/-- PAGE_READ under ECC whose correction of stride `fixed.length` is the first to answer a non-zero code: that answer is the
last one taken, and the operation completes with it at once (R170, R171). -/
theorem exec_pageRead_uncorrectable {s : State} {d : Device} {x : EccDesc} {rest : List Input} {buf : Word64}
    (page : Word32) (strides : List (List Byte × List Byte)) (spare : List Byte) (fixed : List (List Byte)) (bad : Answer)
    (hpos : s.pos = .start) (hecc : s.cfg.ecc = some x) (hready : TransferReady s d buf)
    (hfit : StridesFit s.cfg d.geom strides) (hspare : spare.length = d.geom.spareSize)
    (hfixed : fixed.length < strides.length) (hsizes : ∀ f ∈ fixed, f.length = strideLen s.cfg d.geom)
    (hcode : bad.code ≠ 0) (h : Answered s (readAnswers d.geom strides spare ++ fixed.map goodAnswer ++ [bad]) rest) :
    exec (.pageRead page buf) s = .next (completion .uncorrectableEcc (bad.code.setWidth 16)
      (received (.ecccorrect fixed.length bad.code) rest (pageCorrected d page buf strides spare fixed s))) := by
  obtain ⟨hinputs, hrest⟩ := h
  have corrected := runsTo_pageCorrected (k := .other) page strides spare fixed hecc hready hfit hspare hsizes
    (rest := .answer bad :: rest) (by simpa using hinputs) rfl
  have hcorrected : TransferReady
      { pageCorrected d page buf strides spare fixed s with inputs := .answer bad :: rest } _ buf :=
    ⟨rfl, hready.admitted, hready.raced⟩
  obtain ⟨later, hsteps⟩ := corrections_split (hfit.1 ▸ hfixed) buf
  rw [exec_pageRead_start hpos hready.dev, pageReadSteps_ecc hecc, hsteps, ← List.append_assoc]
  have raised := corrected.raised (ms' := later) rfl (hcorrected.correction_not_blocked _)
    (perform_eccCorrect_nonZero buf fixed.length rfl hcode)
  exact congrArg Host.Outcome.next (raised.trans (raiseErr_other _ _ hrest))

/-- Where no status byte has been recorded, a completion reports status 0 (R31, R222). -/
theorem completion_result_unrecorded {s : State} (h : s.resultStatus = none) (e : Err) (info : BitVec 16) :
    (completion e info s).result = resultWord (errCode e) 0 info := by
  rw [completion_result, h, Option.getD_none]

end Sys2Proof.Machine

namespace Sys2Proof

open Sys2Proof.Machine

/-- Settles O40: the fields of the state `exec_pageRead_uncorrectable` completes; no status byte has been recorded. -/
theorem nonZeroCodeFailsFast : Obligations.NonZeroCodeFailsFast := by
  unfold Obligations.NonZeroCodeFailsFast
  intro s page buf d x strides spare fixed bad rest hissued hdev hecc hadm hfit hspare hfixed hsizes hcode hanswered
  have hready : TransferReady s d buf :=
    ⟨hdev, by simpa [pageAdmitted, geometry, hdev] using hadm, hissued.raced⟩
  have hrun := exec_pageRead_uncorrectable page strides spare fixed bad hissued.pos hecc hready hfit hspare hfixed hsizes
    hcode hanswered
  exact ⟨_, hrun, completion_phase _ _ _, completion_inputs _ _ _,
    completion_result_unrecorded hissued.resultStatus _ _, completion_mem _ _ _⟩

/-- Settles O11: an admitted configuration fits its ECC descriptor to every catalog entry. -/
theorem unfitEccDescriptorIsRefused : Obligations.UnfitEccDescriptorIsRefused := by
  unfold Obligations.UnfitEccDescriptorIsRefused
  intro s x e hecc he hunfit
  rw [step_configNotAdmitted_iff, Bool.eq_false_iff]
  intro hw
  obtain ⟨-, hentries⟩ := (config_wf_iff s.cfg).1 hw
  exact hunfit ((hentries e he).2 x hecc)

end Sys2Proof

/-! ### SELECT, and an operation issued with no chip identified (R191, R192) -/

namespace Sys2Proof.Machine

theorem runOperation_start {k : OpKind} {s : State} (hpos : s.pos = .start) (start : State → State) :
    runOperation k start s = .next (start s) := by
  simp [runOperation, hpos]

theorem exec_select_start {s : State} (hpos : s.pos = .start) (en : Bool) :
    exec (.select en) s = .next (runSteps .other [.select en] s) := runOperation_start hpos _

/-- A failed select raises the operation's bus error and leaves `ce` (R111). -/
theorem perform_select_fails {k : OpKind} {s : State} {a : Answer} {rest : List Input} (b : Bool)
    (h : s.inputs = .answer a :: rest) (hok : a.ok = false) :
    perform k (.select b) s = .raised (busErr k) 0 (received (.sel b false) rest s) := by
  rw [perform, doSelect, busAck_fail h hok]

/-- With no chip identified, a page or block operation raises NotSupported at its start (R192). -/
theorem startIdentified_unidentified {s : State} (h : identified s = false) (steps : Geometry → List Micro) :
    startIdentified steps s = raiseErr .other .notSupported 0 s := by
  have hdev : s.dev = none := by simpa [identified] using h
  simp [startIdentified, hdev]

end Sys2Proof.Machine

namespace Sys2Proof

open Sys2Proof.Machine

/-- Settles O33: the one primitive, answered ok or fail, then the completion step. -/
theorem selectCompletes : Obligations.SelectCompletes := by
  unfold Obligations.SelectCompletes
  refine ⟨fun en arg buf => by cases en <;> rfl, fun s en a rest hissued hanswered => ?_⟩
  have hin : s.inputs = .answer a :: rest := hanswered.1
  have hrest : hostFirst rest = false := hanswered.2
  rw [exec_select_start hissued.pos]
  refine ⟨fun hok => ?_, fun hok => ?_⟩
  · have hselected : JustIssued { received (.sel en true) rest s with ce := en } :=
      ⟨hissued.phase, hissued.pos, hissued.resultStatus, hissued.raced⟩
    rw [(runsTo_select en hin hok).complete hrest, completion_justIssued hselected]
    rfl
  · have hfailed : JustIssued (received (.sel en false) rest s) :=
      ⟨hissued.phase, hissued.pos, hissued.resultStatus, hissued.raced⟩
    rw [runSteps_raised (hostDue_listed hin) rfl (perform_select_fails en hin hok),
      raiseErr_other (s := received (.sel en false) rest s) _ _ hrest, completion_justIssued hfailed]
    rfl

/-- Settles O34: each of the three operations is turned away at its start. -/
theorem unidentifiedOperationIsNotSupported : Obligations.UnidentifiedOperationIsNotSupported := by
  unfold Obligations.UnidentifiedOperationIsNotSupported
  intro s page buf hissued hhost hid i hi
  have turnedAway : ∀ steps : Geometry → List Micro, runOperation .other (startIdentified steps) s =
      .next { s with phase := .idle, result := resultWord (errCode .notSupported) 0 0 } := fun steps => by
    rw [runOperation_start hissued.pos, startIdentified_unidentified hid, raiseErr_notSupported _ _ hhost,
      completion_justIssued hissued]
  rcases hi with rfl | rfl | rfl
  · exact turnedAway _
  · exact turnedAway _
  · exact turnedAway _

end Sys2Proof

/-! ### The page buffer at issue (R63, R263), and the stride partition (R12, R162) -/

namespace Sys2Proof

open Sys2Proof.Machine

/-- A page operation just issued finds its admitted page buffer as a transfer needs it. -/
theorem JustIssued.transferReady {s : State} {d : Device} {buf : Word64} (h : JustIssued s) (hdev : s.dev = some d)
    (hadm : pageAdmitted s buf = true) : TransferReady s d buf :=
  ⟨hdev, by simpa [pageAdmitted, geometry, hdev] using hadm, h.raced⟩

end Sys2Proof

namespace Sys2Proof.Machine

theorem strideLen_noEcc {c : Config} (h : c.ecc = none) (g : Geometry) : strideLen c g = g.pageSize := by
  simp [strideLen, h]

theorem strideCount_noEcc {c : Config} (h : c.ecc = none) (g : Geometry) : strideCount c g = 1 := by
  simp [strideCount, h]

theorem strideLen_of_eccFits {c : Config} {g : Geometry} {x : EccDesc} (h : c.ecc = some x) (hfit : EccFits x g) :
    strideLen c g = x.protect := by
  obtain ⟨-, hle, -⟩ := hfit
  simp [strideLen, h, hle]

/-- The strides never reach past the page, whatever the configuration. -/
theorem strideCount_mul_strideLen_le (c : Config) (g : Geometry) : strideCount c g * strideLen c g ≤ g.pageSize := by
  cases h : c.ecc with
  | none => simp [strideCount, strideLen, h]
  | some x => simpa [strideCount, h] using Nat.div_mul_le_self _ _

/-- Under an admitted ECC descriptor the strides fill the page. -/
theorem strideCount_mul_strideLen {c : Config} {g : Geometry} (hfit : ∀ x, c.ecc = some x → EccFits x g) :
    strideCount c g * strideLen c g = g.pageSize := by
  cases h : c.ecc with
  | none => simp [strideCount, strideLen, h]
  | some x =>
    obtain ⟨-, -, hdvd, -⟩ := hfit x h
    simpa [strideCount, strideLen, h] using Nat.div_mul_cancel (Nat.dvd_of_mod_eq_zero hdvd)

/-- Of `n` blocks of length `l` one after the other, each place lies in exactly one. -/
theorem existsUnique_block {n l i : Nat} (h : i < n * l) : ∃! k, k < n ∧ k * l ≤ i ∧ i < (k + 1) * l := by
  have hl : 0 < l := Nat.pos_of_mul_pos_left (Nat.zero_lt_of_lt h)
  refine ⟨i / l, ⟨Nat.div_lt_of_lt_mul (by rwa [Nat.mul_comm]), Nat.div_mul_le_self i l,
    Nat.mul_comm l _ ▸ Nat.lt_mul_div_succ i hl⟩, ?_⟩
  rintro k ⟨-, hlow, hhigh⟩
  exact (Nat.div_eq_of_lt_le hlow hhigh).symm

end Sys2Proof.Machine

namespace Sys2Proof

open Sys2Proof.Machine

/-- Settles O39: the strides fill the page of an admitted configuration, and the fields of the state that
`exec_pageRead_ecc` completes. -/
theorem pageReadCompletesWithEcc : Obligations.PageReadCompletesWithEcc := by
  unfold Obligations.PageReadCompletesWithEcc
  constructor
  · intro c e hwf he
    have hfit : ∀ x, c.ecc = some x → EccFits x e.geom := (((config_wf_iff c).1 hwf).2 e he).2
    have hfill := strideCount_mul_strideLen hfit
    exact ⟨hfill, fun h => ⟨strideLen_noEcc h _, strideCount_noEcc h _⟩, fun x h => strideLen_of_eccFits h (hfit x h),
      fun i hi => existsUnique_block (hfill ▸ hi)⟩
  · intro s page buf d x strides spare fixed rest hissued hdev hecc hadm hfit hspare hfixed hsizes hanswered
    have hrun := exec_pageRead_ecc page strides spare fixed hissued.pos hecc (hissued.transferReady hdev hadm) hfit
      hspare hfixed hsizes hanswered
    refine ⟨_, hrun, rfl, rfl, completion_ok_result hissued.resultStatus, rfl, rfl, ?_, ?_⟩
    · rw [← eccPositions_some hecc]
      rfl
    · simp only [completion_trace, pageFetched, pageReadOpeningEvents, hfixed, List.append_assoc]
      rfl

end Sys2Proof

/-! ### Page and block operations whose primitives are all answered well (R193, R196, R199) -/

namespace Sys2Proof.Machine

/-- The answers of an operation that opens with a select, a command and `n` address cycles, and takes `m` more. -/
theorem commandAcks_split {n m : Nat} {acks : List Answer} (hlen : acks.length = 2 + n + m) :
    ∃ sel cmd cycles later, acks = sel :: cmd :: (cycles ++ later) ∧ cycles.length = n ∧ later.length = m := by
  match acks, hlen with
  | sel :: cmd :: acks, hlen =>
    have hlong : acks.length = n + m := by simp only [List.length_cons] at hlen; omega
    exact ⟨sel, cmd, acks.take n, acks.drop n, by simp, by simp [hlong], by simp [hlong]⟩
  | [_], hlen => simp at hlen; omega
  | [], hlen => simp at hlen; omega

/-- The state a page program or a block erase completes from `s`: the events of its closing command and of a status poll
whose first byte is `b`, and RESULT by the FAIL bit of `b` (R114, R119, R222). -/
def closedBy (c b : Byte) (rest : List Input) (s : State) : State :=
  { s with
    phase := .idle, pos := .start, polls := 0, resultStatus := some b
    result := resultWord (if statusFail s.cfg b then errCode .ioError else errCode .ok) b 0
    inputs := rest, draws := s.draws + 3
    trace := s.trace ++ [.cmd c true, .cmd s.cfg.bus.cmdStatus true, .read1 (some b)] }

/-- Steps that are all done, then a command answered ok and a status poll whose first byte is ready. -/
theorem RunsTo.closed {s s' : State} {ms : List Micro} {p q a : Answer} {b : Byte} {rest : List Input}
    (h : RunsTo .other ms s s') (c : Byte) (hin : s'.inputs = .answer p :: .answer q :: .answer a :: rest)
    (hrest : hostFirst rest = false) (hp : p.ok = true) (hq : q.ok = true) (ha : a.ok = true)
    (hb : a.bytes.head? = some b) (hready : statusReady s'.cfg b = true) :
    runSteps .other (ms ++ [.cmd c] ++ statusPoll s'.cfg true) s = closedBy c b rest s' := by
  have confirmed := h.append ((runsTo_cmd c hin hp).append (runsTo_zeroPolls (hostDue_listed rfl)))
  have asked := confirmed.append (runsTo_cmd s'.cfg.bus.cmdStatus rfl hq)
  have hrun := (asked [.statusRead true]).trans (runSteps_statusCheck rfl hrest ha hb hready)
  simpa [statusPoll, received, completion, closedBy, apply_ite errCode] using hrun

/-! ### BLOCK_ERASE (R199, R200) -/

theorem eraseRow_blockIndex {c : Config} (h : c.eraseRow = .blockIndex) (g : Geometry) (block : Word32) :
    eraseRow c g block = block := by
  simp [eraseRow, h]

/-- The row of the block's first page, modulo 2^32 (R200). -/
theorem eraseRow_pageOfBlock {c : Config} (h : c.eraseRow = .pageOfBlock) (g : Geometry) (block : Word32) :
    (eraseRow c g block).toNat = block.toNat * g.pagesPerBlock % 2 ^ 32 := by
  simp [eraseRow, h, BitVec.toNat_mul]

/-- A block erase of an identified chip begins by running its steps (R199). -/
theorem exec_blockErase_start {s : State} {d : Device} (hpos : s.pos = .start) (hdev : s.dev = some d) (block : Word32) :
    exec (.blockErase block) s = .next (runSteps .other (blockEraseSteps s.cfg block d.geom) s) := by
  simp [exec, execBlockErase, runOperation_start hpos, startIdentified, hdev]

end Sys2Proof.Machine

namespace Sys2Proof

open Sys2Proof.Machine

/-- Settles O35: the opening with the row cycles of the erase row, then the closing with its status check. -/
theorem blockEraseCompletes : Obligations.BlockEraseCompletes := by
  unfold Obligations.BlockEraseCompletes
  refine ⟨fun c g block => ⟨fun h => eraseRow_blockIndex h g block, fun h => eraseRow_pageOfBlock h g block⟩, ?_⟩
  intro s block d acks a b rest hissued hdev ⟨hin, hrest⟩ hok hlen ha hb hbyte
  obtain ⟨sel, cmd, cycles, later, rfl, hcycles, hlater⟩ :=
    commandAcks_split (n := d.geom.rowCycles) (m := 2) (hlen.trans (by omega))
  obtain ⟨confirm, status, rfl⟩ := List.length_eq_two.1 hlater
  have opened := runsTo_commandOpening (k := .other)
    (rest := .answer confirm :: .answer status :: .answer a :: rest) s.cfg.bus.cmdErase d.geom
    (eraseRow s.cfg d.geom block) false sel cmd cycles (by simpa using hin) (by simp [addressBytes_length, hcycles])
    (hok sel (by simp)) (hok cmd (by simp)) (fun x hx => hok x (by simp [hx]))
  have closed := opened.closed s.cfg.bus.cmdEraseConfirm rfl hrest (hok confirm (by simp)) (hok status (by simp)) ha hb
    hbyte
  have hdraws : s.draws + (5 + d.geom.rowCycles) = s.draws + 2 + cycles.length + 3 := by omega
  rw [exec_blockErase_start hissued.pos hdev, blockEraseSteps, closed, hdraws]
  simp [closedBy, hissued.pos]

end Sys2Proof

/-! ### PAGE_PROGRAM (R196) -/

namespace Sys2Proof.Machine

/-- The bytes of stride `i` of the page buffer at `buf`, its strides `len` long (R162). -/
def strideBytes (m : Memory) (buf : Word64) (len i : Nat) : List Byte := memReadBytes m (buf.toNat + i * len) len

/-- A stride of a page buffer that is admitted and not raced on is sent, and passes the ECC Backend (R163, R165). -/
theorem runsTo_strideWrite {k : OpKind} {s : State} {d : Device} {a : Answer} {rest : List Input} {buf : Word64} (i : Nat)
    (hready : TransferReady s d buf) (h : s.inputs = .answer a :: rest) (hok : a.ok = true) :
    RunsTo k [.strideWrite buf i] s
      { received (.write (strideBytes s.mem buf (strideLen s.cfg d.geom) i) true) rest s with
        eccAcc := if s.cfg.ecc.isSome then s.eccAcc ++ strideBytes s.mem buf (strideLen s.cfg d.geom) i else s.eccAcc } :=
  .step (hostDue_listed h) (by simp [blocked, hready.pageAdmitted]) (by
    simp only [perform, doStrideWrite, busAnswer_listed h, hok, bufRead_unraced hready.raced, hready.geometry,
      hready.strideAddr, logged_drawn h, if_true, strideBytes]
    cases hecc : s.cfg.ecc <;> simp [accumulate, received, hecc])

theorem runsTo_buildSpare {k : OpKind} {s : State} (hh : hostDue s = false) :
    RunsTo k [.buildSpare] s (onDevice (fun d => { d with oob := spareImage s.cfg d.geom d.calcEcc }) s) :=
  .step hh rfl rfl

/-- The spare image is built from the computed codes and sent (R168). -/
theorem runsTo_spareImage {k : OpKind} {s : State} {d : Device} {a : Answer} {rest : List Input} (hdev : s.dev = some d)
    (h : s.inputs = .answer a :: rest) (hok : a.ok = true) :
    RunsTo k [.buildSpare, .spareWrite] s
      { received (.write (spareImage s.cfg d.geom d.calcEcc) true) rest s with
        dev := some { d with oob := spareImage s.cfg d.geom d.calcEcc } } := by
  have built := runsTo_buildSpare (k := k) (hostDue_listed h)
  have sent := built.append (runsTo_spareWrite h hok)
  simpa [onDevice, hdev, received, oobBytes] using sent

/-! ### A page program without ECC (R165) -/

theorem transferWrite_noEcc {c : Config} (h : c.ecc = none) (g : Geometry) (buf : Word64) :
    transferWrite c g buf = [.strideWrite buf 0] ++ [.buildSpare, .spareWrite] := by
  simp [transferWrite, strideCount_noEcc h, strideWriteSteps, h]

/-- Without ECC the transfer sends the whole page, then a blank spare area. -/
theorem runsTo_transferWrite_noEcc {k : OpKind} {s : State} {d : Device} {p q : Answer} {rest : List Input} {buf : Word64}
    (hecc : s.cfg.ecc = none) (hready : TransferReady s d buf) (h : s.inputs = .answer p :: .answer q :: rest)
    (hp : p.ok = true) (hq : q.ok = true) :
    RunsTo k (transferWrite s.cfg d.geom buf) s
      { s with
        dev := some { d with oob := List.replicate d.geom.spareSize blankByte }
        inputs := rest, draws := s.draws + 2
        trace := s.trace ++ [.write (memReadBytes s.mem buf.toNat d.geom.pageSize) true,
          .write (List.replicate d.geom.spareSize blankByte) true] } := by
  have written := runsTo_strideWrite (k := k) 0 hready h hp
  have sent := written.append (runsTo_spareImage hready.dev rfl hq)
  rw [transferWrite_noEcc hecc]
  simpa [received, spareImage_noEcc hecc, strideLen_noEcc hecc, strideBytes, hecc] using sent

end Sys2Proof.Machine

namespace Sys2Proof

open Sys2Proof.Machine

/-- Settles O36: the opening, the page and a blank spare area, then the closing with its status check. -/
theorem pageProgramCompletesWithoutEcc : Obligations.PageProgramCompletesWithoutEcc := by
  unfold Obligations.PageProgramCompletesWithoutEcc
  intro s page buf d acks a b rest hissued hdev hecc hadm ⟨hin, hrest⟩ hok hlen ha hb hbyte
  obtain ⟨sel, cmd, cycles, later, rfl, hcycles, hlater⟩ :=
    commandAcks_split (n := d.geom.colCycles + d.geom.rowCycles) (m := 4) (hlen.trans (by omega))
  obtain ⟨data, spare, confirm, status, rfl⟩ := List.length_eq_four.1 hlater
  have hready := hissued.transferReady hdev hadm
  have opened := runsTo_commandOpening (k := .other)
    (rest := .answer data :: .answer spare :: .answer confirm :: .answer status :: .answer a :: rest)
    s.cfg.bus.cmdProgram d.geom page true sel cmd cycles (by simpa using hin) (by simp [addressBytes_length, hcycles])
    (hok sel (by simp)) (hok cmd (by simp)) (fun x hx => hok x (by simp [hx]))
  have sent := opened.append (runsTo_transferWrite_noEcc (buf := buf) hecc
    ⟨hready.dev, hready.admitted, hready.raced⟩ rfl (hok data (by simp)) (hok spare (by simp)))
  have closed := sent.closed s.cfg.bus.cmdProgramEnd rfl hrest (hok confirm (by simp)) (hok status (by simp)) ha hb
    hbyte
  have hdraws : s.draws + (7 + d.geom.colCycles + d.geom.rowCycles) = s.draws + 2 + cycles.length + 2 + 3 := by omega
  rw [exec_pageProgram_start hissued.pos hdev, pageProgramSteps, closed, hdraws]
  simp [closedBy, hissued.pos, blankByte]

end Sys2Proof

/-! ### A page program under ECC (R163, R164, R168) -/

namespace Sys2Proof.Machine

theorem strideWriteSteps_ecc {c : Config} {x : EccDesc} (h : c.ecc = some x) (buf : Word64) (i : Nat) :
    strideWriteSteps c buf i = [.eccStart, .strideWrite buf i, .eccCompute i] := by
  simp [strideWriteSteps, h]

/-- The answers of one stride of a write under ECC: its start, its data, its code. -/
def programAnswers (code : List Byte) : List Answer := [goodAnswer [], goodAnswer [], goodAnswer code]

theorem programAnswers_eq : programAnswers = fun code => [goodAnswer [], goodAnswer [], goodAnswer code] := rfl

/-- The events of one stride of a write under ECC, given with its code and its index (R17). -/
def programEvents (m : Memory) (buf : Word64) (len : Nat) (y : List Byte × Nat) : List Event :=
  [.eccstart true, .write (strideBytes m buf len y.2) true, .ecccompute (some y.1)]

/-- One stride of a write under ECC: its bytes are sent and its code lands in the computed-ECC buffer (R163, R164). -/
theorem runsTo_programStride {k : OpKind} {s : State} {d : Device} {rest : List Input} {buf : Word64} {x : EccDesc}
    (i : Nat) (code : List Byte) (hecc : s.cfg.ecc = some x) (hready : TransferReady s d buf)
    (hcode : code.length = eccStride s.cfg) (h : s.inputs = (programAnswers code).map Input.answer ++ rest) :
    RunsTo k (strideWriteSteps s.cfg buf i) s
      { s with
        eccAcc := strideBytes s.mem buf (strideLen s.cfg d.geom) i
        dev := some { d with calcEcc := putSlice d.calcEcc (i * eccStride s.cfg) code }
        inputs := rest, draws := s.draws + 3
        trace := s.trace ++ programEvents s.mem buf (strideLen s.cfg d.geom) (code, i) } := by
  have started := runsTo_eccStart (k := k) h rfl
  have written := started.append
    (runsTo_strideWrite i ⟨hready.dev, hready.admitted, hready.raced⟩ rfl rfl)
  have computed := written.append (runsTo_eccCompute i rfl rfl hcode)
  simpa [strideWriteSteps_ecc hecc, received, onDevice, goodAnswer, programEvents, hecc, hready.dev] using computed

/-- The strides of a write under ECC from stride `i` on, each answered well: their bytes are sent in order, and their codes
lie one after the other in the computed-ECC buffer (R163, R164). -/
theorem runsTo_programStrides {k : OpKind} {rest : List Input} {buf : Word64} {x : EccDesc} (codes : List (List Byte))
    {s : State} {d : Device} (i : Nat) (hecc : s.cfg.ecc = some x) (hready : TransferReady s d buf)
    (hfit : ∀ c ∈ codes, c.length = eccStride s.cfg)
    (h : s.inputs = (codes.flatMap programAnswers).map Input.answer ++ rest) :
    RunsTo k ((List.range' i codes.length).flatMap (strideWriteSteps s.cfg buf)) s
      { s with
        eccAcc := (codes.zipIdx i).foldl (fun _ y => strideBytes s.mem buf (strideLen s.cfg d.geom) y.2) s.eccAcc
        dev := some { d with calcEcc := putSlice d.calcEcc (i * eccStride s.cfg) codes.flatten }
        inputs := rest, draws := s.draws + 3 * codes.length
        trace := s.trace ++ (codes.zipIdx i).flatMap (programEvents s.mem buf (strideLen s.cfg d.geom)) } := by
  induction codes generalizing s d i with
  | nil =>
    obtain rfl : s.inputs = rest := by simpa using h
    simpa [putSlice, ← hready.dev] using RunsTo.nil k s
  | cons c codes ih =>
    obtain ⟨hcode, hcodes⟩ := List.forall_mem_cons.1 hfit
    have first := runsTo_programStride (k := k) i c hecc hready hcode (by simpa using h)
    have others := first.append (ih (i + 1) hecc ⟨rfl, hready.admitted, hready.raced⟩ hcodes rfl)
    have hdraws : s.draws + 3 * (c :: codes).length = s.draws + 3 + 3 * codes.length := by
      rw [List.length_cons]; omega
    rw [List.flatten_cons, putSlice_block hcode, hdraws]
    simpa [List.range'_succ] using others

/-- Under ECC the transfer sends the strides, each with its code computed, then the spare image with the codes (R161). -/
theorem runsTo_transferWrite_ecc {k : OpKind} {s : State} {d : Device} {a : Answer} {rest : List Input} {buf : Word64}
    {x : EccDesc} (codes : List (List Byte)) (hecc : s.cfg.ecc = some x) (hready : TransferReady s d buf)
    (hcount : codes.length = strideCount s.cfg d.geom) (hfit : ∀ c ∈ codes, c.length = eccStride s.cfg)
    (h : s.inputs = (codes.flatMap programAnswers).map Input.answer ++ .answer a :: rest) (hok : a.ok = true) :
    RunsTo k (transferWrite s.cfg d.geom buf) s
      { s with
        eccAcc := codes.zipIdx.foldl (fun _ y => strideBytes s.mem buf (strideLen s.cfg d.geom) y.2) s.eccAcc
        dev := some { d with
          calcEcc := putSlice d.calcEcc 0 codes.flatten
          oob := spareImage s.cfg d.geom (putSlice d.calcEcc 0 codes.flatten) }
        inputs := rest, draws := s.draws + (3 * codes.length + 1)
        trace := s.trace ++ codes.zipIdx.flatMap (programEvents s.mem buf (strideLen s.cfg d.geom)) ++
          [.write (spareImage s.cfg d.geom (putSlice d.calcEcc 0 codes.flatten)) true] } := by
  have written := runsTo_programStrides (k := k) codes 0 hecc hready hfit h
  have sent := written.append (runsTo_spareImage rfl rfl hok)
  simpa [transferWrite, ← hcount, List.range_eq_range', received, Nat.add_assoc] using sent

end Sys2Proof.Machine

namespace Sys2Proof

open Sys2Proof.Machine

/-- Settles O37: the opening, the strides and the spare image with the codes, then the closing with its status check. -/
theorem pageProgramCompletesWithEcc : Obligations.PageProgramCompletesWithEcc := by
  unfold Obligations.PageProgramCompletesWithEcc
  intro s page buf d x codes b rest hissued hdev hecc hadm hcount hfit hbyte ⟨hin, hrest⟩
  have hsize : eccStride s.cfg = x.stride := by simp [eccStride, hecc]
  have hready := hissued.transferReady hdev hadm
  have opened := runsTo_commandOpening (k := .other) (rest := (codes.flatMap programAnswers).map Input.answer ++
      .answer (goodAnswer []) :: .answer (goodAnswer []) :: .answer (goodAnswer []) :: .answer (goodAnswer [b]) :: rest)
    s.cfg.bus.cmdProgram d.geom page true (goodAnswer []) (goodAnswer [])
    (List.replicate (d.geom.colCycles + d.geom.rowCycles) (goodAnswer []))
    (by rw [hin, Nat.add_assoc, List.replicate_add]; simp [programAnswers_eq])
    (by simp [addressBytes_length]) rfl rfl (fun a ha => by rw [List.eq_of_mem_replicate ha]; rfl)
  have sent := opened.append (runsTo_transferWrite_ecc (buf := buf) codes hecc
    ⟨hready.dev, hready.admitted, hready.raced⟩ hcount (by simpa [hsize] using hfit) rfl rfl)
  have closed := sent.closed s.cfg.bus.cmdProgramEnd rfl hrest rfl rfl rfl rfl hbyte
  rw [exec_pageProgram_start hissued.pos hdev, pageProgramSteps, closed]
  refine ⟨_, rfl, rfl, rfl, rfl, rfl, rfl, rfl, rfl, ?_⟩
  simp only [closedBy, List.append_assoc]
  rfl

end Sys2Proof

/-! ### A page read without ECC (R165, R193) -/

namespace Sys2Proof.Machine

theorem transferRead_noEcc {c : Config} (h : c.ecc = none) (g : Geometry) (buf : Word64) :
    transferRead c g buf = [.strideRead buf 0] ++ [.spareRead] := by
  simp [transferRead, strideCount_noEcc h, strideReadSteps, correctionSteps, h]

/-- Without ECC the transfer lands the whole page in the page buffer and the spare area in the OOB buffer. -/
theorem runsTo_transferRead_noEcc {k : OpKind} {s : State} {d : Device} {data spare : Answer} {rest : List Input}
    {buf : Word64} (hecc : s.cfg.ecc = none) (hready : TransferReady s d buf)
    (h : s.inputs = .answer data :: .answer spare :: rest) (hdata : data.ok = true)
    (hsize : data.bytes.length = d.geom.pageSize) (hspare : spare.ok = true)
    (hspareSize : spare.bytes.length = d.geom.spareSize) :
    RunsTo k (transferRead s.cfg d.geom buf) s
      { s with
        mem := memWriteBytes s.mem buf.toNat data.bytes
        dev := some { d with oob := spare.bytes }
        inputs := rest, draws := s.draws + 3
        trace := s.trace ++ [.read d.geom.pageSize (some data.bytes), .read d.geom.spareSize (some spare.bytes)] } := by
  have landed := runsTo_strideRead (k := k) 0 h hdata (by rw [hready.geometry, strideLen_noEcc hecc, hsize])
    hready.pageAdmitted hready.raced
  have spared := landed.append (runsTo_spareRead rfl hspare (by rw [hspareSize, ← hready.geometry]; rfl))
  rw [transferRead_noEcc hecc]
  simpa [received, onDevice, hready.strideAddr, hready.geometry, strideLen_noEcc hecc, hecc, geometry, hready.dev]
    using spared

/-- Steps that are all done and record no status byte complete the operation with RESULT 0 (R31, R223). -/
theorem RunsTo.completeOk {k : OpKind} {ms : List Micro} {s s' : State} (h : RunsTo k ms s s') (hh : hostDue s' = false)
    (hstatus : s'.resultStatus = none) :
    runSteps k ms s = { s' with phase := .idle, pos := .start, result := 0 } := by
  rw [h.complete hh, ← completion_ok_result hstatus]
  rfl

end Sys2Proof.Machine

namespace Sys2Proof

open Sys2Proof.Machine

/-- Settles O38: the opening up to the ready line, the page and the spare bytes, then the completion step. -/
theorem pageReadCompletesWithoutEcc : Obligations.PageReadCompletesWithoutEcc := by
  unfold Obligations.PageReadCompletesWithoutEcc
  intro s page buf d acks w data spare rest hissued hdev hecc hadm ⟨hin, hrest⟩ hok hlen hw hdata hsize hspare
    hspareSize
  have hready := hissued.transferReady hdev hadm
  have opened := runsTo_pageReadOpening (k := .other) (rest := .answer data :: .answer spare :: rest) page d.geom acks w
    (by simpa using hin) hlen hok hw
  have read := opened.append (runsTo_transferRead_noEcc (buf := buf) hecc
    ⟨hready.dev, hready.admitted, hready.raced⟩ rfl hdata hsize hspare hspareSize)
  have hdraws : s.draws + (6 + d.geom.colCycles + d.geom.rowCycles + if d.geom.readStart then 1 else 0) =
      s.draws + (acks.length + 1) + 3 := by omega
  rw [exec_pageRead_start hissued.pos hdev, pageReadSteps_eq, read.completeOk hrest hissued.resultStatus, hdraws]
  simp [hissued.pos, pageReadOpeningEvents]

end Sys2Proof

/-! ### What an operation other than IDENTIFY keeps (R21, R222) -/

namespace Sys2Proof.Machine

/-- What a property must survive to be kept by an operation whose errors roll nothing back: a move of the position, and
the completion step. -/
structure CompletionFree (P : State → Prop) : Prop where
  pos : ∀ s p, P s → P { s with pos := p }
  completion : ∀ s e info, P s → P (completion e info s)

section
variable {P : State → Prop} (h : CompletionFree P)
include h

theorem CompletionFree.completeOk {s : State} (hs : P s) : P (completeOk s) := by
  simp only [Machine.completeOk]
  split
  · exact h.pos _ _ hs
  · exact h.completion _ _ _ hs

theorem CompletionFree.raiseErr {s : State} (e : Err) (info : BitVec 16) (hs : P s) : P (raiseErr .other e info s) := by
  cases hh : hostDue s with
  | true => simpa only [Machine.raiseErr, hh, if_true] using h.pos _ _ hs
  | false => rw [raiseErr_other _ _ hh]; exact h.completion _ _ _ hs

/-- A property that the completion and every step of a kind `M` keep is kept by a run of steps of that kind. -/
theorem CompletionFree.runRule {M : Micro → Prop} (hstep : ∀ m, M m → ∀ s, P s → P (flowState (perform .other m s))) :
    RunRule .other (fun ms s => (∀ m ∈ ms, M m) ∧ P s) P where
  complete _ hs := h.completeOk hs.2
  pause _ _ _ hs := h.pos _ _ hs.2
  done m ms s s' hs hp := by
    obtain ⟨hm, hms⟩ := List.forall_mem_cons.1 hs.1
    have hkeep := hstep m hm s hs.2
    rw [hp] at hkeep
    exact ⟨hms, hkeep⟩
  again m ms s loop s' hs hp := by
    have hkeep := hstep m (hs.1 m List.mem_cons_self) s hs.2
    rw [hp] at hkeep
    exact h.pos _ _ hkeep
  raised m ms s e info s' hs hp := by
    have hkeep := hstep m (hs.1 m List.mem_cons_self) s hs.2
    rw [hp] at hkeep
    exact h.raiseErr _ _ hkeep

end

/-- What an operation of kind `other` does from inside its sequence, where its start raises an error or begins the sequence:
it raises an error, or runs steps of its own. -/
theorem runOperation_other_cases {i : Instr} {start : State → State} {s t : State} (hat : AtOwnSteps i s)
    (h : runOperation .other start s = .next t)
    (hstart : (∃ e info, start s = raiseErr .other e info s) ∨
      ∃ ms, stepsOf i s = some ms ∧ start s = runSteps .other ms s) :
    (∃ e info, t = raiseErr .other e info s) ∨ ∃ ms, (∀ m ∈ ms, m ∈ ownSteps i s) ∧ t = runSteps .other ms s := by
  rcases runOperation_cases h with ⟨-, rfl⟩ | ⟨ms, hms, rfl⟩ | ⟨e, info, -, rfl⟩
  · exact hstart.imp_right fun ⟨ms, hms, hrun⟩ => ⟨ms, stepsOf_subset_ownSteps hms, hrun⟩
  · exact .inr ⟨ms, hat ms hms, rfl⟩
  · exact .inl ⟨e, info, rfl⟩

/-- A page or block operation raises NotSupported at its start, or begins its sequence (R192). -/
theorem startIdentified_cases {i : Instr} {steps : Geometry → List Micro} {s : State}
    (hsteps : stepsOf i s = s.dev.map fun d => steps d.geom) :
    (∃ e info, startIdentified steps s = raiseErr .other e info s) ∨
    ∃ ms, stepsOf i s = some ms ∧ startIdentified steps s = runSteps .other ms s := by
  cases hdev : s.dev with
  | none => exact .inl ⟨.notSupported, 0, by simp [startIdentified, hdev]⟩
  | some d => exact .inr ⟨steps d.geom, by simp [hsteps, hdev], by simp [startIdentified, hdev]⟩

theorem exec_other_cases {i : Instr} {s t : State} (hid : i ≠ .identify) (hat : AtOwnSteps i s)
    (h : exec i s = .next t) :
    (∃ e info, t = raiseErr .other e info s) ∨ ∃ ms, (∀ m ∈ ms, m ∈ ownSteps i s) ∧ t = runSteps .other ms s := by
  cases i with
  | identify => exact absurd rfl hid
  | select en => exact runOperation_other_cases hat h (.inr ⟨_, rfl, rfl⟩)
  | detach => exact runOperation_other_cases hat h (.inr ⟨_, rfl, rfl⟩)
  | pageRead page buf => exact runOperation_other_cases hat h (startIdentified_cases rfl)
  | pageProgram page buf => exact runOperation_other_cases hat h (startIdentified_cases rfl)
  | blockErase block => exact runOperation_other_cases hat h (startIdentified_cases rfl)

/-- A property that the completion and the operation's own steps keep is kept by an operation other than IDENTIFY. -/
theorem exec_other_keeps {P : State → Prop} {i : Instr} {s t : State} (h : CompletionFree P) (hid : i ≠ .identify)
    (hstep : ∀ m ∈ ownSteps i s, ∀ x, P x → P (flowState (perform .other m x))) (hat : AtOwnSteps i s)
    (he : exec i s = .next t) (hs : P s) : P t := by
  rcases exec_other_cases hid hat he with ⟨e, info, rfl⟩ | ⟨ms, hms, rfl⟩
  · exact h.raiseErr _ _ hs
  · exact (h.runRule hstep).run ms ⟨hms, hs⟩

/-- An operation other than IDENTIFY keeps the value of a field that neither the completion nor its own steps write. -/
theorem exec_other_field {α : Type} (f : State → α) {i : Instr} {s t : State} (hid : i ≠ .identify)
    (hstep : ∀ m ∈ ownSteps i s, ∀ x, f (flowState (perform .other m x)) = f x) (hat : AtOwnSteps i s)
    (he : exec i s = .next t) (hpos : ∀ x p, f { x with pos := p } = f x := by exact fun _ _ => rfl)
    (hdone : ∀ x e info, f (completion e info x) = f x := by exact fun _ _ _ => rfl) : f t = f s :=
  exec_other_keeps (P := fun x => f x = f s)
    ⟨fun x p hx => (hpos x p).trans hx, fun x e info hx => (hdone x e info).trans hx⟩ hid
    (fun m hm x hx => (hstep m hm x).trans hx) hat he rfl

/-! ### The steps that write the device's buffers and the ids (R24, R25, R140) -/

/-- The steps that write the ids read from the chip or the ID register (R140, R143, R147). -/
def writesIds : Micro → Bool
  | .readMaker | .readDevice | .loadGeometry | .release => true
  | .select _ | .cmd _ | .addr _ | .zeroPolls | .waitRnb | .statusRead _ | .delay | .eccStart | .strideRead _ _
  | .strideWrite _ _ | .eccCompute _ | .spareRead | .extractEcc | .buildSpare | .spareWrite | .eccCorrect _ _ => false

/-- The steps that write a scratch buffer (R164, R166, R167, R168), and those that load and release the device. -/
def writesDevice : Micro → Bool
  | .eccCompute _ | .spareRead | .extractEcc | .buildSpare | .loadGeometry | .release => true
  | .select _ | .cmd _ | .addr _ | .zeroPolls | .waitRnb | .statusRead _ | .delay | .readMaker | .readDevice | .eccStart
  | .strideRead _ _ | .strideWrite _ _ | .spareWrite | .eccCorrect _ _ => false

/-- The ids change only where `writesIds` says so, the device only where `writesDevice` does, and its read-ECC buffer only
by the extraction (R167) and with the whole device. -/
structure DeviceWrites (m : Micro) (s t : State) : Prop where
  idMaker : writesIds m = false → t.idMaker = s.idMaker
  idDevice : writesIds m = false → t.idDevice = s.idDevice
  dev : writesDevice m = false → t.dev = s.dev
  readEcc : writesIds m = false → m ≠ .extractEcc → t.dev.map (·.readEcc) = s.dev.map (·.readEcc)

theorem DeviceWrites.of_eq {m : Micro} {s t : State} (hmaker : t.idMaker = s.idMaker) (hdevice : t.idDevice = s.idDevice)
    (hdev : t.dev = s.dev) : DeviceWrites m s t :=
  ⟨fun _ => hmaker, fun _ => hdevice, fun _ => hdev, fun _ _ => by rw [hdev]⟩

theorem perform_deviceWrites (k : OpKind) (m : Micro) (s : State) : DeviceWrites m s (flowState (perform k m s)) := by
  cases m <;> simp only [perform]
  case select => rw [doSelect_state]; exact .of_eq rfl rfl rfl
  case cmd => rw [doCmd, busAck_state]; exact .of_eq rfl rfl rfl
  case addr => rw [doAddr, busAck_state]; exact .of_eq rfl rfl rfl
  case spareWrite => rw [doSpareWrite, busAck_state]; exact .of_eq rfl rfl rfl
  case waitRnb => rw [doWaitRnb_state]; exact .of_eq rfl rfl rfl
  case statusRead =>
    simp only [doStatusRead, statusCheck]
    split
    · exact .of_eq rfl rfl rfl
    split
    · split
      · split <;> exact .of_eq rfl rfl rfl
      · exact .of_eq rfl rfl rfl
    · rw [notReady_state]; exact .of_eq rfl rfl rfl
  case strideRead | strideWrite =>
    simp only [doStrideRead, doStrideWrite]
    split <;> exact .of_eq (by simp) (by simp) (by simp)
  case eccStart | eccCorrect =>
    simp only [doEccStart, doEccCorrect]
    split <;> exact .of_eq rfl rfl rfl
  case eccCompute | spareRead =>
    simp only [doEccCompute, doSpareRead]
    split
    · exact ⟨fun _ => rfl, fun _ => rfl, nofun, fun _ _ => by simp [Function.comp_def]⟩
    · exact .of_eq rfl rfl rfl
  case buildSpare => exact ⟨fun _ => rfl, fun _ => rfl, nofun, fun _ _ => by simp [doBuildSpare, Function.comp_def]⟩
  case extractEcc => exact ⟨fun _ => rfl, fun _ => rfl, nofun, fun _ h => absurd rfl h⟩
  case readMaker | readDevice =>
    refine ⟨nofun, nofun, fun _ => ?_, nofun⟩
    simp only [doReadMaker, doReadDevice]
    split <;> rfl
  case loadGeometry | release => exact ⟨nofun, nofun, nofun, nofun⟩
  case zeroPolls | delay => exact .of_eq rfl rfl rfl

/-- Only the steps that load or release the device write the ID register (R143, R147). -/
theorem perform_idReg {k : OpKind} {m : Micro} {s : State} (h : writesIds m = false) :
    (flowState (perform k m s)).idReg = s.idReg := by
  rcases perform_dev k m s with ⟨-, hid⟩ | ⟨rfl, -⟩ | ⟨rfl, -⟩ | ⟨hid, -⟩
  · exact hid
  · cases h
  · cases h
  · exact hid

theorem perform_registersKept {k : OpKind} {m : Micro} {s x : State} (hm : writesIds m = false) (h : RegistersKept s x) :
    RegistersKept s (flowState (perform k m x)) := by
  have hctl := perform_control k m x
  have hdev := perform_deviceWrites k m x
  exact ⟨hctl.cfg.trans h.cfg, hctl.cur.trans h.cur, hctl.desc0.trans h.desc0, hctl.desc1.trans h.desc1,
    (perform_idReg hm).trans h.idReg, hctl.cellWidth.trans h.cellWidth, (hdev.idMaker hm).trans h.idMaker,
    (hdev.idDevice hm).trans h.idDevice, hctl.raced.trans h.raced, hctl.hostSeen.trans h.hostSeen⟩

theorem completionFree_registersKept (s : State) : CompletionFree (RegistersKept s) where
  pos _ _ h := ⟨h.cfg, h.cur, h.desc0, h.desc1, h.idReg, h.cellWidth, h.idMaker, h.idDevice, h.raced, h.hostSeen⟩
  completion _ _ _ h :=
    ⟨h.cfg, h.cur, h.desc0, h.desc1, h.idReg, h.cellWidth, h.idMaker, h.idDevice, h.raced, h.hostSeen⟩

theorem forall_mem_ownSteps {i : Instr} {s : State} {M : Micro → Prop} :
    (∀ m ∈ ownSteps i s, M m) ↔ (∀ ms, stepsOf i s = some ms → ∀ m ∈ ms, M m) ∧ M .delay := by
  cases h : stepsOf i s <;> simp [ownSteps, h, or_imp, forall_and]

theorem not_writesIds_of_isPageStep {m : Micro} (h : isPageStep m = true) : writesIds m = false := by
  cases m with
  | readMaker | readDevice | loadGeometry | release => cases h
  | _ => rfl

/-- No step of SELECT or of a page or block operation writes the ids. -/
theorem ownSteps_not_writesIds {i : Instr} {s : State} (hid : i ≠ .identify) (hdet : i ≠ .detach) :
    ∀ m ∈ ownSteps i s, writesIds m = false := by
  refine forall_mem_ownSteps.2 ⟨fun ms hms => ?_, rfl⟩
  obtain ⟨body, hbody, rfl | rfl⟩ := stepsOf_eq_body hms hid hdet
  · exact fun m hm => not_writesIds_of_isPageStep (hbody m hm)
  · rw [List.forall_mem_append]
    exact ⟨fun m hm => not_writesIds_of_isPageStep (hbody m hm), by simp [statusPoll, writesIds]⟩

/-- SELECT and the page and block operations change no register but RESULT (R191, R193, R196, R199). -/
theorem exec_registersKept {i : Instr} {s t : State} (hid : i ≠ .identify) (hdet : i ≠ .detach) (hat : AtOwnSteps i s)
    (h : exec i s = .next t) : RegistersKept s t :=
  exec_other_keeps (completionFree_registersKept s) hid
    (fun m hm _ hx => perform_registersKept (ownSteps_not_writesIds hid hdet m hm) hx) hat h
    ⟨rfl, rfl, rfl, rfl, rfl, rfl, rfl, rfl, rfl, rfl⟩

/-! ### What each operation leaves besides (R191, R193, R196, R199) -/

theorem ownSteps_select {en : Bool} {s : State} : ∀ m ∈ ownSteps (.select en) s, m = .select en ∨ m = .delay := by
  simp [ownSteps, stepsOf]

/-- A select or a delay changes neither the device nor the poll counter, the status byte or the accumulator. -/
theorem exec_select_kept {en : Bool} {s t : State} (hat : AtOwnSteps (.select en) s)
    (h : exec (.select en) s = .next t) :
    (t.dev, t.polls, t.resultStatus, t.eccAcc) = (s.dev, s.polls, s.resultStatus, s.eccAcc) := by
  refine exec_other_field (fun x => (x.dev, x.polls, x.resultStatus, x.eccAcc)) (by nofun) (fun m hm x => ?_) hat h
  rcases ownSteps_select m hm with rfl | rfl
  · rw [perform, doSelect_state]
    rfl
  · rfl

theorem ownSteps_blockErase {block : Word32} {s : State} :
    ∀ m ∈ ownSteps (.blockErase block) s, writesDevice m = false ∧ feedsEcc m = false := by
  refine forall_mem_ownSteps.2 ⟨fun ms hms => ?_, rfl, rfl⟩
  obtain ⟨d, -, rfl⟩ := Option.map_eq_some_iff.1 hms
  simp only [blockEraseSteps, addressPhase, List.forall_mem_append]
  exact ⟨⟨⟨by simp [writesDevice, feedsEcc], by simp [writesDevice, feedsEcc]⟩, by simp [writesDevice, feedsEcc]⟩,
    by simp [statusPoll, writesDevice, feedsEcc]⟩

theorem exec_blockErase_dev {block : Word32} {s t : State} (hat : AtOwnSteps (.blockErase block) s)
    (h : exec (.blockErase block) s = .next t) : t.dev = s.dev :=
  exec_other_field (·.dev) (by nofun)
    (fun m hm x => (perform_deviceWrites .other m x).dev (ownSteps_blockErase m hm).1) hat h

theorem exec_blockErase_eccAcc {block : Word32} {s t : State} (hat : AtOwnSteps (.blockErase block) s)
    (h : exec (.blockErase block) s = .next t) : t.eccAcc = s.eccAcc :=
  exec_other_field (·.eccAcc) (by nofun)
    (fun m hm x => (perform_ownWrites .other m x).eccAcc (ownSteps_blockErase m hm).2) hat h

theorem strideWriteSteps_ne_extractEcc (c : Config) (buf : Word64) (k : Nat) :
    ∀ m ∈ strideWriteSteps c buf k, m ≠ .extractEcc := by
  simp only [strideWriteSteps]
  split <;> simp

/-- A page program extracts no read codes (R196). -/
theorem ownSteps_pageProgram {page : Word32} {buf : Word64} {s : State} :
    ∀ m ∈ ownSteps (.pageProgram page buf) s, m ≠ .extractEcc := by
  refine forall_mem_ownSteps.2 ⟨fun ms hms => ?_, nofun⟩
  obtain ⟨d, -, rfl⟩ := Option.map_eq_some_iff.1 hms
  simp only [pageProgramSteps, transferWrite, addressPhase, List.forall_mem_append, List.forall_mem_flatMap]
  exact ⟨⟨⟨⟨by simp, by simp⟩, fun k _ => strideWriteSteps_ne_extractEcc _ _ _, by simp⟩, by simp⟩,
    by simp [statusPoll]⟩

theorem exec_pageProgram_readEcc {page : Word32} {buf : Word64} {s t : State} (hat : AtOwnSteps (.pageProgram page buf) s)
    (h : exec (.pageProgram page buf) s = .next t) : t.dev.map (·.readEcc) = s.dev.map (·.readEcc) :=
  exec_other_field (fun x => x.dev.map (·.readEcc)) (by nofun)
    (fun m hm x => (perform_deviceWrites .other m x).readEcc (ownSteps_not_writesIds (by nofun) (by nofun) m hm)
      (ownSteps_pageProgram m hm)) hat h

/-- A step that records no status byte and reaches the page buffer, if at all, at `buf` and one of its `n` strides. -/
def ReadsWithin (buf : Word64) (n : Nat) (m : Micro) : Prop :=
  m ≠ .statusRead true ∧ ∀ b k, m = .strideRead b k ∨ m = .eccCorrect b k → b = buf ∧ k < n

theorem readsWithin_strideReadSteps {c : Config} {buf : Word64} {n k : Nat} (h : k < n) :
    ∀ m ∈ strideReadSteps c buf k, ReadsWithin buf n m := by
  simp only [strideReadSteps]
  split <;> simp [ReadsWithin, h]

theorem readsWithin_correctionSteps (c : Config) (g : Geometry) (buf : Word64) :
    ∀ m ∈ correctionSteps c g buf, ReadsWithin buf (strideCount c g) m := by
  simp only [correctionSteps]
  split <;> simp [ReadsWithin]

theorem readsWithin_readStartSteps (c : Config) (g : Geometry) (buf : Word64) (n : Nat) :
    ∀ m ∈ readStartSteps c g, ReadsWithin buf n m := by
  simp only [readStartSteps]
  split <;> simp [ReadsWithin]

/-- PAGE_READ is made of such steps: its strides and corrections are those of its own page buffer (R193). -/
theorem ownSteps_pageRead {page : Word32} {buf : Word64} {s : State} :
    ∀ m ∈ ownSteps (.pageRead page buf) s, ReadsWithin buf (strideCount s.cfg (geometry s)) m := by
  refine forall_mem_ownSteps.2 ⟨fun ms hms => ?_, by simp [ReadsWithin]⟩
  obtain ⟨d, hd, rfl⟩ := Option.map_eq_some_iff.1 hms
  have hgeom : geometry s = d.geom := by simp [geometry, hd]
  simp only [hgeom, pageReadSteps, transferRead, addressPhase, List.forall_mem_append, List.forall_mem_flatMap]
  exact ⟨⟨⟨⟨by simp [ReadsWithin], by simp [ReadsWithin]⟩, readsWithin_readStartSteps _ _ _ _⟩,
    by simp [waitRnb, ReadsWithin]⟩, ⟨fun k hk => readsWithin_strideReadSteps (List.mem_range.1 hk),
    by simp [ReadsWithin]⟩, readsWithin_correctionSteps _ _ _⟩

theorem exec_pageRead_resultStatus {page : Word32} {buf : Word64} {s t : State} (hat : AtOwnSteps (.pageRead page buf) s)
    (h : exec (.pageRead page buf) s = .next t) : t.resultStatus = s.resultStatus :=
  exec_other_field (·.resultStatus) (by nofun)
    (fun m hm x => (perform_ownWrites .other m x).resultStatus (ownSteps_pageRead m hm).1) hat h

theorem geometry_congr {s t : State} (h : t.dev.map (·.geom) = s.dev.map (·.geom)) : geometry t = geometry s := by
  rw [geometry_eq, geometry_eq, h]

/-- Host memory outside the page buffer at `buf` is as in `s`, and so is what places the strides in it (R61). -/
structure OutsidePageKept (buf : Word64) (s t : State) : Prop where
  cfg : t.cfg = s.cfg
  geom : t.dev.map (·.geom) = s.dev.map (·.geom)
  mem : ∀ a, (a < buf.toNat ∨ buf.toNat + (geometry s).pageSize ≤ a) → memRead t.mem a = memRead s.mem a

theorem completionFree_outsidePageKept (buf : Word64) (s : State) : CompletionFree (OutsidePageKept buf s) where
  pos _ _ h := ⟨h.cfg, h.geom, h.mem⟩
  completion _ _ _ h := ⟨h.cfg, h.geom, h.mem⟩

/-- A stride lies inside its page (R162). -/
theorem stride_le_page {c : Config} {g : Geometry} {k : Nat} (h : k < strideCount c g) :
    k * strideLen c g + strideLen c g ≤ g.pageSize :=
  calc k * strideLen c g + strideLen c g = (k + 1) * strideLen c g := (Nat.succ_mul _ _).symm
    _ ≤ strideCount c g * strideLen c g := Nat.mul_le_mul_right _ h
    _ ≤ g.pageSize := strideCount_mul_strideLen_le c g

theorem perform_outsidePageKept {k : OpKind} {m : Micro} {buf : Word64} {s x : State} (hids : writesIds m = false)
    (hm : ReadsWithin buf (strideCount s.cfg (geometry s)) m) (h : OutsidePageKept buf s x) :
    OutsidePageKept buf s (flowState (perform k m x)) := by
  have hlife : ¬ (m = .loadGeometry ∨ m = .release) := by rintro (rfl | rfl) <;> cases hids
  refine ⟨(perform_control k m x).cfg.trans h.cfg, (perform_geom hlife).trans h.geom, fun a ha => ?_⟩
  rcases perform_mem k m x with hmem | ⟨b, i, bytes, hlands, hlen, hmem⟩
  · rw [hmem, h.mem a ha]
  · obtain ⟨rfl, hi⟩ := hm.2 b i hlands
    have hgeom := geometry_congr h.geom
    have hinside := stride_le_page hi
    rw [hgeom, h.cfg] at hlen
    rw [hmem, strideAddr, hgeom, h.cfg, memRead_memWriteBytes_outside _ _ _ (by omega), h.mem a ha]

theorem exec_pageRead_outside {page : Word32} {buf : Word64} {s t : State} (hat : AtOwnSteps (.pageRead page buf) s)
    (h : exec (.pageRead page buf) s = .next t) : OutsidePageKept buf s t :=
  exec_other_keeps (completionFree_outsidePageKept buf s) (by nofun)
    (fun m hm _ hx =>
      perform_outsidePageKept (ownSteps_not_writesIds (by nofun) (by nofun) m hm) (ownSteps_pageRead m hm) hx)
    hat h ⟨rfl, rfl, fun _ _ => rfl⟩

end Sys2Proof.Machine

namespace Sys2Proof

open Sys2Proof.Machine

/-- Settles O44: its own steps are a select and the delay of a status poll, and neither reaches what the frame names. -/
theorem selectFrame : Obligations.SelectFrame := by
  unfold Obligations.SelectFrame
  intro en s t hat h
  obtain ⟨hdev, hpolls, hstatus, hecc⟩ : t.dev = s.dev ∧ t.polls = s.polls ∧ t.resultStatus = s.resultStatus ∧
      t.eccAcc = s.eccAcc := by simpa only [Prod.mk.injEq] using exec_select_kept hat h
  have hmem := exec_mem (i := .select en) (fun _ _ => nofun) hat h
  exact ⟨exec_registersKept (by nofun) (by nofun) hat h, hdev, hpolls, hstatus, hecc, fun a => by rw [hmem]⟩

/-- Settles O45: none of its own steps writes the device or feeds the ECC Backend. -/
theorem blockEraseFrame : Obligations.BlockEraseFrame := by
  unfold Obligations.BlockEraseFrame
  intro block s t hat h
  have hmem := exec_mem (i := .blockErase block) (fun _ _ => nofun) hat h
  exact ⟨exec_registersKept (by nofun) (by nofun) hat h, exec_blockErase_dev hat h, exec_blockErase_eccAcc hat h,
    fun a => by rw [hmem]⟩

/-- Settles O46: none of its own steps writes host memory, loads the device or extracts read codes. -/
theorem pageProgramFrame : Obligations.PageProgramFrame := by
  unfold Obligations.PageProgramFrame
  intro page buf s t hat h
  have hgeom := exec_geom (by nofun) (by nofun) hat h
  have hmem := exec_mem (i := .pageProgram page buf) (fun _ _ => nofun) hat h
  exact ⟨exec_registersKept (by nofun) (by nofun) hat h, identified_congr hgeom, geometry_congr hgeom,
    exec_pageProgram_readEcc hat h, fun a => by rw [hmem]⟩

/-- Settles O47: its strides and corrections lie inside the page, and its own steps record no status byte. -/
theorem pageReadFrame : Obligations.PageReadFrame := by
  unfold Obligations.PageReadFrame
  intro page buf s t hat h
  have houtside := exec_pageRead_outside hat h
  exact ⟨exec_registersKept (by nofun) (by nofun) hat h, identified_congr houtside.geom, geometry_congr houtside.geom,
    exec_pageRead_resultStatus hat h, houtside.mem⟩

end Sys2Proof

/-! ### How an operation ends: the completion step of an error and of success (R146, R222, R223), and idleness (R251) -/

namespace Sys2Proof.Machine

/-- The three fields of RESULT after a completion step (R31, R222, R223). -/
theorem completion_resultFields (e : Err) (info : BitVec 16) (s : State) :
    resultErr (completion e info s).result = errCode e ∧
      resultStatusOf (completion e info s).result = s.resultStatus.getD 0 ∧
      resultDetail (completion e info s).result = info := by
  simp

theorem kindOf_eq_identify_iff {i : Instr} : kindOf i = .identify ↔ i = .identify := by
  cases i <;> simp [kindOf]

/-- An error is its completion step, with the rollback of R146 where the operation is IDENTIFY and the error is not
NotSupported. -/
theorem raiseErr_kindOf (i : Instr) (e : Err) (info : BitVec 16) {s : State} (hh : hostDue s = false) :
    raiseErr (kindOf i) e info s =
      if i = .identify ∧ e ≠ .notSupported then forgetDevice (completion e info s) else completion e info s := by
  simp only [raiseErr, hh, Bool.false_eq_true, if_false, kindOf_eq_identify_iff]

theorem runOperation_fail {k : OpKind} {start : State → State} {s : State} {e : Err} {info : BitVec 16}
    (hpos : s.pos = .fail e info) : runOperation k start s = .next (raiseErr k e info s) := by
  simp [runOperation, hpos]

/-- An operation paused at an error goes on with that error and performs no further step (R222). -/
theorem exec_fail (i : Instr) {s : State} {e : Err} {info : BitVec 16} (hpos : s.pos = .fail e info) :
    exec i s = .next (raiseErr (kindOf i) e info s) := by
  cases i <;> exact runOperation_fail hpos

/-- With no step left and no host event due an operation takes its completion step (R223). -/
theorem exec_run_nil (i : Instr) {s : State} (hpos : s.pos = .run []) (hh : hostDue s = false) :
    exec i s = .next (completion .ok 0 s) := by
  have hrun : runSteps (kindOf i) [] s = completion .ok 0 s := by simp [runSteps_nil, completeOk, hh]
  rw [← hrun]
  cases i <;> exact runOperation_run hpos rfl

/-- While IDLE with no host event first in the inputs, a step leaves the state as it is (R237, R251). -/
theorem step_idle {s : State} (hw : s.cfg.wf = true) (hp : s.phase = .idle)
    (hi : ∀ e rest, s.inputs ≠ .host e :: rest) : step s = .next s := by
  cases hin : s.inputs with
  | nil => simp [step, advance, hw, hp, hin]
  | cons x rest =>
    cases x with
    | host e => exact absurd hin (hi e rest)
    | answer a => simp [step, advance, hw, hp, hin]

end Sys2Proof.Machine

namespace Sys2Proof

open Sys2Proof.Machine

/-- Settles O7: each code is read off the table. -/
theorem errorCodesAreListed : Obligations.ErrorCodesAreListed := by
  unfold Obligations.ErrorCodesAreListed
  exact ⟨rfl, rfl, rfl, rfl, rfl, rfl, rfl, rfl, rfl⟩

/-- Settles O8: with the rollback of R146 and without it, what is left is the completion step of the error. -/
theorem raisedErrorCompletes : Obligations.RaisedErrorCompletes := by
  unfold Obligations.RaisedErrorCompletes
  intro i s e info hpos hh
  refine ⟨_, exec_fail i hpos, ?_⟩
  rw [raiseErr_kindOf i e info hh]
  split
  · exact ⟨rfl, completion_resultFields e info s⟩
  · exact ⟨rfl, completion_resultFields e info s⟩

/-- Settles O9: the completion step of `ok`, whose code is 0. -/
theorem successfulOperationCompletes : Obligations.SuccessfulOperationCompletes := by
  unfold Obligations.SuccessfulOperationCompletes
  intro i s hpos hh
  exact ⟨_, exec_run_nil i hpos hh, rfl, completion_resultFields .ok 0 s⟩

/-- Settles O10: no event lands and no operation moves. -/
theorem idleNpeStays : Obligations.IdleNpeStays := by
  unfold Obligations.IdleNpeStays
  exact fun s hw hp hi => step_idle hw hp hi

end Sys2Proof

/-! ### The state after reset (R250) -/

namespace Sys2Proof.Machine

/-- Reset is the reset event of a state that is already at its reset values. -/
theorem resetNpe_resetWith (c : Config) : resetNpe (State.resetWith c) = State.resetWith c := rfl

/-- ENGSTAT of an IDLE, unidentified NPE with `ce` false is `ECC_PRESENT << 3` (R32, R250). -/
theorem engstat_at_rest {s : State} (hp : s.phase = .idle) (hdev : s.dev = none) (hce : s.ce = false) :
    engstat s = if s.cfg.ecc.isSome then 8 else 0 := by
  have hid : identified s = false := by rw [identified, hdev]; rfl
  rw [engstat, hp, hid, hce]
  cases s.cfg.ecc.isSome <;> decide

theorem sequenceInv_of_idle {s : State} (hp : s.phase = .idle) : SequenceInv s :=
  fun hb => nomatch hp.symm.trans hb

end Sys2Proof.Machine

namespace Sys2Proof

open Sys2Proof.Machine

/-- Settles O1: the event lands as `resetNpe`, whatever the phase, and leaves an unidentified NPE at rest. -/
theorem resetEventRestoresEveryItem : Obligations.ResetEventRestoresEveryItem := by
  unfold Obligations.ResetEventRestoresEveryItem
  intro s rest hw hi
  refine ⟨resetNpe { s with inputs := rest }, step_host hw hi (by simp), rfl, rfl, rfl, rfl, rfl, rfl, rfl, rfl, rfl, rfl,
    rfl, fun n h5 h10 => readReg_unidentified rfl h5 h10, engstat_at_rest rfl rfl rfl, rfl⟩

/-- Settles O2: registers 0, 1, 2 and 4 hold 0, the GEOM registers show no geometry, and none lies above register 10. -/
theorem resetStateReadsZero : Obligations.ResetStateReadsZero := by
  unfold Obligations.ResetStateReadsZero
  intro c
  refine ⟨rfl, rfl, rfl, fun n hn => ?_, ?_⟩
  · obtain hlow | hgeom | habove : n < 5 ∨ (5 ≤ n ∧ n ≤ 10) ∨ 10 < n := by omega
    · interval_cases n
      · rfl
      · rfl
      · rfl
      · exact absurd rfl hn
      · rfl
    · exact readReg_unidentified rfl hgeom.1 hgeom.2
    · exact readReg_above habove
  · rw [readReg, engstat_at_rest rfl rfl rfl, apply_ite (BitVec.setWidth 64)]
    rfl

/-- Settles O55: memory is empty, there is no device, and no operation is in flight. -/
theorem resetMeetsMachineInv : Obligations.ResetMeetsMachineInv := by
  unfold Obligations.ResetMeetsMachineInv
  exact fun c =>
    { memory := ⟨List.Pairwise.nil, List.forall_mem_nil _⟩
      unidentifiedId := fun _ => rfl
      device := fun _ hd => nomatch hd
      buffers := fun _ hd => nomatch hd
      latched := fun hb => nomatch hb }

/-- Settles O58: RESULT by what the reset event leaves, the position because the NPE is IDLE. -/
theorem resetMeetsResultAndSequenceInv : Obligations.ResetMeetsResultAndSequenceInv := by
  unfold Obligations.ResetMeetsResultAndSequenceInv
  exact fun c => ⟨resetNpe_resetWith c ▸ resetNpe_resultInv (State.resetWith c), sequenceInv_of_idle rfl⟩

end Sys2Proof

/-! ### A host write that races with a page transfer (R68, R263), and a host request that fails (R265) -/

namespace Sys2Proof.Machine

/-- The host's write of a byte the NPE owns: the free value of log 13 lands, and the address is marked (R263). -/
theorem hostWriteMem_owned {s : State} {a : Nat} (hadm : admits s.cfg a = true) (hown : owned s a = true) (v : Byte) :
    hostWriteMem a v s = .next { s with
      mem := memWrite s.mem a (Config.racedByte s.draws a), raced := a :: s.raced, draws := s.draws + 1 } := by
  rw [hostWriteMem, if_pos hadm, if_pos hown]

/-- An item that fails: the request records the code, keeps its counts, and releases select (R265). -/
theorem requestAdvance_moving_error {q : Request} {err : Byte} (hq : q.stage = .moving) (herr : err ≠ 0) (g : Geometry) :
    requestAdvance g q err = ({ q with stage := .releasing, error := err }, some (.select false)) := by
  rw [requestAdvance, hq]
  exact if_neg herr

/-- The completion of the closing SELECT 0 ends the request, whatever its code (R265; log 31). -/
theorem requestAdvance_releasing {q : Request} (hq : q.stage = .releasing) (g : Geometry) (err : Byte) :
    requestAdvance g q err = ({ q with stage := .finished }, none) := by
  rw [requestAdvance, hq]

end Sys2Proof.Machine

namespace Sys2Proof

open Sys2Proof.Machine

/-- Settles O53: the write lands, and every other byte reads as before it. -/
theorem hostWriteOfOwnedByteIsARace : Obligations.HostWriteOfOwnedByteIsARace := by
  unfold Obligations.HostWriteOfOwnedByteIsARace
  intro s a v rest hw hi hadm hown
  have hstep := (step_host hw hi (by simp)).trans (hostWriteMem_owned (s := { s with inputs := rest }) hadm hown v)
  refine ⟨_, hstep, List.mem_cons_self, fun a' ha => ?_, ?_, rfl, rfl, rfl⟩
  · rw [memRead_memWrite, if_neg ha]
  · rw [memRead_memWrite, if_pos rfl]

/-- Settles O59: the failed item leads to the closing SELECT 0, and its completion to no further operation. -/
theorem requestStopsAtFirstError : Obligations.RequestStopsAtFirstError := by
  unfold Obligations.RequestStopsAtFirstError
  intro g q err err' herr hq
  rw [requestAdvance_moving_error hq herr]
  exact ⟨rfl, rfl, rfl, by rw [requestAdvance_releasing rfl]⟩

end Sys2Proof
